-- ==== Sys2Proof/Word.lean ====
section
/-! DEFINITION. The word types of QRCORE and the four error-correction levels. -/

namespace Sys2Proof

/-- A 32-bit value: a command word or a register (10_state.md section 2, 30_encoding.md R80). -/
abbrev Word := BitVec 32

/-- A codeword, and one byte of a buffer or of a window (R91, R53). -/
abbrev Byte := BitVec 8

/-- A host-port address (20_memory.md R50). -/
abbrev HostAddr := BitVec 16

/-- The error-correction level (00_scope.md R8). Its 2-bit code is `EcLevel.code` (30_encoding.md R92). -/
inductive EcLevel where
  | L
  | M
  | Q
  | H
deriving DecidableEq, Repr

end Sys2Proof
end

