-- ==== Sys2Proof/Syntax.lean ====
section
/-! DEFINITION. The commands of QRCORE-1: one constructor for each row of spec/opcode_table.json
(30_encoding.md R81). -/

namespace Sys2Proof

/-- A command. `ver` is the VER field (R83), `ecl` the level the ECL field codes (R84, R92), `msk` the MSK field
(R82): every value of each field is legal. -/
inductive Instr where
  | nop
  | setcfg (ver : BitVec 6) (ecl : EcLevel)
  | rsenc
  | layout
  | place
  | applymask (msk : BitVec 3)
  | score
  | wrfmt (msk : BitVec 3)
  | wrver
  | masksel
  | generate
  | clrstat
deriving DecidableEq, Repr

end Sys2Proof
end

