-- ==== Sys2Proof/WellFormed.lean ====
section
/-! DEFINITION. The source form of a command, as the assembler syntax of 30_encoding.md R89 writes it (decimal
operands), and the check that every operand is one the syntax admits. A term of `Instr` cannot be ill-formed: its
operands have the widths of the fields, and every field value is legal (R82 to R84). -/

namespace Sys2Proof

/-- The level operand of SETCFG: a letter, or a raw code `#0` to `#3` (R89). -/
inductive SrcLevel where
  | letter (e : EcLevel)
  | raw (code : Nat)
deriving DecidableEq, Repr

/-- A command as written in the assembler syntax of R89, its operands still decimal numbers. -/
inductive SrcCmd where
  | nop
  | setcfg (v : Nat) (e : SrcLevel)
  | rsenc
  | layout
  | place
  | applymask (m : Nat)
  | score
  | wrfmt (m : Nat)
  | wrver
  | masksel
  | generate
  | clrstat
deriving DecidableEq, Repr

/-- A level letter is always good; a raw code is `#0` to `#3` (R89). -/
def SrcLevel.wellFormed : SrcLevel → Bool
  | .letter _ => true
  | .raw c => decide (c ≤ 3)

/-- The operand ranges of R89: `v` in 0 to 63, the level a letter or `#0` to `#3`, `m` in 0 to 7. -/
def SrcCmd.wellFormed : SrcCmd → Bool
  | .nop => true
  | .setcfg v e => decide (v ≤ 63) && e.wellFormed
  | .rsenc => true
  | .layout => true
  | .place => true
  | .applymask m => decide (m ≤ 7)
  | .score => true
  | .wrfmt m => decide (m ≤ 7)
  | .wrver => true
  | .masksel => true
  | .generate => true
  | .clrstat => true

/-- The source form of a command. -/
def SrcCmd.ofInstr : Instr → SrcCmd
  | .nop => .nop
  | .setcfg v e => .setcfg v.toNat (.letter e)
  | .rsenc => .rsenc
  | .layout => .layout
  | .place => .place
  | .applymask m => .applymask m.toNat
  | .score => .score
  | .wrfmt m => .wrfmt m.toNat
  | .wrver => .wrver
  | .masksel => .masksel
  | .generate => .generate
  | .clrstat => .clrstat

/-- A command is well-formed when its source form is: true of every term (`Sys2Proof.Laws.instr_wellFormed`). -/
def Instr.wellFormed (i : Instr) : Bool := (SrcCmd.ofInstr i).wellFormed

end Sys2Proof
end

