-- ==== Sys2Proof/Decode.lean ====
section
/-! DEFINITION. The command word: decoding, total on every 32-bit word (30_encoding.md R87), and after it the
encoder, written from the field layout of R80. -/

namespace Sys2Proof

/-- The 2-bit code of a level (R92). -/
def EcLevel.code : EcLevel → BitVec 2
  | .L => 0b01#2
  | .M => 0b00#2
  | .Q => 0b11#2
  | .H => 0b10#2

/-- The level a 2-bit code names (R92); all four codes are legal (R84). -/
def EcLevel.ofCode (c : BitVec 2) : EcLevel :=
  if c = 0b01#2 then .L else if c = 0b00#2 then .M else if c = 0b11#2 then .Q else .H

/-- OP, bits 3:0 (R80). -/
def fieldOp (w : Word) : BitVec 4 := w.extractLsb' 0 4

/-- MSK, bits 6:4 (R80). -/
def fieldMsk (w : Word) : BitVec 3 := w.extractLsb' 4 3

/-- VER, bits 13:8 (R80). -/
def fieldVer (w : Word) : BitVec 6 := w.extractLsb' 8 6

/-- ECL, bits 15:14 (R80). -/
def fieldEcl (w : Word) : BitVec 2 := w.extractLsb' 14 2

/-- A row of the table of fixed bit patterns (R86): a word selects it when `w and mask = pattern`. -/
structure DecodeRow where
  mnemonic : String
  pattern : Word
  mask : Word
  build : Word → Instr

/-- The table of R86. -/
def decodeTable : List DecodeRow :=
  [ ⟨"NOP", 0x00000000#32, 0xFFFFFFFF#32, fun _ => .nop⟩,
    ⟨"SETCFG", 0x00000001#32, 0xFFFF00FF#32, fun w => .setcfg (fieldVer w) (EcLevel.ofCode (fieldEcl w))⟩,
    ⟨"RSENC", 0x00000002#32, 0xFFFFFFFF#32, fun _ => .rsenc⟩,
    ⟨"LAYOUT", 0x00000003#32, 0xFFFFFFFF#32, fun _ => .layout⟩,
    ⟨"PLACE", 0x00000004#32, 0xFFFFFFFF#32, fun _ => .place⟩,
    ⟨"APPLYMASK", 0x00000005#32, 0xFFFFFF8F#32, fun w => .applymask (fieldMsk w)⟩,
    ⟨"SCORE", 0x00000006#32, 0xFFFFFFFF#32, fun _ => .score⟩,
    ⟨"WRFMT", 0x00000007#32, 0xFFFFFF8F#32, fun w => .wrfmt (fieldMsk w)⟩,
    ⟨"WRVER", 0x00000008#32, 0xFFFFFFFF#32, fun _ => .wrver⟩,
    ⟨"MASKSEL", 0x00000009#32, 0xFFFFFFFF#32, fun _ => .masksel⟩,
    ⟨"GENERATE", 0x0000000A#32, 0xFFFFFFFF#32, fun _ => .generate⟩,
    ⟨"CLRSTAT", 0x0000000B#32, 0xFFFFFFFF#32, fun _ => .clrstat⟩ ]

/-- A word selects a row (R86). -/
def DecodeRow.selects (r : DecodeRow) (w : Word) : Bool := w &&& r.mask == r.pattern

/-- Why a word is illegal: its opcode is one of 0xC to 0xF (R88), or a bit its command does not use is 1 (R85). -/
inductive IllegalWord where
  | reservedOpcode
  | unusedBitSet
deriving DecidableEq, Repr

/-- R87: the first (and only) row the word selects, or Illegal. -/
def decode (w : Word) : Except IllegalWord Instr :=
  match decodeTable.find? (fun r => r.selects w) with
  | some r => .ok (r.build w)
  | none => .error (if 0xC#4 ≤ fieldOp w then .reservedOpcode else .unusedBitSet)

/-- The host's entry: the command in an instruction whose bits, numbered as spec/opcode_table.json numbers them, are
`w`, of which the table gives the row `nbits`; the bits above are 0. A command is one 32-bit word (R80). -/
def decodeTableWord (nbits w : Nat) : Option Instr :=
  match decode (BitVec.ofNat 32 (w % 2 ^ nbits)) with
  | .ok i => some i
  | .error _ => none

/-- R89: the assembled word, high field first: 16 zero bits, ECL, VER, a zero bit, MSK, OP. -/
def assemble (op : BitVec 4) (msk : BitVec 3) (ver : BitVec 6) (ecl : BitVec 2) : Word :=
  0#16 ++ ecl ++ ver ++ 0#1 ++ msk ++ op

/-- The word of a command: the opcode of R81, the operand fields of R80, the unused fields 0 (R85). -/
def encode : Instr → Word
  | .nop => assemble 0x0#4 0 0 0
  | .setcfg v e => assemble 0x1#4 0 v e.code
  | .rsenc => assemble 0x2#4 0 0 0
  | .layout => assemble 0x3#4 0 0 0
  | .place => assemble 0x4#4 0 0 0
  | .applymask m => assemble 0x5#4 m 0 0
  | .score => assemble 0x6#4 0 0 0
  | .wrfmt m => assemble 0x7#4 m 0 0
  | .wrver => assemble 0x8#4 0 0 0
  | .masksel => assemble 0x9#4 0 0 0
  | .generate => assemble 0xA#4 0 0 0
  | .clrstat => assemble 0xB#4 0 0 0

/-- The command a source form stands for, none where an operand is out of range (R89). -/
def SrcCmd.toInstr (c : SrcCmd) : Option Instr :=
  if c.wellFormed then
    match c with
    | .nop => some .nop
    | .setcfg v (.letter e) => some (.setcfg (BitVec.ofNat 6 v) e)
    | .setcfg v (.raw k) => some (.setcfg (BitVec.ofNat 6 v) (EcLevel.ofCode (BitVec.ofNat 2 k)))
    | .rsenc => some .rsenc
    | .layout => some .layout
    | .place => some .place
    | .applymask m => some (.applymask (BitVec.ofNat 3 m))
    | .score => some .score
    | .wrfmt m => some (.wrfmt (BitVec.ofNat 3 m))
    | .wrver => some .wrver
    | .masksel => some .masksel
    | .generate => some .generate
    | .clrstat => some .clrstat
  else none

end Sys2Proof
end

