-- ==== Sys2Proof/Config.lean ====
section
/-! DEFINITION. The fixed capacities of QRCORE (00_scope.md R10). The spec leaves no implementation
parameter open (R11), and no instruction has a value the spec leaves free, so there is no opaque constant here. -/

namespace Sys2Proof.Config

/-- MAXSIZE: the side of the grid arrays MOD and FUN (R10, 10_state.md R33, R34). -/
def maxSize : Nat := 177

/-- The number of cells of one grid array: 177 * 177 (R10). -/
def gridCells : Nat := 31329

/-- MAXD: the number of bytes of DIN (R10, 10_state.md R31). -/
def dinBytes : Nat := 2956

/-- MAXT: the number of bytes of CWB (R10, 10_state.md R32). -/
def cwbBytes : Nat := 3706

end Sys2Proof.Config
end

