-- ==== Sys2Proof/Machine/State.lean ====
section
/-! DEFINITION. The state of QRCORE as plain data (10_state.md R20), the faults of the model (60_exceptions.md
R264), and the state after reset (70_reset_and_hazards.md R280, R282). -/

namespace Sys2Proof.Machine

/-- A memory: (element, value) pairs, in rising order of the element, each element at most once. An element is
listed exactly when its written flag is true (10_state.md R36), so an unlisted element has no value. -/
abbrev Memory (α : Type) := List (Nat × α)

/-- STATUS (R22), by field. Its reserved bits 31:6 have no storage; the word read is `Status.word`. -/
structure Status where
  busy : Bool
  done : Bool
  err : BitVec 3
  drop : Bool
deriving DecidableEq, Repr

/-- CFG (R23), by field: the version and the level its ECL code names. -/
structure Cfg where
  ver : BitVec 6
  ecl : EcLevel
deriving DecidableEq, Repr

/-- The error codes a command can end with (60_exceptions.md R251); codes 4 to 7 are never produced. -/
inductive ErrCode where
  | unsupportedVersion
  | layoutOverflow
  | illegalCommand
deriving DecidableEq, Repr

/-- The number of bytes of a host access (20_memory.md R52 to R54). -/
inductive AccessWidth where
  | one
  | two
  | four
  | eight
deriving DecidableEq, Repr

/-- An access of the host port: MemRead(addr, n), or MemWrite(addr, n, v) with v the low n bytes of the 64-bit
value (00_scope.md R14; log 14). -/
inductive HostAccess where
  | read (addr : HostAddr) (n : AccessWidth)
  | write (addr : HostAddr) (n : AccessWidth) (v : BitVec 64)
deriving DecidableEq, Repr

/-- What happens next from outside the commands: an access of the host, a moment at which the engine may take its
step (40_control.md R111), or an assertion of the reset input (R280). The order of these is the host's and the
hardware's, not the program's (log 1). -/
inductive HostEvent where
  | access (a : HostAccess)
  | engineTurn
  | resetInput
deriving DecidableEq, Repr

/-- What the port answers to one access: the 32 or 8 bits read, an acknowledged write, or HostAccessError (R54). -/
inductive PortReply where
  | word (v : Word)
  | byte (v : Byte)
  | ack
  | accessError (addr : HostAddr)
deriving DecidableEq, Repr

/-- The machine (10_state.md R20). CMD, INFO0, INFO1 and INFO2 hold no value of their own (R21, R25 to R27). -/
structure State where
  /-- STATUS (R22) -/
  status : Status
  /-- CFG (R23) -/
  cfg : Cfg
  /-- MASKID.MASK (R24) -/
  maskid : BitVec 3
  /-- PEN0 to PEN7 (R28) -/
  pen : Vector Word 8
  /-- PART1, the runs part N1 (R29) -/
  part1 : Word
  /-- PART2, the blocks part N2 (R29) -/
  part2 : Word
  /-- PART3, the finder-like part N3 (R29) -/
  part3 : Word
  /-- PART4, the balance part N4 (R29) -/
  part4 : Word
  /-- PTOTAL (R29) -/
  ptotal : Word
  /-- PENDCMD (R30) -/
  pendcmd : Word
  /-- DIN (R31), by index 0 to 2955 -/
  din : Memory Byte
  /-- CWB (R32), by index 0 to 3705 -/
  cwb : Memory Byte
  /-- MOD (R33), by cell number 177 r + c; true is dark (R16) -/
  modArr : Memory Bool
  /-- FUN (R34), by cell number 177 r + c; true is a function cell -/
  funArr : Memory Bool
  /-- The model's own field: what happens next, in order (log 1). -/
  inputs : List HostEvent
  /-- The model's own field: the port's last answer (log 4). -/
  reply : Option PortReply
deriving DecidableEq, Repr

/-- The faults of the model (60_exceptions.md R264). Neither is an error of the hardware, and both are safe: the
hardware goes on with a result the spec leaves unspecified. -/
inductive Fault where
  /-- A read of an element never written since reset (20_memory.md R63). Raised by RSENC, PLACE, APPLYMASK, SCORE,
  MASKSEL, GENERATE and by host reads of the four windows. Safe: the hardware returns some unspecified value. -/
  | unwrittenRead
  /-- A host access other than a STATUS read or a CMD write while BUSY = 1 (70_reset_and_hazards.md R286). Raised by
  the host port. Safe: the hardware's result is unspecified. -/
  | busyHazard
deriving DecidableEq, Repr

/-- The reasons for which the model has no meaning to give. -/
inductive Refusal where
  /-- An instruction not modelled yet; raised by an arm of `exec` only, and by none of them now. Safe: nothing runs. -/
  | notModelled (mnemonic : String)
deriving DecidableEq, Repr

/-- What performing a command gives (40_control.md R111): it ends normally, or it raises an error code, leaving the
state as it then is (R257), or it needs a value the spec does not give (R264). -/
inductive CmdResult where
  | done (s : State)
  | error (s : State) (e : ErrCode)
  | fault (f : Fault)
deriving DecidableEq, Repr

/-- Right after reset (R280, R282, R284): every register at the value of 10_state.md, idle, no element of the four
memories written. PENDCMD has no reset value (R30): 0 is the model's choice (log 5). The model's own fields are
empty (log 1, log 4). -/
def State.reset : State where
  status := ⟨false, false, 0#3, false⟩
  cfg := ⟨0#6, .M⟩
  maskid := 0#3
  pen := #v[0#32, 0#32, 0#32, 0#32, 0#32, 0#32, 0#32, 0#32]
  part1 := 0#32
  part2 := 0#32
  part3 := 0#32
  part4 := 0#32
  ptotal := 0#32
  pendcmd := 0#32
  din := []
  cwb := []
  modArr := []
  funArr := []
  inputs := []
  reply := none

end Sys2Proof.Machine
end

