-- ==== Sys2Proof/Machine/Flags.lean ====
section
/-! DEFINITION. STATUS and CFG as words, and every way STATUS changes (10_state.md R22, 40_control.md R110, R111). -/

namespace Sys2Proof.Machine

/-- The number of an error code (60_exceptions.md R251). -/
def ErrCode.code : ErrCode → BitVec 3
  | .unsupportedVersion => 1#3
  | .layoutOverflow => 2#3
  | .illegalCommand => 3#3

/-- The word a read of STATUS gives (R22): DROP in bit 5, ERR in 4:2, DONE in bit 1, BUSY in bit 0, the rest 0. -/
def Status.word (t : Status) : Word :=
  0#26 ++ BitVec.ofBool t.drop ++ t.err ++ BitVec.ofBool t.done ++ BitVec.ofBool t.busy

/-- Acceptance (R110): BUSY <- 1, DONE <- 0, ERR <- 0. -/
def Status.accepted (t : Status) : Status := ⟨true, false, 0#3, t.drop⟩

/-- A discarded CMD write (R110): DROP <- 1. -/
def Status.dropped (t : Status) : Status := ⟨t.busy, t.done, t.err, true⟩

/-- Completion with a code (R111): ERR <- code, DONE <- 1, BUSY <- 0. -/
def Status.completed (t : Status) (code : BitVec 3) : Status := ⟨false, true, code, t.drop⟩

/-- CLRSTAT (R114): DROP <- 0. -/
def Status.dropCleared (t : Status) : Status := ⟨t.busy, t.done, t.err, false⟩

/-- The word a read of CFG gives (R23): ECL in bits 7:6, VER in 5:0, the rest 0. -/
def Cfg.word (c : Cfg) : Word := 0#24 ++ c.ecl.code ++ c.ver

/-- The configuration is supported (R38). -/
def Cfg.supported (c : Cfg) : Bool := decide (1 ≤ c.ver.toNat ∧ c.ver.toNat ≤ 40)

/-- The legal STATUS values (R22, R251): BUSY = 1 implies DONE = 0 and ERR = 0, and ERR is 0 to 3. -/
def Status.legal (t : Status) : Bool :=
  decide (t.err.toNat ≤ 3) && (!t.busy || (!t.done && t.err == 0#3))

end Sys2Proof.Machine
end

