-- ==== Sys2Proof/Machine/Ops.lean ====
section
/-! DEFINITION. The operations the meanings share: the four memories by element (20_memory.md R62, R63), one update
per register, and how a command ends (40_control.md R111, 60_exceptions.md R257), is accepted or is dropped (R110). -/

namespace Sys2Proof.Machine

/-! ## Memories by element -/

/-- The cells before element `k`. -/
def Memory.takeBelow {α : Type} (m : Memory α) (k : Nat) : Memory α :=
  List.takeWhile (fun c => decide (c.1 < k)) m

/-- The cells from element `k` on. -/
def Memory.dropBelow {α : Type} (m : Memory α) (k : Nat) : Memory α :=
  List.dropWhile (fun c => decide (c.1 < k)) m

/-- The cells after element `k`. -/
def Memory.dropThrough {α : Type} (m : Memory α) (k : Nat) : Memory α :=
  List.dropWhile (fun c => decide (c.1 ≤ k)) m

/-- Element `k`, none where it was never written (R63). -/
def Memory.read {α : Type} (m : Memory α) (k : Nat) : Option α :=
  match Memory.dropBelow m k with
  | [] => none
  | c :: _ => if c.1 = k then some c.2 else none

/-- The elements `k` to `k + n - 1`, none where one of them was never written. -/
def Memory.readSpan {α : Type} (m : Memory α) (k : Nat) : Nat → Option (List α)
  | 0 => some []
  | n + 1 =>
    match Memory.dropBelow m k with
    | [] => none
    | c :: cs =>
      if c.1 = k then
        match Memory.readSpan (c :: cs) (k + 1) n with
        | some vs => some (c.2 :: vs)
        | none => none
      else none

/-- Every element the first memory lists is written with its value; the others stay. -/
def Memory.overlay {α : Type} : Memory α → Memory α → Memory α
  | [], m => m
  | c :: cs, m => Memory.takeBelow m c.1 ++ c :: Memory.overlay cs (Memory.dropThrough m c.1)

/-- Element `k` is written with `v`. -/
def Memory.write {α : Type} (m : Memory α) (k : Nat) (v : α) : Memory α :=
  Memory.overlay [(k, v)] m

/-- The values of a list as the elements `k`, `k + 1`, ... -/
def Memory.ofList {α : Type} (k : Nat) : List α → Memory α
  | [] => []
  | v :: vs => (k, v) :: Memory.ofList (k + 1) vs

/-- `n` elements from `k` on, each with the value `f` gives it. -/
def Memory.tabulate {α : Type} (f : Nat → α) (k : Nat) : Nat → Memory α
  | 0 => []
  | n + 1 => (k, f k) :: Memory.tabulate f (k + 1) n

/-- A list of writes, done in order. -/
def Memory.writeAll {α : Type} (m : Memory α) (ws : List (Nat × α)) : Memory α :=
  ws.foldl (fun acc w => Memory.write acc w.1 w.2) m

/-- The canonical form from element `lo` on: rising elements, each once, all below `bound`. -/
def Memory.wfFrom {α : Type} (bound : Nat) : Nat → Memory α → Bool
  | _, [] => true
  | lo, c :: cs => decide (lo ≤ c.1) && decide (c.1 < bound) && Memory.wfFrom bound (c.1 + 1) cs

/-- The canonical form of a memory of `bound` elements. -/
def Memory.wf {α : Type} (bound : Nat) (m : Memory α) : Bool := Memory.wfFrom bound 0 m

/-! ## The square of a grid array -/

/-- A grid or a part of one, as the list of its rows. -/
abbrev Grid := List (List Bool)

/-- The element number of the cell (r, c) of MOD or FUN (10_state.md R33, R34). -/
def cellKey (r c : Nat) : Nat := 177 * r + c

/-- `n` rows from row `r` on, the first `size` cells of each; none where a cell was never written. -/
def readRows (m : Memory Bool) (size r : Nat) : Nat → Option Grid
  | 0 => some []
  | n + 1 =>
    match Memory.readSpan m (cellKey r 0) size with
    | none => none
    | some row =>
      match readRows m size (r + 1) n with
      | none => none
      | some rows => some (row :: rows)

/-- The square of rows and columns 0 to size - 1; none where a cell was never written (R63). -/
def readSquare (m : Memory Bool) (size : Nat) : Option Grid := readRows m size 0 size

/-- The rows of a grid as cells of a grid array, the first row being row `r`. -/
def rowCells (r : Nat) : Grid → Memory Bool
  | [] => []
  | row :: rows => Memory.ofList (cellKey r 0) row ++ rowCells (r + 1) rows

/-- The square of a grid array is written with a grid; cells outside it stay. -/
def writeSquare (m : Memory Bool) (g : Grid) : Memory Bool := Memory.overlay (rowCells 0 g) m

/-- The cell (r, c) of a grid; light outside it. -/
def Grid.cell (g : Grid) (r c : Nat) : Bool := (g.getD r []).getD c false

/-! ## One update per register or memory -/

def State.setStatus (s : State) (t : Status) : State := { s with status := t }
def State.setCfg (s : State) (c : Cfg) : State := { s with cfg := c }
def State.setMaskid (s : State) (m : BitVec 3) : State := { s with maskid := m }
def State.setPen (s : State) (p : Vector Word 8) : State := { s with pen := p }
def State.setParts (s : State) (n1 n2 n3 n4 total : Word) : State :=
  { s with part1 := n1, part2 := n2, part3 := n3, part4 := n4, ptotal := total }
def State.setPendcmd (s : State) (w : Word) : State := { s with pendcmd := w }
def State.setDin (s : State) (m : Memory Byte) : State := { s with din := m }
def State.setCwb (s : State) (m : Memory Byte) : State := { s with cwb := m }
def State.setMod (s : State) (m : Memory Bool) : State := { s with modArr := m }
def State.setFun (s : State) (m : Memory Bool) : State := { s with funArr := m }
def State.setInputs (s : State) (l : List HostEvent) : State := { s with inputs := l }
def State.setReply (s : State) (r : PortReply) : State := { s with reply := some r }

/-! ## How a command is accepted, ends, and hands on to the next stage -/

/-- A CMD write while BUSY = 0 (40_control.md R110). It also leaves an error: ERR and DONE are cleared and nothing
else of the error is kept (60_exceptions.md R259). -/
def acceptCommand (w : Word) (s : State) : State := (s.setPendcmd w).setStatus s.status.accepted

/-- A CMD write (R110): accepted when BUSY = 0, else discarded with DROP set. -/
def offerCommand (w : Word) (s : State) : State :=
  if s.status.busy then s.setStatus s.status.dropped else acceptCommand w s

/-- `raise Error(e)` (60_exceptions.md R257): the command ends with the code, the state being as it then is. There
is no trap, vector or saved register (R250): this and `complete` are all an error does. -/
def raiseError (e : ErrCode) (s : State) : CmdResult := .error s e

/-- The end of the engine's step (40_control.md R111): ERR <- code, DONE <- 1, BUSY <- 0. -/
def complete : CmdResult → Host.Outcome State Fault Refusal
  | .done s => .next (s.setStatus (s.status.completed 0#3))
  | .error s e => .next (s.setStatus (s.status.completed e.code))
  | .fault f => .fault f

/-- The next stage of GENERATE: run where the stage before it ended normally, else that stage's end stands (R115). -/
def CmdResult.andThen (r : CmdResult) (next : State → CmdResult) : CmdResult :=
  match r with
  | .done s => next s
  | .error s e => .error s e
  | .fault f => .fault f

end Sys2Proof.Machine
end

