-- ==== Sys2Proof/Machine/Operands.lean ====
section
/-! DEFINITION. What a command takes its operands from: the configuration (40_control.md R116), and elements of the
memories (20_memory.md R63). The operand fields of the command word itself are pulled out in Decode. -/

namespace Sys2Proof.Machine

/-- SIZE(V) = 4 V + 17 (00_scope.md R7). -/
def symbolSize (v : Nat) : Nat := 4 * v + 17

/-- CheckVersion (R116): UNSUPPORTED_VERSION where CFG.VER is outside 1 to 40, else the command goes on with V and E. -/
def withVersion (s : State) (body : Nat → EcLevel → CmdResult) : CmdResult :=
  if s.cfg.supported then body s.cfg.ver.toNat s.cfg.ecl else raiseError .unsupportedVersion s

/-- A read of elements of a memory: the fault UnwrittenRead where one was never written (R63). -/
def withRead {α : Type} (x : Option α) (body : α → CmdResult) : CmdResult :=
  match x with
  | some v => body v
  | none => .fault .unwrittenRead

end Sys2Proof.Machine
end

