-- ==== Sys2Proof/Machine/Control.lean ====
section
/-! DEFINITION. The control commands NOP, SETCFG and CLRSTAT (40_control.md R112 to R114). -/

namespace Sys2Proof.Machine

/-- NOP (R112). -/
def execNop (s : State) : Host.Outcome State Fault Refusal := complete (.done s)

/-- SETCFG (R113): any version is stored, supported or not. -/
def execSetcfg (ver : BitVec 6) (ecl : EcLevel) (s : State) : Host.Outcome State Fault Refusal :=
  complete (.done (s.setCfg ⟨ver, ecl⟩))

/-- CLRSTAT (R114). -/
def execClrstat (s : State) : Host.Outcome State Fault Refusal :=
  complete (.done (s.setStatus s.status.dropCleared))

end Sys2Proof.Machine
end

