-- ==== Sys2Proof/Machine/BlockTable.lean ====
section
/-! DEFINITION. The block table BLOCKTAB (41_rs_encoder.md R137), one list for each level, version 1 first, and the
counts derived from it (R138). -/

namespace Sys2Proof.Machine

/-- One entry of BLOCKTAB (R137): `nb1` blocks of `k1` data codewords, then `nb2` blocks of `k2`, each with `ecb` EC
codewords. -/
structure BlockRow where
  ecb : Nat
  nb1 : Nat
  k1 : Nat
  nb2 : Nat
  k2 : Nat
deriving DecidableEq, Repr

/-- The rows of level L, versions 1 to 40. -/
def blockRowsL : List BlockRow :=
  [⟨7, 1, 19, 0, 0⟩, ⟨10, 1, 34, 0, 0⟩, ⟨15, 1, 55, 0, 0⟩, ⟨20, 1, 80, 0, 0⟩, ⟨26, 1, 108, 0, 0⟩] ++
  [⟨18, 2, 68, 0, 0⟩, ⟨20, 2, 78, 0, 0⟩, ⟨24, 2, 97, 0, 0⟩, ⟨30, 2, 116, 0, 0⟩, ⟨18, 2, 68, 2, 69⟩] ++
  [⟨20, 4, 81, 0, 0⟩, ⟨24, 2, 92, 2, 93⟩, ⟨26, 4, 107, 0, 0⟩, ⟨30, 3, 115, 1, 116⟩, ⟨22, 5, 87, 1, 88⟩] ++
  [⟨24, 5, 98, 1, 99⟩, ⟨28, 1, 107, 5, 108⟩, ⟨30, 5, 120, 1, 121⟩, ⟨28, 3, 113, 4, 114⟩, ⟨28, 3, 107, 5, 108⟩] ++
  [⟨28, 4, 116, 4, 117⟩, ⟨28, 2, 111, 7, 112⟩, ⟨30, 4, 121, 5, 122⟩, ⟨30, 6, 117, 4, 118⟩, ⟨26, 8, 106, 4, 107⟩] ++
  [⟨28, 10, 114, 2, 115⟩, ⟨30, 8, 122, 4, 123⟩, ⟨30, 3, 117, 10, 118⟩, ⟨30, 7, 116, 7, 117⟩, ⟨30, 5, 115, 10, 116⟩] ++
  [⟨30, 13, 115, 3, 116⟩, ⟨30, 17, 115, 0, 0⟩, ⟨30, 17, 115, 1, 116⟩, ⟨30, 13, 115, 6, 116⟩, ⟨30, 12, 121, 7, 122⟩] ++
  [⟨30, 6, 121, 14, 122⟩, ⟨30, 17, 122, 4, 123⟩, ⟨30, 4, 122, 18, 123⟩, ⟨30, 20, 117, 4, 118⟩, ⟨30, 19, 118, 6, 119⟩]

/-- The rows of level M, versions 1 to 40. -/
def blockRowsM : List BlockRow :=
  [⟨10, 1, 16, 0, 0⟩, ⟨16, 1, 28, 0, 0⟩, ⟨26, 1, 44, 0, 0⟩, ⟨18, 2, 32, 0, 0⟩, ⟨24, 2, 43, 0, 0⟩] ++
  [⟨16, 4, 27, 0, 0⟩, ⟨18, 4, 31, 0, 0⟩, ⟨22, 2, 38, 2, 39⟩, ⟨22, 3, 36, 2, 37⟩, ⟨26, 4, 43, 1, 44⟩] ++
  [⟨30, 1, 50, 4, 51⟩, ⟨22, 6, 36, 2, 37⟩, ⟨22, 8, 37, 1, 38⟩, ⟨24, 4, 40, 5, 41⟩, ⟨24, 5, 41, 5, 42⟩] ++
  [⟨28, 7, 45, 3, 46⟩, ⟨28, 10, 46, 1, 47⟩, ⟨26, 9, 43, 4, 44⟩, ⟨26, 3, 44, 11, 45⟩, ⟨26, 3, 41, 13, 42⟩] ++
  [⟨26, 17, 42, 0, 0⟩, ⟨28, 17, 46, 0, 0⟩, ⟨28, 4, 47, 14, 48⟩, ⟨28, 6, 45, 14, 46⟩, ⟨28, 8, 47, 13, 48⟩] ++
  [⟨28, 19, 46, 4, 47⟩, ⟨28, 22, 45, 3, 46⟩, ⟨28, 3, 45, 23, 46⟩, ⟨28, 21, 45, 7, 46⟩, ⟨28, 19, 47, 10, 48⟩] ++
  [⟨28, 2, 46, 29, 47⟩, ⟨28, 10, 46, 23, 47⟩, ⟨28, 14, 46, 21, 47⟩, ⟨28, 14, 46, 23, 47⟩, ⟨28, 12, 47, 26, 48⟩] ++
  [⟨28, 6, 47, 34, 48⟩, ⟨28, 29, 46, 14, 47⟩, ⟨28, 13, 46, 32, 47⟩, ⟨28, 40, 47, 7, 48⟩, ⟨28, 18, 47, 31, 48⟩]

/-- The rows of level Q, versions 1 to 40. -/
def blockRowsQ : List BlockRow :=
  [⟨13, 1, 13, 0, 0⟩, ⟨22, 1, 22, 0, 0⟩, ⟨18, 2, 17, 0, 0⟩, ⟨26, 2, 24, 0, 0⟩, ⟨18, 2, 15, 2, 16⟩] ++
  [⟨24, 4, 19, 0, 0⟩, ⟨18, 2, 14, 4, 15⟩, ⟨22, 4, 18, 2, 19⟩, ⟨20, 4, 16, 4, 17⟩, ⟨24, 6, 19, 2, 20⟩] ++
  [⟨28, 4, 22, 4, 23⟩, ⟨26, 4, 20, 6, 21⟩, ⟨24, 8, 20, 4, 21⟩, ⟨20, 11, 16, 5, 17⟩, ⟨30, 5, 24, 7, 25⟩] ++
  [⟨24, 15, 19, 2, 20⟩, ⟨28, 1, 22, 15, 23⟩, ⟨28, 17, 22, 1, 23⟩, ⟨26, 17, 21, 4, 22⟩, ⟨30, 15, 24, 5, 25⟩] ++
  [⟨28, 17, 22, 6, 23⟩, ⟨30, 7, 24, 16, 25⟩, ⟨30, 11, 24, 14, 25⟩, ⟨30, 11, 24, 16, 25⟩, ⟨30, 7, 24, 22, 25⟩] ++
  [⟨28, 28, 22, 6, 23⟩, ⟨30, 8, 23, 26, 24⟩, ⟨30, 4, 24, 31, 25⟩, ⟨30, 1, 23, 37, 24⟩, ⟨30, 15, 24, 25, 25⟩] ++
  [⟨30, 42, 24, 1, 25⟩, ⟨30, 10, 24, 35, 25⟩, ⟨30, 29, 24, 19, 25⟩, ⟨30, 44, 24, 7, 25⟩, ⟨30, 39, 24, 14, 25⟩] ++
  [⟨30, 46, 24, 10, 25⟩, ⟨30, 49, 24, 10, 25⟩, ⟨30, 48, 24, 14, 25⟩, ⟨30, 43, 24, 22, 25⟩, ⟨30, 34, 24, 34, 25⟩]

/-- The rows of level H, versions 1 to 40. -/
def blockRowsH : List BlockRow :=
  [⟨17, 1, 9, 0, 0⟩, ⟨28, 1, 16, 0, 0⟩, ⟨22, 2, 13, 0, 0⟩, ⟨16, 4, 9, 0, 0⟩, ⟨22, 2, 11, 2, 12⟩] ++
  [⟨28, 4, 15, 0, 0⟩, ⟨26, 4, 13, 1, 14⟩, ⟨26, 4, 14, 2, 15⟩, ⟨24, 4, 12, 4, 13⟩, ⟨28, 6, 15, 2, 16⟩] ++
  [⟨24, 3, 12, 8, 13⟩, ⟨28, 7, 14, 4, 15⟩, ⟨22, 12, 11, 4, 12⟩, ⟨24, 11, 12, 5, 13⟩, ⟨24, 11, 12, 7, 13⟩] ++
  [⟨30, 3, 15, 13, 16⟩, ⟨28, 2, 14, 17, 15⟩, ⟨28, 2, 14, 19, 15⟩, ⟨26, 9, 13, 16, 14⟩, ⟨28, 15, 15, 10, 16⟩] ++
  [⟨30, 19, 16, 6, 17⟩, ⟨24, 34, 13, 0, 0⟩, ⟨30, 16, 15, 14, 16⟩, ⟨30, 30, 16, 2, 17⟩, ⟨30, 22, 15, 13, 16⟩] ++
  [⟨30, 33, 16, 4, 17⟩, ⟨30, 12, 15, 28, 16⟩, ⟨30, 11, 15, 31, 16⟩, ⟨30, 19, 15, 26, 16⟩, ⟨30, 23, 15, 25, 16⟩] ++
  [⟨30, 23, 15, 28, 16⟩, ⟨30, 19, 15, 35, 16⟩, ⟨30, 11, 15, 46, 16⟩, ⟨30, 59, 16, 1, 17⟩, ⟨30, 22, 15, 41, 16⟩] ++
  [⟨30, 2, 15, 64, 16⟩, ⟨30, 24, 15, 46, 16⟩, ⟨30, 42, 15, 32, 16⟩, ⟨30, 10, 15, 67, 16⟩, ⟨30, 20, 15, 61, 16⟩]

/-- The rows of a level. -/
def blockRows : EcLevel → List BlockRow
  | .L => blockRowsL
  | .M => blockRowsM
  | .Q => blockRowsQ
  | .H => blockRowsH

/-- BLOCKTAB(V, E) (R137). Only versions 1 to 40 are ever looked up (40_control.md R116, 10_state.md R25 to R27). -/
def blockTab (v : Nat) (e : EcLevel) : BlockRow := (blockRows e).getD (v - 1) ⟨0, 0, 0, 0, 0⟩

/-- D(V, E) = NB1 K1 + NB2 K2 (R138). -/
def BlockRow.dataCount (b : BlockRow) : Nat := b.nb1 * b.k1 + b.nb2 * b.k2

/-- (NB1 + NB2) ECB + D (R138). -/
def BlockRow.totalCount (b : BlockRow) : Nat := (b.nb1 + b.nb2) * b.ecb + b.dataCount

/-- D(V, E) (R138). -/
def dataCodewords (v : Nat) (e : EcLevel) : Nat := (blockTab v e).dataCount

/-- T(V), the same for every level (R138): read from the level-L row. -/
def totalCodewords (v : Nat) : Nat := (blockTab v .L).totalCount

end Sys2Proof.Machine
end

