-- ==== Sys2Proof/Machine/Encoder.lean ====
section
/-! DEFINITION. The Reed-Solomon encoder and RSENC (41_rs_encoder.md R134 to R141). -/

namespace Sys2Proof.Machine

/-- One factor of GEN(n) (R134): G(x) times (x + root), coefficients from the highest degree down. -/
def mulLinear (root : Byte) (g : List Byte) : List Byte :=
  List.zipWith gfAdd (g ++ [0#8]) (0#8 :: g.map (fun a => gfMul a root))

/-- GEN(n) (R134): the coefficients of the product of (x + alpha^i) for i from 0 to n - 1, G[0] first. -/
def genPoly : Nat → List Byte
  | 0 => [1#8]
  | n + 1 => mulLinear (gfExp n) (genPoly n)

/-- One codeword through the shift register of R136, `g` being G[1] to G[n]. -/
def rsStep (g r : List Byte) (d : Byte) : List Byte :=
  let f := gfAdd d (r.headD 0#8)
  List.zipWith (fun next coeff => gfAdd next (gfMul coeff f)) (r.tail ++ [0#8]) g

/-- RS_EC(d, n) (R136): the n EC codewords of a block. -/
def rsEc (d : List Byte) (n : Nat) : List Byte :=
  d.foldl (rsStep (genPoly n).tail) (List.replicate n 0#8)

/-- K(0), K(1), ... (R139). -/
def BlockRow.blockSizes (b : BlockRow) : List Nat := List.replicate b.nb1 b.k1 ++ List.replicate b.nb2 b.k2

/-- Split (R139): the data codewords cut, in order, into blocks of the given sizes. -/
def splitBlocks : List Nat → List Byte → List (List Byte)
  | [], _ => []
  | k :: ks, d => d.take k :: splitBlocks ks (d.drop k)

/-- Codeword `i` of each block in block order, for `i` below `n`; a block with no codeword `i` adds nothing (R140). -/
def interleave (n : Nat) (blocks : List (List Byte)) : List Byte :=
  (List.range n).flatMap (fun i => blocks.filterMap (fun b => b[i]?))

/-- KMAXB (R140). -/
def BlockRow.maxBlock (b : BlockRow) : Nat := if 0 < b.nb2 then b.k2 else b.k1

/-- The interleaved codeword sequence of a symbol's data codewords (R139, R136, R140). -/
def codewordSeq (b : BlockRow) (data : List Byte) : List Byte :=
  let blocks := splitBlocks b.blockSizes data
  interleave b.maxBlock blocks ++ interleave b.ecb (blocks.map (fun d => rsEc d b.ecb))

/-- Perform(RSENC) (R141). -/
def performRsenc (s : State) : CmdResult :=
  withVersion s fun v e =>
    withRead (Memory.readSpan s.din 0 (dataCodewords v e)) fun data =>
      .done (s.setCwb (Memory.overlay (Memory.ofList 0 (codewordSeq (blockTab v e) data)) s.cwb))

/-- RSENC (R141). -/
def execRsenc (s : State) : Host.Outcome State Fault Refusal := complete (performRsenc s)

end Sys2Proof.Machine
end

