-- ==== Sys2Proof/Machine/Placer.lean ====
section
/-! DEFINITION. The data placer and PLACE (43_data_placer.md R190 to R194). -/

namespace Sys2Proof.Machine

/-- One column pair of the zigzag (R190): the right column before the left in each row, rows upward or downward. -/
def zigzagPair (size right : Nat) : List (Nat × Nat) :=
  (List.range size).flatMap fun k =>
    let r := if (right + 1) &&& 2 = 0 then size - 1 - k else k
    [(r, right), (r, right - 1)]

/-- The loop over the column pairs (R190), column 6 skipped. The first argument bounds the number of pairs left. -/
def zigzagFrom (size : Nat) : Nat → Nat → List (Nat × Nat)
  | 0, _ => []
  | fuel + 1, right =>
    if right < 1 then []
    else
      let right' := if right = 6 then 5 else right
      zigzagPair size right' ++ zigzagFrom size fuel (right' - 2)

/-- ZIGZAG(V) (R190) for the side `size`. -/
def zigzag (size : Nat) : List (Nat × Nat) := zigzagFrom size size (size - 1)

/-- BIT(n) (R191, 20_memory.md R61): codeword bits, most significant first. -/
def streamBit (cw : List Byte) (n : Nat) : Bool := (cw.getD (n / 8) 0#8).getLsbD (7 - n % 8)

/-- The number of cells with FUN = 0 in the square (R194). -/
def freeCells (f : Grid) : Nat := (f.map (fun row => row.countP (fun b => !b))).sum

/-- The writes of PLACE along the zigzag (R192): each data cell takes the next bit, or light when the bits have run
out (R193). `n` is the number of bits placed so far, `total` is 8 T(V). -/
def placeWrites (f : Grid) (cw : List Byte) (total : Nat) : List (Nat × Nat) → Nat → List (Nat × Bool)
  | [], _ => []
  | p :: ps, n =>
    if f.cell p.1 p.2 then placeWrites f cw total ps n
    else if n < total then (cellKey p.1 p.2, streamBit cw n) :: placeWrites f cw total ps (n + 1)
    else (cellKey p.1 p.2, false) :: placeWrites f cw total ps n

/-- The cells PLACE writes, for the function map and the codewords it reads (R192). -/
def placedCells (size total : Nat) (f : Grid) (cw : List Byte) : Memory Bool :=
  Memory.writeAll [] (placeWrites f cw (8 * total) (zigzag size) 0)

/-- Perform(PLACE) (R192): CheckVersion, CheckCapacity (R194), then the placement. All of CWB[0 .. T-1] is read
(log 7). -/
def performPlace (s : State) : CmdResult :=
  withVersion s fun v _ =>
    withRead (readSquare s.funArr (symbolSize v)) fun f =>
      if 8 * totalCodewords v > freeCells f then raiseError .layoutOverflow s
      else withRead (Memory.readSpan s.cwb 0 (totalCodewords v)) fun cw =>
        .done (s.setMod (Memory.overlay (placedCells (symbolSize v) (totalCodewords v) f cw) s.modArr))

/-- PLACE (R192). -/
def execPlace (s : State) : Host.Outcome State Fault Refusal := complete (performPlace s)

end Sys2Proof.Machine
end

