-- ==== Sys2Proof/Machine/Layout.lean ====
section
/-! DEFINITION. The matrix builder: the patterns of a version and LAYOUT (42_matrix_builder.md R161 to R171). Cells
are (row, column), row 0 at the top (00_scope.md R15). -/

namespace Sys2Proof.Machine

/-- |a - b| (00_scope.md R13). -/
def absDiff (a b : Nat) : Nat := (a - b) + (b - a)

/-- The Chebyshev distance d(r, c; r0, c0). -/
def cheb (r c r0 c0 : Nat) : Nat := max (absDiff r r0) (absDiff c c0)

/-- The finder centres (R161). -/
def finderCentres (size : Nat) : List (Nat × Nat) := [(3, 3), (3, size - 4), (size - 4, 3)]

/-- The value of a finder cell, none outside the finder patterns (R161): light in the ring at distance 2. -/
def finderValue (size r c : Nat) : Option Bool :=
  ((finderCentres size).find? (fun p => decide (cheb r c p.1 p.2 ≤ 3))).map
    (fun p => decide (cheb r c p.1 p.2 ≠ 2))

/-- A separator cell: at distance exactly 4 from a finder centre (R162). -/
def isSeparator (size r c : Nat) : Bool := (finderCentres size).any (fun p => cheb r c p.1 p.2 == 4)

/-- The value of a timing cell, none elsewhere (R163): dark where the running coordinate is even. -/
def timingValue (size r c : Nat) : Option Bool :=
  if r = 6 ∧ 8 ≤ c ∧ c ≤ size - 9 then some (c % 2 == 0)
  else if c = 6 ∧ 8 ≤ r ∧ r ≤ size - 9 then some (r % 2 == 0)
  else none

/-- The downward loop of R164: `n` further positions below `p`, each `step` less than the one after it. -/
def alignDown (step p : Nat) (acc : List Nat) : Nat → List Nat
  | 0 => acc
  | n + 1 => alignDown step (p - step) ((p - step) :: acc) n

/-- ALIGNPOS(V) (R164). -/
def alignPos (v : Nat) : List Nat :=
  if v = 1 then []
  else
    let n := v / 7 + 2
    let step := if v = 32 then 26 else (4 * v + 2 * n + 1) / (2 * n - 2) * 2
    let last := symbolSize v - 7
    6 :: alignDown step last [last] (n - 2)

/-- The alignment centres (R165): every pair of positions but the three over the finder patterns. -/
def alignCentres (v : Nat) : List (Nat × Nat) :=
  let last := symbolSize v - 7
  ((alignPos v).flatMap (fun a => (alignPos v).map (fun b => (a, b)))).filter
    (fun p => !(p == (6, 6) || p == (6, last) || p == (last, 6)))

/-- The value of an alignment cell, none outside the alignment patterns (R165): light in the ring at distance 1. -/
def alignValue (v r c : Nat) : Option Bool :=
  ((alignCentres v).find? (fun p => decide (cheb r c p.1 p.2 ≤ 2))).map
    (fun p => decide (cheb r c p.1 p.2 ≠ 1))

/-- FMTCELL_A(i) (R166). -/
def fmtCellA (i : Nat) : Nat × Nat :=
  if i ≤ 5 then (i, 8)
  else if i = 6 then (7, 8)
  else if i = 7 then (8, 8)
  else if i = 8 then (8, 7)
  else (8, 14 - i)

/-- FMTCELL_B(i) (R166). -/
def fmtCellB (size i : Nat) : Nat × Nat := if i ≤ 7 then (8, size - 1 - i) else (size - 15 + i, 8)

/-- VERCELL_A(i) (R168). -/
def verCellA (size i : Nat) : Nat × Nat := (i / 3, size - 11 + i % 3)

/-- VERCELL_B(i) (R168). -/
def verCellB (size i : Nat) : Nat × Nat := (size - 11 + i % 3, i / 3)

/-- A format-information cell (R166). -/
def isFmtCell (size r c : Nat) : Bool :=
  (List.range 15).any (fun i => (r, c) == fmtCellA i || (r, c) == fmtCellB size i)

/-- A version-information cell (R168); there are none below version 7. -/
def isVerCell (v r c : Nat) : Bool :=
  decide (7 ≤ v) &&
    (List.range 18).any (fun i => (r, c) == verCellA (symbolSize v) i || (r, c) == verCellB (symbolSize v) i)

/-- LayoutCell(V, r, c) (R169): the pair (FUN, MOD) for a cell of the symbol. -/
def layoutCell (v r c : Nat) : Bool × Bool :=
  let size := symbolSize v
  match finderValue size r c with
  | some b => (true, b)
  | none =>
    if isSeparator size r c then (true, false)
    else match alignValue v r c with
    | some b => (true, b)
    | none => match timingValue size r c with
      | some b => (true, b)
      | none =>
        if isFmtCell size r c then (true, false)
        else if (r, c) = (size - 8, 8) then (true, true)
        else if isVerCell v r c then (true, false)
        else (false, false)

/-- The pair LAYOUT leaves in cell number `k` (R170): LayoutCell inside the symbol, (0, 0) outside it. -/
def layoutKey (v k : Nat) : Bool × Bool :=
  if k / 177 < symbolSize v ∧ k % 177 < symbolSize v then layoutCell v (k / 177) (k % 177) else (false, false)

/-- What LAYOUT leaves in MOD (R170): every cell of the array is written. -/
def layoutMod (v : Nat) : Memory Bool := Memory.tabulate (fun k => (layoutKey v k).2) 0 Config.gridCells

/-- What LAYOUT leaves in FUN (R170): every cell of the array is written. -/
def layoutFun (v : Nat) : Memory Bool := Memory.tabulate (fun k => (layoutKey v k).1) 0 Config.gridCells

/-- Perform(LAYOUT) (R170). -/
def performLayout (s : State) : CmdResult :=
  withVersion s fun v _ => .done ((s.setMod (layoutMod v)).setFun (layoutFun v))

/-- LAYOUT (R170). -/
def execLayout (s : State) : Host.Outcome State Fault Refusal := complete (performLayout s)

/-- DATACELLS(V) by the closed form of R171: (16 V + 128) V + 64 - A(V) - B(V). -/
def dataCells (v : Nat) : Nat :=
  let n := v / 7 + 2
  let a := if v = 1 then 0 else (25 * n - 10) * n - 55
  let b := if 7 ≤ v then 36 else 0
  (16 * v + 128) * v + 64 - a - b

/-- REM(V) = DATACELLS(V) - 8 T(V) (R171). -/
def remainderCells (v : Nat) : Nat := dataCells v - 8 * totalCodewords v

end Sys2Proof.Machine
end

