-- ==== Sys2Proof/Machine/Penalty.lean ====
section
/-! DEFINITION. The masks and the penalty of a grid (44_mask_selector.md R210, R211, R213 to R218, R222). -/

namespace Sys2Proof.Machine

/-- MASKFN(m, i, j), i the row and j the column (R210). -/
def maskFn (m : BitVec 3) (i j : Nat) : Bool :=
  match m.toNat with
  | 0 => (i + j) % 2 == 0
  | 1 => i % 2 == 0
  | 2 => j % 3 == 0
  | 3 => (i + j) % 3 == 0
  | 4 => (i / 2 + j / 3) % 2 == 0
  | 5 => (i * j) % 2 + (i * j) % 3 == 0
  | 6 => ((i * j) % 2 + (i * j) % 3) % 2 == 0
  | _ => ((i + j) % 2 + (i * j) % 3) % 2 == 0

/-- One row of Masked (R211): cells of `g` from column `c` on, with the cells of FUN beside them. -/
def maskRow (m : BitVec 3) (r : Nat) : Nat → List Bool → List Bool → List Bool
  | c, b :: bs, f :: fs => (b ^^ (!f && maskFn m r c)) :: maskRow m r (c + 1) bs fs
  | _, _, _ => []

/-- The rows of Masked from row `r` on (R211). -/
def maskRows (m : BitVec 3) : Nat → Grid → Grid → Grid
  | r, g :: gs, f :: fs => maskRow m r 0 g f :: maskRows m (r + 1) gs fs
  | _, _, _ => []

/-- Masked(G, m) under the function map `f` (R211). -/
def masked (f g : Grid) (m : BitVec 3) : Grid := maskRows m 0 g f

/-- The columns of a grid of `size` columns, left to right (R213). -/
def columns (size : Nat) (g : Grid) : List (List Bool) :=
  (List.range size).map (fun c => g.map (fun row => row.getD c false))

/-- The lines of a grid: its rows and its columns (R213). -/
def gridLines (size : Nat) (g : Grid) : List (List Bool) := g ++ columns size g

/-- The lengths of the maximal runs of a line (R214); `cur` is the value of the run being read and `len` its length so
far. -/
def runLengthsFrom (cur : Bool) (len : Nat) : List Bool → List Nat
  | [] => [len]
  | b :: bs => if b = cur then runLengthsFrom cur (len + 1) bs else len :: runLengthsFrom b 1 bs

/-- The lengths of the maximal runs of a line (R214). -/
def runLengths : List Bool → List Nat
  | [] => []
  | b :: bs => runLengthsFrom b 1 bs

/-- What a maximal run of length `k` adds (R214). -/
def runScore (k : Nat) : Nat := if 5 ≤ k then 3 + (k - 5) else 0

/-- N1(G) (R214). -/
def penaltyRuns (size : Nat) (g : Grid) : Nat :=
  ((gridLines size g).map (fun l => ((runLengths l).map runScore).sum)).sum

/-- The 2 x 2 windows of equal cells in two neighbouring rows (R215). -/
def equalWindows : List Bool → List Bool → Nat
  | a :: b :: as, c :: d :: cs =>
    (if a = b ∧ a = c ∧ a = d then 1 else 0) + equalWindows (b :: as) (d :: cs)
  | _, _ => 0

/-- The 2 x 2 windows of equal cells of a grid (R215). -/
def equalBlocks : Grid → Nat
  | a :: b :: rows => equalWindows a b + equalBlocks (b :: rows)
  | _ => 0

/-- N2(G) (R215). -/
def penaltyBlocks (g : Grid) : Nat := 3 * equalBlocks g

/-- Q1: the 1:1:3:1:1 pattern followed by four light cells (R216). -/
def finderLike1 : List Bool := [true, false, true, true, true, false, true, false, false, false, false]

/-- Q2: four light cells followed by the pattern (R216). -/
def finderLike2 : List Bool := [false, false, false, false, true, false, true, true, true, false, true]

/-- The places of a line at which `q` stands wholly within it (R216). -/
def occurrences (q : List Bool) : List Bool → Nat
  | [] => 0
  | b :: bs => (if q.isPrefixOf (b :: bs) then 1 else 0) + occurrences q bs

/-- N3(G) (R216). -/
def penaltyFinder (size : Nat) (g : Grid) : Nat :=
  40 * ((gridLines size g).map (occurrences finderLike1)).sum +
    40 * ((gridLines size g).map (occurrences finderLike2)).sum

/-- The dark cells of a grid (R217). -/
def darkCells (g : Grid) : Nat := (g.map (fun row => row.countP id)).sum

/-- k of R217 for `dark` dark cells of `total`. -/
def balanceSteps (dark total : Nat) : Nat :=
  ((20 * dark - 10 * total) + (10 * total - 20 * dark) + total - 1) / total - 1

/-- N4(G) (R217). -/
def penaltyBalance (size : Nat) (g : Grid) : Nat := 10 * balanceSteps (darkCells g) (size * size)

/-- Penalty(G) (R218). -/
def penalty (size : Nat) (g : Grid) : Nat :=
  penaltyRuns size g + penaltyBlocks g + penaltyFinder size g + penaltyBalance size g

/-- BestMask(P) (R222): the least index at which P has its minimum. -/
def bestMask (p : List Nat) : Nat := p.idxOf (p.foldl min (p.headD 0))

end Sys2Proof.Machine
end

