-- ==== Sys2Proof/Machine/Selector.lean ====
section
/-! DEFINITION. The format and version words (30_encoding.md R94, R95) and the commands of the mask selector
(44_mask_selector.md R212, R218 to R221). -/

namespace Sys2Proof.Machine

/-- `n` steps of a BCH check: `rem <- (rem << 1) xor (rem[top] ? gen : 0)` (R94, R95). -/
def bchSteps (gen top : Nat) : Nat → Nat → Nat
  | 0, rem => rem
  | n + 1, rem => bchSteps gen top n ((2 * rem) ^^^ (if rem.testBit top then gen else 0))

/-- FMTWORD(E, m) (R94). -/
def fmtWord (e : EcLevel) (m : BitVec 3) : BitVec 15 :=
  let d : BitVec 5 := e.code ++ m
  (d ++ BitVec.ofNat 10 (bchSteps 0x537 9 10 d.toNat)) ^^^ 0x5412#15

/-- VERWORD(V) (R95). -/
def verWord (v : Nat) : BitVec 18 := BitVec.ofNat 6 v ++ BitVec.ofNat 12 (bchSteps 0x1F25 11 12 v)

/-- The writes of one bit of the format word into both copies (R219). -/
def fmtWrites (size : Nat) (w : BitVec 15) : List (Nat × Bool) :=
  (List.range 15).flatMap fun i =>
    [(cellKey (fmtCellA i).1 (fmtCellA i).2, w.getLsbD i),
     (cellKey (fmtCellB size i).1 (fmtCellB size i).2, w.getLsbD i)]

/-- WriteFormat(E, m) on MOD (R219). -/
def writeFormat (v : Nat) (e : EcLevel) (m : BitVec 3) (arr : Memory Bool) : Memory Bool :=
  Memory.writeAll arr (fmtWrites (symbolSize v) (fmtWord e m))

/-- The writes of the version word into both blocks (R220). -/
def verWrites (size : Nat) (w : BitVec 18) : List (Nat × Bool) :=
  (List.range 18).flatMap fun i =>
    [(cellKey (verCellA size i).1 (verCellA size i).2, w.getLsbD i),
     (cellKey (verCellB size i).1 (verCellB size i).2, w.getLsbD i)]

/-- WriteVersion on MOD (R220): nothing below version 7. -/
def writeVersion (v : Nat) (arr : Memory Bool) : Memory Bool :=
  if 7 ≤ v then Memory.writeAll arr (verWrites (symbolSize v) (verWord v)) else arr

/-- Perform(APPLYMASK) (R212). -/
def performApplymask (m : BitVec 3) (s : State) : CmdResult :=
  withVersion s fun v _ =>
    withRead (readSquare s.modArr (symbolSize v)) fun g =>
      withRead (readSquare s.funArr (symbolSize v)) fun f =>
        .done (s.setMod (writeSquare s.modArr (masked f g m)))

/-- APPLYMASK (R212). -/
def execApplymask (m : BitVec 3) (s : State) : Host.Outcome State Fault Refusal :=
  complete (performApplymask m s)

/-- What SCORE leaves for the grid it reads (R218): PART1 to PART4 and their sum. -/
def scored (s : State) (size : Nat) (g : Grid) : State :=
  let n1 := BitVec.ofNat 32 (penaltyRuns size g)
  let n2 := BitVec.ofNat 32 (penaltyBlocks g)
  let n3 := BitVec.ofNat 32 (penaltyFinder size g)
  let n4 := BitVec.ofNat 32 (penaltyBalance size g)
  s.setParts n1 n2 n3 n4 (n1 + n2 + n3 + n4)

/-- Perform(SCORE) (R218). -/
def performScore (s : State) : CmdResult :=
  withVersion s fun v _ =>
    withRead (readSquare s.modArr (symbolSize v)) fun g => .done (scored s (symbolSize v) g)

/-- SCORE (R218). -/
def execScore (s : State) : Host.Outcome State Fault Refusal := complete (performScore s)

/-- Perform(WRFMT) (R219): the level of CFG and the mask of the command. -/
def performWrfmt (m : BitVec 3) (s : State) : CmdResult :=
  withVersion s fun v e => .done (s.setMod (writeFormat v e m s.modArr))

/-- WRFMT (R219). -/
def execWrfmt (m : BitVec 3) (s : State) : Host.Outcome State Fault Refusal := complete (performWrfmt m s)

/-- Perform(WRVER) (R220). -/
def performWrver (s : State) : CmdResult :=
  withVersion s fun v _ => .done (s.setMod (writeVersion v s.modArr))

/-- WRVER (R220). -/
def execWrver (s : State) : Host.Outcome State Fault Refusal := complete (performWrver s)

/-- P[0] to P[7] of R221: the penalties of the eight candidates. -/
def candidatePenalties (size : Nat) (f g : Grid) : List Nat :=
  (List.range 8).map (fun m => penalty size (masked f g (BitVec.ofNat 3 m)))

/-- PEN0 to PEN7 from P[0] to P[7] (R221). -/
def penRegs (p : List Nat) : Vector Word 8 :=
  #v[BitVec.ofNat 32 (p.getD 0 0), BitVec.ofNat 32 (p.getD 1 0), BitVec.ofNat 32 (p.getD 2 0),
     BitVec.ofNat 32 (p.getD 3 0), BitVec.ofNat 32 (p.getD 4 0), BitVec.ofNat 32 (p.getD 5 0),
     BitVec.ofNat 32 (p.getD 6 0), BitVec.ofNat 32 (p.getD 7 0)]

/-- The mask MASKSEL chooses for the function map and the grid it reads (R221, R222). -/
def chosenMask (size : Nat) (f g : Grid) : BitVec 3 := BitVec.ofNat 3 (bestMask (candidatePenalties size f g))

/-- MOD after MASKSEL (R221): the chosen candidate, then the format word of the level and the chosen mask, then the
version word. -/
def selectedMod (v : Nat) (e : EcLevel) (f g : Grid) (arr : Memory Bool) : Memory Bool :=
  let best := chosenMask (symbolSize v) f g
  writeVersion v (writeFormat v e best (writeSquare arr (masked f g best)))

/-- Perform(MASKSEL) (R221). -/
def performMasksel (s : State) : CmdResult :=
  withVersion s fun v e =>
    withRead (readSquare s.modArr (symbolSize v)) fun g =>
      withRead (readSquare s.funArr (symbolSize v)) fun f =>
        .done (((s.setPen (penRegs (candidatePenalties (symbolSize v) f g))).setMod
          (selectedMod v e f g s.modArr)).setMaskid (chosenMask (symbolSize v) f g))

/-- MASKSEL (R221). -/
def execMasksel (s : State) : Host.Outcome State Fault Refusal := complete (performMasksel s)

end Sys2Proof.Machine
end

