-- ==== Sys2Proof/Machine/Pipeline.lean ====
section
/-! DEFINITION. GENERATE: the whole pipeline in one step (40_control.md R115). -/

namespace Sys2Proof.Machine

/-- Perform(GENERATE) (R115): a stage that raises an error or faults ends the command; the effects of the stages
before it stand (60_exceptions.md R257). -/
def performGenerate (s : State) : CmdResult :=
  withVersion s fun _ _ =>
    (((performRsenc s).andThen performLayout).andThen performPlace).andThen performMasksel

/-- GENERATE (R115). -/
def execGenerate (s : State) : Host.Outcome State Fault Refusal := complete (performGenerate s)

end Sys2Proof.Machine
end

