-- ==== Sys2Proof/Machine/Dispatch.lean ====
section
/-! DEFINITION. The engine's step for a decoded command: one arm for each constructor of Instr (40_control.md R111). -/

namespace Sys2Proof.Machine

def exec (i : Instr) (s : State) : Host.Outcome State Fault Refusal :=
  match i with
  | .nop => Sys2Proof.Machine.execNop s
  | .setcfg ver ecl => Sys2Proof.Machine.execSetcfg ver ecl s
  | .rsenc => Sys2Proof.Machine.execRsenc s
  | .layout => Sys2Proof.Machine.execLayout s
  | .place => Sys2Proof.Machine.execPlace s
  | .applymask msk => Sys2Proof.Machine.execApplymask msk s
  | .score => Sys2Proof.Machine.execScore s
  | .wrfmt msk => Sys2Proof.Machine.execWrfmt msk s
  | .wrver => Sys2Proof.Machine.execWrver s
  | .masksel => Sys2Proof.Machine.execMasksel s
  | .generate => Sys2Proof.Machine.execGenerate s
  | .clrstat => Sys2Proof.Machine.execClrstat s

end Sys2Proof.Machine
end

