-- ==== Sys2Proof/Machine/Info.lean ====
section
/-! DEFINITION. The registers computed from CFG: INFO0, INFO1, INFO2 (10_state.md R25 to R27). -/

namespace Sys2Proof.Machine

/-- INFO0 (R25): T in bits 27:16, D in bits 11:0; 0 where the version is not supported. -/
def info0 (c : Cfg) : Word :=
  if c.supported then
    0#4 ++ BitVec.ofNat 12 (totalCodewords c.ver.toNat) ++ 0#4 ++ BitVec.ofNat 12 (dataCodewords c.ver.toNat c.ecl)
  else 0#32

/-- INFO1 (R26): ECB in bits 20:16, REM in bits 10:8, SIZE in bits 7:0; 0 where the version is not supported. -/
def info1 (c : Cfg) : Word :=
  if c.supported then
    0#11 ++ BitVec.ofNat 5 (blockTab c.ver.toNat c.ecl).ecb ++ 0#5 ++ BitVec.ofNat 3 (remainderCells c.ver.toNat) ++
      BitVec.ofNat 8 (symbolSize c.ver.toNat)
  else 0#32

/-- INFO2 (R27): K2 in bits 30:24, NB2 in 22:16, K1 in 14:8, NB1 in 6:0; 0 where the version is not supported. -/
def info2 (c : Cfg) : Word :=
  if c.supported then
    let b := blockTab c.ver.toNat c.ecl
    0#1 ++ BitVec.ofNat 7 b.k2 ++ 0#1 ++ BitVec.ofNat 7 b.nb2 ++ 0#1 ++ BitVec.ofNat 7 b.k1 ++
      0#1 ++ BitVec.ofNat 7 b.nb1
  else 0#32

end Sys2Proof.Machine
end

