-- ==== Sys2Proof/Machine/Port.lean ====
section
/-! DEFINITION. The host port (20_memory.md R50 to R60) and the reset input (70_reset_and_hazards.md R280 to R283). -/

namespace Sys2Proof.Machine

/-- What an address of the port names (R51): a register window word, an element of DIN or CWB, byte `k` of row `r` of
the MOD or FUN window, or a reserved address above the register window. -/
inductive Region where
  | register (addr : Nat)
  | din (i : Nat)
  | cwb (i : Nat)
  | modByte (r k : Nat)
  | funByte (r k : Nat)
  | reserved
deriving DecidableEq, Repr

/-- The address map (R51); the windows of MOD and FUN have 24 bytes a row (R58, R59). -/
def regionOf (addr : HostAddr) : Region :=
  let a := addr.toNat
  if a < 0x1000 then .register a
  else if a ≤ 0x1B8B then .din (a - 0x1000)
  else if a ≤ 0x1FFF then .reserved
  else if a ≤ 0x2E79 then .cwb (a - 0x2000)
  else if a ≤ 0x3FFF then .reserved
  else if a ≤ 0x5097 then .modByte ((a - 0x4000) / 24) ((a - 0x4000) % 24)
  else if a ≤ 0x5FFF then .reserved
  else if a ≤ 0x7097 then .funByte ((a - 0x6000) / 24) ((a - 0x6000) % 24)
  else .reserved

/-- A legal access (R52, R53): 4 bytes at a multiple of 4 in the register window, 1 byte above it. -/
def legalAccess (addr : HostAddr) (n : AccessWidth) : Bool :=
  if addr.toNat < 0x1000 then n == .four && addr.toNat % 4 == 0 else n == .one

/-- What the host may do while BUSY = 1 (R286): read STATUS, write CMD. -/
def HostAccess.allowedWhileBusy : HostAccess → Bool
  | .read addr n => addr == 0x0004#16 && n == .four
  | .write addr n _ => addr == 0x0000#16 && n == .four

/-- A register as the host reads it (R51, 10_state.md R21 to R29); CMD and reserved words read 0 (R60, R55). -/
def readRegister (s : State) (addr : Nat) : Word :=
  match addr with
  | 0x04 => s.status.word
  | 0x08 => s.cfg.word
  | 0x0C => 0#29 ++ s.maskid
  | 0x10 => info0 s.cfg
  | 0x14 => info1 s.cfg
  | 0x18 => info2 s.cfg
  | 0x20 => s.pen[0]
  | 0x24 => s.pen[1]
  | 0x28 => s.pen[2]
  | 0x2C => s.pen[3]
  | 0x30 => s.pen[4]
  | 0x34 => s.pen[5]
  | 0x38 => s.pen[6]
  | 0x3C => s.pen[7]
  | 0x40 => s.part1
  | 0x44 => s.part2
  | 0x48 => s.part3
  | 0x4C => s.part4
  | 0x50 => s.ptotal
  | _ => 0#32

/-- `n` cells of row `r` from column `c` on, as a window byte holds them (R58): a column above 176 reads 0, a cell
never written has no value (R63). -/
def windowBits (m : Memory Bool) (r c : Nat) : Nat → Option (List Bool)
  | 0 => some []
  | n + 1 =>
    match (if c ≤ 176 then Memory.read m (cellKey r c) else some false), windowBits m r (c + 1) n with
    | some b, some bs => some (b :: bs)
    | _, _ => none

/-- Bits, most significant first, as a number. -/
def bitsToNat (bs : List Bool) : Nat := bs.foldl (fun a b => 2 * a + b.toNat) 0

/-- Byte `k` of row `r` of a grid window (R58): column 8 k in bit 7. -/
def readWindow (m : Memory Bool) (r k : Nat) : Option Byte :=
  (windowBits m r (8 * k) 8).map (fun bs => BitVec.ofNat 8 (bitsToNat bs))

/-- The writes of byte `k` of row `r` of a grid window (R58): a column above 176 is ignored. -/
def windowWrites (r k : Nat) (v : Byte) : List (Nat × Bool) :=
  ((List.range 8).filter (fun b => decide (8 * k + b ≤ 176))).map
    (fun b => (cellKey r (8 * k + b), v.getLsbD (7 - b)))

/-- A write to byte `k` of row `r` of a grid window (R58). -/
def writeWindow (m : Memory Bool) (r k : Nat) (v : Byte) : Memory Bool := Memory.writeAll m (windowWrites r k v)

/-- The answer of a legal read, none where it needs an element never written (R56 to R59, R55, R63). -/
def portRead (s : State) (addr : HostAddr) : Option PortReply :=
  match regionOf addr with
  | .register a => some (.word (readRegister s a))
  | .din i => (Memory.read s.din i).map .byte
  | .cwb i => (Memory.read s.cwb i).map .byte
  | .modByte r k => (readWindow s.modArr r k).map .byte
  | .funByte r k => (readWindow s.funArr r k).map .byte
  | .reserved => some (.byte 0#8)

/-- The effect of a legal write of the low bytes of `v` (R56 to R59): of the registers only CMD takes it (R60, R110);
a reserved address ignores it (R55). -/
def portWrite (s : State) (addr : HostAddr) (v : BitVec 64) : State :=
  match regionOf addr with
  | .register a => if a = 0 then offerCommand (v.setWidth 32) s else s
  | .din i => s.setDin (Memory.write s.din i (v.setWidth 8))
  | .cwb i => s.setCwb (Memory.write s.cwb i (v.setWidth 8))
  | .modByte r k => s.setMod (writeWindow s.modArr r k (v.setWidth 8))
  | .funByte r k => s.setFun (writeWindow s.funArr r k (v.setWidth 8))
  | .reserved => s

/-- One access of the host: the busy hazard first (R286, log 6), then the refusal of an illegal access, which changes
no state (R54), then the access itself. -/
def hostAccess (a : HostAccess) (s : State) : Host.Outcome State Fault Refusal :=
  if s.status.busy && !a.allowedWhileBusy then .fault .busyHazard
  else
    match a with
    | .read addr n =>
      if legalAccess addr n then
        match portRead s addr with
        | some r => .next (s.setReply r)
        | none => .fault .unwrittenRead
      else .next (s.setReply (.accessError addr))
    | .write addr n v =>
      if legalAccess addr n then .next ((portWrite s addr v).setReply .ack)
      else .next (s.setReply (.accessError addr))

/-- The reset input (R280 to R284): every register at its reset value, no element of a memory written, a command in
flight abandoned (R281). What the host does next and the last answer are not the block's (log 10). -/
def assertReset (s : State) : State :=
  { State.reset with inputs := s.inputs, reply := s.reply }

end Sys2Proof.Machine
end

