-- ==== Sys2Proof/Machine/Engine.lean ====
section
/-! DEFINITION. The engine's step (40_control.md R111), what a step of the machine is, and how the host places a
command. -/

namespace Sys2Proof.Machine

/-- The engine's step (R111): PENDCMD is decoded now, not when it was accepted (30_encoding.md R87). An illegal word
performs nothing and ends with ILLEGAL_COMMAND (60_exceptions.md R254). -/
def engineStep (s : State) : Host.Outcome State Fault Refusal :=
  match decode s.pendcmd with
  | .ok i => exec i s
  | .error _ => complete (raiseError .illegalCommand s)

/-- The engine's turn: its step is enabled exactly while BUSY = 1 (R111); else nothing happens (log 3). -/
def engineTurn (s : State) : Host.Outcome State Fault Refusal :=
  if s.status.busy then engineStep s else .next s

/-- What happens next (log 1): the first of the events, the rest left for later. With no event left the engine steps
where it is enabled, as it must in the end (70_reset_and_hazards.md R290, log 2). -/
def nextEvent (s : State) : Host.Outcome State Fault Refusal :=
  match s.inputs with
  | [] => engineTurn s
  | .engineTurn :: rest => engineTurn (s.setInputs rest)
  | .access a :: rest => hostAccess a (s.setInputs rest)
  | .resetInput :: rest => .next (assertReset (s.setInputs rest))

/-- The command of `w` accepted, with the engine's turn next (R110, log 12). -/
def placeCommand (s : State) (nbits w : Nat) : State :=
  (acceptCommand (BitVec.ofNat 32 (w % 2 ^ nbits)) s).setInputs (.engineTurn :: s.inputs)

end Sys2Proof.Machine
end

