-- ==== Sys2Proof/Machine/Step.lean ====
section
/-! DEFINITION. One step of the machine, and the host's way of placing an instruction for the next step. -/

namespace Sys2Proof.Machine

/-- One step: an access of the host, the engine's step of one whole command, an assertion of reset, or nothing
(40_control.md R111, 20_memory.md R64, R65). -/
def step (s : State) : Host.Outcome State Fault Refusal := nextEvent s

/-- `s` with the instruction of `w` accepted (PENDCMD, BUSY = 1) and the engine's turn next, so that the very next
step executes it: QRCORE fetches no instructions (10_state.md R37, 40_control.md R110, log 12). -/
def State.withFetchWord (s : State) (nbits w : Nat) : State := placeCommand s nbits w

end Sys2Proof.Machine
end

