-- ==== Sys2Proof/Machine/Asm.lean ====
section
/-! DEFINITION. The assembler syntax and the host-side sequences (30_encoding.md R89, R90): what the host sends, as
events of the port. None of this is in the block. -/

namespace Sys2Proof.Machine

/-- The letter of a level (R89). -/
def levelText : EcLevel → String
  | .L => "L"
  | .M => "M"
  | .Q => "Q"
  | .H => "H"

/-- A command in the assembler syntax of R89: the mnemonic, then its operands in decimal. -/
def commandText : Instr → String
  | .nop => "NOP"
  | .setcfg v e => "SETCFG " ++ toString v.toNat ++ ", " ++ levelText e
  | .rsenc => "RSENC"
  | .layout => "LAYOUT"
  | .place => "PLACE"
  | .applymask m => "APPLYMASK " ++ toString m.toNat
  | .score => "SCORE"
  | .wrfmt m => "WRFMT " ++ toString m.toNat
  | .wrver => "WRVER"
  | .masksel => "MASKSEL"
  | .generate => "GENERATE"
  | .clrstat => "CLRSTAT"

/-- A line of a host program (R89). A command line stands for the CMD write of its word. `poll n` is POLL: `n`
STATUS reads that return BUSY = 1, then the engine's step, then the read that returns BUSY = 0. How many there are is
not stated (70_reset_and_hazards.md R290), so `n` is any number. -/
inductive HostLine where
  | wr32 (addr : HostAddr) (v : Word)
  | rd32 (addr : HostAddr)
  | wr8 (addr : HostAddr) (v : Byte)
  | rd8 (addr : HostAddr)
  | command (i : Instr)
  | poll (n : Nat)
deriving DecidableEq, Repr

/-- RD32 of STATUS. -/
def readStatus : HostEvent := .access (.read 0x0004#16 .four)

/-- WR32 of CMD with a word. -/
def writeCmd (w : Word) : HostEvent := .access (.write 0x0000#16 .four (w.setWidth 64))

/-- The events of a line. The engine's turn stands inside POLL only, so between two lines with no POLL between them the
engine's step is not taken, and a second CMD write there is dropped: R290 and U5 of 93_implementation_defined.md leave
that open (both outcomes are allowed), and this order is the model's choice (log 23, DESIGN CHOICE). The other outcome is
the list of events with `.engineTurn` between the two writes, which `State.inputs` allows. -/
def HostLine.events : HostLine → List HostEvent
  | .wr32 addr v => [.access (.write addr .four (v.setWidth 64))]
  | .rd32 addr => [.access (.read addr .four)]
  | .wr8 addr v => [.access (.write addr .one (v.setWidth 64))]
  | .rd8 addr => [.access (.read addr .one)]
  | .command i => [writeCmd (encode i)]
  | .poll n => List.replicate n readStatus ++ [.engineTurn, readStatus]

/-- The events of a host program, with the engine's turns where POLL puts them (log 23). -/
def programEvents (p : List HostLine) : List HostEvent := p.flatMap HostLine.events

/-- FORCEMASK m (R90); `a`, `b`, `c` are the busy reads of the three polls. -/
def forceMask (m : BitVec 3) (a b c : Nat) : List HostLine :=
  [.command (.applymask m), .poll a, .command (.wrfmt m), .poll b, .command .wrver, .poll c]

/-- ENCODE v, e (R90). -/
def encodeSymbol (v : BitVec 6) (e : EcLevel) (a b : Nat) : List HostLine :=
  [.command (.setcfg v e), .poll a, .command .generate, .poll b]

/-- UNMASK m (R90): APPLYMASK m issued a second time. -/
def unmask (m : BitVec 3) : HostLine := .command (.applymask m)

/-- The host's writes of the data codewords of a symbol into DIN (20_memory.md R68, R56). -/
def loadData (data : List Byte) : List HostLine :=
  data.zipIdx.map (fun p => .wr8 (BitVec.ofNat 16 (0x1000 + p.2)) p.1)

end Sys2Proof.Machine
end

