-- ==== Sys2Proof/Safety.lean ====
section
/-! DEFINITION. The terms claims are stated in: the invariant of the state, what a command needs before it can
complete, and what a run is. -/

namespace Sys2Proof.Machine

/-- The four memories are in canonical form: rising elements, each at most once, none outside its memory. -/
def State.memWf (s : State) : Bool :=
  Memory.wf Config.dinBytes s.din && Memory.wf Config.cwbBytes s.cwb &&
    Memory.wf Config.gridCells s.modArr && Memory.wf Config.gridCells s.funArr

/-- The invariant of the machine: canonical memories and a legal STATUS (10_state.md R22). -/
def State.Inv (s : State) : Prop := s.memWf = true ∧ s.status.legal = true

/-- The elements `0` to `n - 1` of a memory have been written (10_state.md R36). -/
def written {α : Type} (m : Memory α) (n : Nat) : Prop := ∀ k, k < n → Memory.read m k ≠ none

/-- Every cell of the square of rows and columns 0 to size - 1 has been written. -/
def squareWritten (m : Memory Bool) (size : Nat) : Prop :=
  ∀ r c, r < size → c < size → Memory.read m (cellKey r c) ≠ none

/-- A grid of `size` rows of `size` cells each. -/
def Grid.isSquare (g : Grid) (size : Nat) : Prop := g.length = size ∧ ∀ row ∈ g, row.length = size

/-- The square of a grid array has been written and holds the grid `g`. -/
def holdsGrid (m : Memory Bool) (size : Nat) (g : Grid) : Prop :=
  g.isSquare size ∧ ∀ r c, r < size → c < size → Memory.read m (cellKey r c) = some (g.cell r c)

/-- The first elements of a memory have been written and hold the values of a list. -/
def holdsList {α : Type} (m : Memory α) (vs : List α) : Prop := ∀ k, k < vs.length → Memory.read m k = vs[k]?

/-- The side of the symbol CFG names (R7). -/
def State.side (s : State) : Nat := symbolSize s.cfg.ver.toNat

/-- T(V) of the version CFG names. -/
def State.total (s : State) : Nat := totalCodewords s.cfg.ver.toNat

/-- D(V, E) of the version and level CFG names. -/
def State.dataCount (s : State) : Nat := dataCodewords s.cfg.ver.toNat s.cfg.ecl

/-- The block row of the version and level CFG names. -/
def State.block (s : State) : BlockRow := blockTab s.cfg.ver.toNat s.cfg.ecl

/-- The state a command that ended with `code` leaves, everything else as in `s` (40_control.md R111). -/
def State.ended (s : State) (code : BitVec 3) : State := s.setStatus (s.status.completed code)

/-- The commands that check the version first (60_exceptions.md R251, R252). -/
def needsVersion : Instr → Bool
  | .nop => false
  | .setcfg _ _ => false
  | .rsenc => true
  | .layout => true
  | .place => true
  | .applymask _ => true
  | .score => true
  | .wrfmt _ => true
  | .wrver => true
  | .masksel => true
  | .generate => true
  | .clrstat => false

/-- The value of a polynomial over GF(256) at `x`, coefficients from the highest degree down (41_rs_encoder.md R136). -/
def gfEval (p : List Byte) (x : Byte) : Byte := p.foldl (fun acc c => gfAdd (gfMul acc x) c) 0#8

/-- Where block `j` of a split starts among the data codewords (R139). -/
def BlockRow.blockStart (b : BlockRow) (j : Nat) : Nat :=
  if j ≤ b.nb1 then j * b.k1 else b.nb1 * b.k1 + (j - b.nb1) * b.k2

/-- K(j) (R139). -/
def BlockRow.blockSize (b : BlockRow) (j : Nat) : Nat := if j < b.nb1 then b.k1 else b.k2

/-- The cells of a square, row by row. -/
def squareCells (size : Nat) : List (Nat × Nat) :=
  (List.range size).flatMap (fun r => (List.range size).map (fun c => (r, c)))

/-- The line that begins with a run of `b` and has runs of these lengths, each of the other value than the one before
(44_mask_selector.md R214). -/
def lineOfRuns (b : Bool) : List Nat → List Bool
  | [] => []
  | k :: ks => List.replicate k b ++ lineOfRuns (!b) ks

/-- The data cells before a place of the zigzag (43_data_placer.md R192). -/
def dataCellsIn (f : Grid) (cells : List (Nat × Nat)) : Nat := cells.countP (fun p => !f.cell p.1 p.2)

/-- `k` steps from `s` reach `t` without a fault. -/
def Reaches (k : Nat) (s t : State) : Prop := Host.Core.run Sys2Proof.core k s = .next t

end Sys2Proof.Machine
end

