-- ==== Sys2Proof/Certificates/Slice0/Obligations.lean ====
section
/-! DEFINITION. The statements for the provers. Each is a Prop about the machine; none is about a program. -/

open Sys2Proof Sys2Proof.Machine

/-! ## Encoding (30_encoding.md) -/

/-- Encoding loses nothing: every command, with every operand value, decodes back to itself (R86, R89). -/
def Obligations.DecodeOfEncodedInstr : Prop := ∀ i : Instr, decode (encode i) = .ok i

/-- A command has one word only: the word a command is decoded from is the word it is encoded to (R86). -/
def Obligations.EncodeOfDecodedWord : Prop := ∀ (w : Word) (i : Instr), decode w = .ok i → encode i = w

/-- R86: the twelve rows, what selecting a row is, that no word selects two rows, and that a word that selects none
is illegal. -/
def Obligations.DecodeTableRowsDisjoint : Prop :=
  decodeTable.map (fun r => (r.mnemonic, r.pattern, r.mask)) =
    [("NOP", 0x00000000#32, 0xFFFFFFFF#32), ("SETCFG", 0x00000001#32, 0xFFFF00FF#32),
     ("RSENC", 0x00000002#32, 0xFFFFFFFF#32), ("LAYOUT", 0x00000003#32, 0xFFFFFFFF#32),
     ("PLACE", 0x00000004#32, 0xFFFFFFFF#32), ("APPLYMASK", 0x00000005#32, 0xFFFFFF8F#32),
     ("SCORE", 0x00000006#32, 0xFFFFFFFF#32), ("WRFMT", 0x00000007#32, 0xFFFFFF8F#32),
     ("WRVER", 0x00000008#32, 0xFFFFFFFF#32), ("MASKSEL", 0x00000009#32, 0xFFFFFFFF#32),
     ("GENERATE", 0x0000000A#32, 0xFFFFFFFF#32), ("CLRSTAT", 0x0000000B#32, 0xFFFFFFFF#32)] ∧
  (∀ r w, r ∈ decodeTable → (r.selects w = true ↔ w &&& r.mask = r.pattern)) ∧
  decodeTable.Pairwise (fun a b => ∀ w, ¬ (a.selects w = true ∧ b.selects w = true)) ∧
  (∀ w r, r ∈ decodeTable → r.selects w = true → decode w = .ok (r.build w)) ∧
  (∀ w, (∀ r ∈ decodeTable, r.selects w = false) → ∃ x, decode w = .error x)

/-- The words of R86 and of the examples of 40_control.md and 44_mask_selector.md, written out, decode to the
commands they stand for; words with an unused bit set and reserved opcodes are illegal. -/
def Obligations.WrittenOutWordsDecode : Prop :=
  decode 0x00000000#32 = .ok .nop ∧ decode 0x00000101#32 = .ok (.setcfg 1#6 .M) ∧
  decode 0x00004201#32 = .ok (.setcfg 2#6 .L) ∧ decode 0x0000C501#32 = .ok (.setcfg 5#6 .Q) ∧
  decode 0x0000A801#32 = .ok (.setcfg 40#6 .H) ∧ decode 0x00000002#32 = .ok .rsenc ∧
  decode 0x00000003#32 = .ok .layout ∧ decode 0x00000004#32 = .ok .place ∧
  decode 0x00000075#32 = .ok (.applymask 7#3) ∧ decode 0x00000006#32 = .ok .score ∧
  decode 0x00000027#32 = .ok (.wrfmt 2#3) ∧ decode 0x00000008#32 = .ok .wrver ∧
  decode 0x00000009#32 = .ok .masksel ∧ decode 0x0000000A#32 = .ok .generate ∧
  decode 0x0000000B#32 = .ok .clrstat ∧ decode 0x00000181#32 = .error .unusedBitSet ∧
  decode 0x00000085#32 = .error .unusedBitSet ∧ decode 0x00000013#32 = .error .unusedBitSet ∧
  decode 0x0000000C#32 = .error .reservedOpcode

/-- R85, R88, R254: a word with a reserved opcode, or with a 1 in a bit its command does not use, is exactly an
illegal word, and the engine's step of it performs nothing: only STATUS changes, to ILLEGAL_COMMAND. As for a legal
word (R111), the step comes when an engine turn stands first among the inputs, which the step takes away (log 1), or
when no input is left: that a step with no input left is the engine's is the model's reading of R290 (log 2,
DEDUCED). -/
def Obligations.IllegalWordPerformsNothing : Prop :=
  ∀ s : State, s.status.busy = true →
    let w := s.pendcmd
    let illegal : Prop :=
      0xC ≤ (fieldOp w).toNat ∨ w.getLsbD 7 = true ∨ (∃ k, 16 ≤ k ∧ k < 32 ∧ w.getLsbD k = true) ∨
      (fieldOp w ≠ 0x1#4 ∧ ∃ k, 8 ≤ k ∧ k < 16 ∧ w.getLsbD k = true) ∨
      (fieldOp w ≠ 0x5#4 ∧ fieldOp w ≠ 0x7#4 ∧ ∃ k, 4 ≤ k ∧ k < 7 ∧ w.getLsbD k = true)
    (illegal →
      (∀ rest, s.inputs = .engineTurn :: rest →
        step s = .next { s with inputs := rest, status := ⟨false, true, 3#3, s.status.drop⟩ }) ∧
      (s.inputs = [] → step s = .next { s with status := ⟨false, true, 3#3, s.status.drop⟩ })) ∧
    (¬ illegal → ∃ i, decode w = .ok i ∧
      (∀ rest, s.inputs = .engineTurn :: rest → step s = exec i { s with inputs := rest }) ∧
      (s.inputs = [] → step s = exec i s))

/-! ## Acceptance, the engine and one step (40_control.md, 20_memory.md) -/

/-- R111: the engine's step is enabled while BUSY = 1 only; its turn then executes the command PENDCMD decodes to,
and the step is that execution and nothing else. It comes when an engine turn stands first among the inputs or no
input is left (log 1, log 2); an idle machine with no input stays as it is (log 3). The word `withFetchWord` places
is executed by the very next step (log 12). -/
def Obligations.StepRunsDecodedCommand : Prop :=
  (∀ (s : State) (i : Instr) (rest : List HostEvent), s.status.busy = true → decode s.pendcmd = .ok i →
    (s.inputs = [] → step s = exec i s) ∧
    (s.inputs = .engineTurn :: rest → step s = exec i { s with inputs := rest })) ∧
  (∀ (s : State) (rest : List HostEvent), s.status.busy = false →
    (s.inputs = .engineTurn :: rest → step s = .next { s with inputs := rest }) ∧
    (s.inputs = [] → step s = .next s)) ∧
  (∀ (s : State) (w : Word) (i : Instr), decode w = .ok i →
    step (s.withFetchWord 32 w.toNat) =
      exec i { s with pendcmd := w, status := ⟨true, false, 0#3, s.status.drop⟩ })

/-- R110: a 32-bit write to CMD is accepted while BUSY = 0 (PENDCMD takes the word, BUSY <- 1, DONE <- 0, ERR <- 0,
nothing is decoded) and discarded while BUSY = 1 (only DROP <- 1). R110 gives the write no answer: that the port
acknowledges the accepted and the dropped write, in the model's own field reply, is the model's choice (log 15,
DESIGN CHOICE). -/
def Obligations.CommandWriteAcceptedOrDropped : Prop :=
  ∀ (s : State) (w : Word) (rest : List HostEvent),
    s.inputs = .access (.write 0x0000#16 .four (w.setWidth 64)) :: rest →
    (s.status.busy = false → step s = .next { s with
      pendcmd := w, status := ⟨true, false, 0#3, s.status.drop⟩, inputs := rest, reply := some .ack }) ∧
    (s.status.busy = true → step s = .next { s with
      status := ⟨true, s.status.done, s.status.err, true⟩, inputs := rest, reply := some .ack })

/-- The whole-machine rule of R111, R22, R23, R31 and R260: whichever command ends, it leaves BUSY = 0, DONE = 1 and
a code of 0 to 3; only CLRSTAT changes DROP, only SETCFG changes CFG, and no command writes DIN or touches what the
host sends and receives. R30 says only that PENDCMD holds the word until completion: that PENDCMD keeps it
afterwards is the model's choice (log 5, DESIGN CHOICE, unobservable). -/
def Obligations.EveryCommandEndsDone : Prop :=
  ∀ (i : Instr) (s t : State), exec i s = .next t →
    t.status.busy = false ∧ t.status.done = true ∧ t.status.err.toNat ≤ 3 ∧
    (i ≠ .clrstat → t.status.drop = s.status.drop) ∧ (i = .clrstat → t.status.drop = false) ∧
    ((∀ v e, i ≠ .setcfg v e) → t.cfg = s.cfg) ∧
    t.din = s.din ∧ t.pendcmd = s.pendcmd ∧ t.inputs = s.inputs ∧ t.reply = s.reply

/-- The writers of each register and memory (R24, R28, R29, R32, R33, R34): MASKID and PEN0 to PEN7 only by MASKSEL
(alone or in GENERATE), the PART registers and PTOTAL only by SCORE, CWB only by RSENC, FUN only by LAYOUT, MOD by
no command but LAYOUT, PLACE, APPLYMASK, WRFMT, WRVER and MASKSEL (alone or in GENERATE). -/
def Obligations.OnlyTheNamedCommandsWrite : Prop :=
  ∀ (i : Instr) (s t : State), exec i s = .next t →
    (i ≠ .masksel → i ≠ .generate → t.maskid = s.maskid ∧ t.pen = s.pen) ∧
    (i ≠ .score → t.part1 = s.part1 ∧ t.part2 = s.part2 ∧ t.part3 = s.part3 ∧ t.part4 = s.part4 ∧
      t.ptotal = s.ptotal) ∧
    (i ≠ .rsenc → i ≠ .generate → t.cwb = s.cwb) ∧
    (i ≠ .layout → i ≠ .generate → t.funArr = s.funArr) ∧
    (i = .nop ∨ (∃ v e, i = .setcfg v e) ∨ i = .rsenc ∨ i = .score ∨ i = .clrstat → t.modArr = s.modArr)

/-- No command is refused, and a command faults only by reading an element never written, only with a supported
version, and only if it is one that reads a memory (R63, R258, R264). -/
def Obligations.CommandsFaultOnlyOnUnwrittenReads : Prop :=
  ∀ (i : Instr) (s : State), (∀ x, exec i s ≠ .refused x) ∧
    ∀ f, exec i s = .fault f → f = .unwrittenRead ∧ 1 ≤ s.cfg.ver.toNat ∧ s.cfg.ver.toNat ≤ 40 ∧
      (i = .rsenc ∨ i = .place ∨ (∃ m, i = .applymask m) ∨ i = .score ∨ i = .masksel ∨ i = .generate)

/-- R291, R111: how many STATUS reads the host makes before the engine's step does not change what the command
does. -/
def Obligations.PollingDoesNotChangeResult : Prop :=
  ∀ (n : Nat) (s t : State), s.status.busy = true → s.inputs = List.replicate n readStatus ++ [.engineTurn] →
    engineStep { s with inputs := [] } = .next t →
    ∃ u, Reaches (n + 1) s u ∧ { u with reply := t.reply } = t

/-- R290, R65: an accepted command is over after one engine step, or that step reads an element never written. That the
step with no input left is the engine's is the model's reading (log 2, DEDUCED). -/
def Obligations.AcceptedCommandIsOverAfterOneStep : Prop :=
  ∀ s : State, s.status.busy = true → s.inputs = [] →
    (∃ t, step s = .next t ∧ t.status.busy = false ∧ t.status.done = true) ∨ step s = .fault .unwrittenRead

/-! ## Control commands (40_control.md) -/

/-- R112, R113, R114: NOP does nothing but end; SETCFG stores any version, supported or not, and the level; CLRSTAT
clears DROP. Each leaves every other register and every memory as it was. -/
def Obligations.ControlCommandsComplete : Prop :=
  ∀ s : State,
    exec .nop s = .next { s with status := ⟨false, true, 0#3, s.status.drop⟩ } ∧
    (∀ (v : BitVec 6) (e : EcLevel), exec (.setcfg v e) s =
      .next { s with cfg := ⟨v, e⟩, status := ⟨false, true, 0#3, s.status.drop⟩ }) ∧
    exec .clrstat s = .next { s with status := ⟨false, true, 0#3, false⟩ }

/-! ## Errors (60_exceptions.md) -/

/-- R252, R38, R116: with a version outside 1 to 40 every command that needs one ends with UNSUPPORTED_VERSION and
changes nothing but STATUS, whatever the memories hold; NOP, SETCFG and CLRSTAT never end with an error. -/
def Obligations.UnsupportedVersionRefused : Prop :=
  (∀ (i : Instr) (s : State), needsVersion i = true → (s.cfg.ver.toNat = 0 ∨ 41 ≤ s.cfg.ver.toNat) →
    exec i s = .next { s with status := ⟨false, true, 1#3, s.status.drop⟩ }) ∧
  (∀ (i : Instr) (s : State), needsVersion i = false → ∃ t, exec i s = .next t ∧ t.status.err = 0#3)

/-- R257: a command word that ends with a nonzero code, whatever it decodes to, has changed nothing but STATUS,
GENERATE included; and the codes are 1 to 3. -/
def Obligations.ErrorsArePrecise : Prop :=
  ∀ s t : State, engineStep s = .next t → t.status.err ≠ 0#3 →
    t = { s with status := ⟨false, true, t.status.err, s.status.drop⟩ } ∧ t.status.err.toNat ≤ 3

/-- R194, R253, R258: with a supported version, FUN written in the square and fewer than 8 T(V) cells with FUN = 0
there, PLACE ends with LAYOUT_OVERFLOW before it writes anything, whether or not CWB was ever written. -/
def Obligations.PlaceReportsOverflow : Prop :=
  ∀ (s : State) (f : Grid), s.cfg.supported = true → holdsGrid s.funArr s.side f →
    dataCellsIn f (squareCells s.side) < 8 * s.total →
    exec .place s = .next { s with status := ⟨false, true, 2#3, s.status.drop⟩ }

/-- R63: with a supported version, a command that needs an element never written faults. That PLACE needs all of
CWB[0 .. T-1] is read from the errors clause of R192 (log 7, DEDUCED). -/
def Obligations.UnwrittenElementsFault : Prop :=
  ∀ s : State, s.cfg.supported = true →
    ((∃ k, k < s.dataCount ∧ Memory.read s.din k = none) →
      exec .rsenc s = .fault .unwrittenRead ∧ exec .generate s = .fault .unwrittenRead) ∧
    ((∃ r c, r < s.side ∧ c < s.side ∧ Memory.read s.modArr (cellKey r c) = none) →
      exec .score s = .fault .unwrittenRead ∧ exec .masksel s = .fault .unwrittenRead ∧
      ∀ m, exec (.applymask m) s = .fault .unwrittenRead) ∧
    ((∃ r c, r < s.side ∧ c < s.side ∧ Memory.read s.funArr (cellKey r c) = none) →
      exec .place s = .fault .unwrittenRead ∧ exec .masksel s = .fault .unwrittenRead ∧
      ∀ m, exec (.applymask m) s = .fault .unwrittenRead) ∧
    (∀ f, holdsGrid s.funArr s.side f → 8 * s.total ≤ dataCellsIn f (squareCells s.side) →
      (∃ k, k < s.total ∧ Memory.read s.cwb k = none) → exec .place s = .fault .unwrittenRead)

/-! ## The Reed-Solomon encoder (41_rs_encoder.md) -/

/-- R131, R132: EXP begins with 1, each entry is twice the one before reduced by 0x11D, EXP[255] = 1; LOG[a] is the
unique i in 0 to 254 with EXP[i] = a. -/
def Obligations.ExpAndLogTables : Prop :=
  gfExp 0 = 1#8 ∧ gfExp 255 = 1#8 ∧
  (∀ i, i < 254 → (gfExp (i + 1)).toNat =
    if 2 * (gfExp i).toNat ≥ 256 then (2 * (gfExp i).toNat) ^^^ 0x11D else 2 * (gfExp i).toNat) ∧
  (∀ a : Byte, a ≠ 0#8 → gfLog a < 255 ∧ gfExp (gfLog a) = a ∧ ∀ i, i < 255 → gfExp i = a → i = gfLog a)

/-- R133: the product is zero where a factor is, else EXP of the sum of the logarithms modulo 255; it is commutative
and associative, distributes over addition and has 1 as identity. -/
def Obligations.GfMultiplicationLaws : Prop :=
  (∀ a b, gfMul a b = if a = 0#8 ∨ b = 0#8 then 0#8 else gfExp ((gfLog a + gfLog b) % 255)) ∧
  (∀ a b, gfMul a b = gfMul b a) ∧
  (∀ a b c, gfMul (gfMul a b) c = gfMul a (gfMul b c)) ∧
  (∀ a b c, gfMul a (gfAdd b c) = gfAdd (gfMul a b) (gfMul a c)) ∧
  (∀ a, gfMul 1#8 a = a)

/-- R136: RS_EC gives n codewords, is linear, and gives zero for the zero block. -/
def Obligations.RsEcLinear : Prop :=
  (∀ d n, (rsEc d n).length = n) ∧
  (∀ a b n, a.length = b.length →
    rsEc (List.zipWith gfAdd a b) n = List.zipWith gfAdd (rsEc a n) (rsEc b n)) ∧
  (∀ k n, rsEc (List.replicate k 0#8) n = List.replicate n 0#8)

/-- R134, R136: a block followed by its EC codewords is a multiple of the generator polynomial: it vanishes at every
root alpha^0 to alpha^(n-1), for every block and every n up to the largest EC count. -/
def Obligations.CodeBlockVanishesAtRoots : Prop :=
  ∀ (d : List Byte) (n i : Nat), n ≤ 30 → i < n → gfEval (d ++ rsEc d n) (gfExp i) = 0#8

/-- R139, R140: where each data codeword and each EC codeword stands in the interleaved sequence: codeword i of
block j at i NB + j among the data codewords while i < K1, the last codeword of a group-2 block after those, then EC
codeword i of block j at D + i NB + j. -/
def Obligations.InterleavedCodewordPositions : Prop :=
  ∀ (v : Nat) (e : EcLevel) (data : List Byte), 1 ≤ v → v ≤ 40 → data.length = dataCodewords v e →
    let b := blockTab v e
    let nb := b.nb1 + b.nb2
    let seq := codewordSeq b data
    seq.length = totalCodewords v ∧
    (∀ j i, j < nb → i < b.k1 → seq[i * nb + j]? = data[b.blockStart j + i]?) ∧
    (∀ j, b.nb1 ≤ j → j < nb → seq[b.k1 * nb + (j - b.nb1)]? = data[b.blockStart j + b.k1]?) ∧
    (∀ j i, j < nb → i < b.ecb →
      seq[data.length + i * nb + j]? =
        (rsEc ((data.drop (b.blockStart j)).take (b.blockSize j)) b.ecb)[i]?)

/-- R141: with a supported version and DIN[0 .. D-1] written, RSENC completes: CWB[0 .. T-1] holds the codeword
sequence of those D bytes, and nothing else changes. -/
def Obligations.RsencCompletes : Prop :=
  ∀ (s : State) (data : List Byte), s.cfg.supported = true → data.length = s.dataCount → holdsList s.din data →
    ∃ cwb, exec .rsenc s = .next { s with cwb := cwb, status := ⟨false, true, 0#3, s.status.drop⟩ } ∧
      (∀ k, k < s.total → Memory.read cwb k = (codewordSeq s.block data)[k]?) ∧
      (∀ k, k < s.total → Memory.read cwb k ≠ none) ∧
      (∀ k, s.total ≤ k → Memory.read cwb k = Memory.read s.cwb k)

/-! ## The matrix builder (42_matrix_builder.md) -/

/-- R170: with a supported version LAYOUT completes: every cell of both arrays holds what LayoutCell gives it inside
the symbol and 0 outside, and nothing else changes. -/
def Obligations.LayoutCompletes : Prop :=
  ∀ s : State, s.cfg.supported = true →
    ∃ m f, exec .layout s = .next { s with
        modArr := m, funArr := f, status := ⟨false, true, 0#3, s.status.drop⟩ } ∧
      ∀ r c, r < 177 → c < 177 →
        Memory.read m (cellKey r c) =
          some (if r < s.side ∧ c < s.side then (layoutCell s.cfg.ver.toNat r c).2 else false) ∧
        Memory.read f (cellKey r c) =
          some (if r < s.side ∧ c < s.side then (layoutCell s.cfg.ver.toNat r c).1 else false)

/-- R161 to R169: the layout cell by cell, whatever the order of the tests. The alignment positions are the forty
rows of R164, and the format and version cells are those of R166 and R168, bit 0 first. Each region has its function
cells and its values: finder patterns, separators, alignment patterns, timing patterns, format cells, the dark
module, version cells. A cell of the symbol in none of them is a data cell, and light (the last line of R169). -/
def Obligations.LayoutRegionsHaveTheirValues : Prop :=
  (List.range 40).map (fun k => alignPos (k + 1)) =
      [[], [6, 18], [6, 22], [6, 26], [6, 30], [6, 34], [6, 22, 38]] ++
      [[6, 24, 42], [6, 26, 46], [6, 28, 50], [6, 30, 54], [6, 32, 58], [6, 34, 62], [6, 26, 46, 66]] ++
      [[6, 26, 48, 70], [6, 26, 50, 74], [6, 30, 54, 78], [6, 30, 56, 82], [6, 30, 58, 86]] ++
      [[6, 34, 62, 90], [6, 28, 50, 72, 94], [6, 26, 50, 74, 98], [6, 30, 54, 78, 102], [6, 28, 54, 80, 106]] ++
      [[6, 32, 58, 84, 110], [6, 30, 58, 86, 114], [6, 34, 62, 90, 118], [6, 26, 50, 74, 98, 122]] ++
      [[6, 30, 54, 78, 102, 126], [6, 26, 52, 78, 104, 130], [6, 30, 56, 82, 108, 134]] ++
      [[6, 34, 60, 86, 112, 138], [6, 30, 58, 86, 114, 142], [6, 34, 62, 90, 118, 146]] ++
      [[6, 30, 54, 78, 102, 126, 150], [6, 24, 50, 76, 102, 128, 154]] ++
      [[6, 28, 54, 80, 106, 132, 158], [6, 32, 58, 84, 110, 136, 162]] ++
      [[6, 26, 54, 82, 110, 138, 166], [6, 30, 58, 86, 114, 142, 170]] ∧
  ∀ v, 1 ≤ v → v ≤ 40 →
    let size := symbolSize v
    let finders := [(3, 3), (3, size - 4), (size - 4, 3)]
    let fmtA := [(0, 8), (1, 8), (2, 8), (3, 8), (4, 8), (5, 8), (7, 8), (8, 8), (8, 7), (8, 5), (8, 4), (8, 3),
      (8, 2), (8, 1), (8, 0)]
    let fmtB := [(8, size - 1), (8, size - 2), (8, size - 3), (8, size - 4), (8, size - 5), (8, size - 6),
      (8, size - 7), (8, size - 8), (size - 7, 8), (size - 6, 8), (size - 5, 8), (size - 4, 8), (size - 3, 8),
      (size - 2, 8), (size - 1, 8)]
    let verA := (List.range 6).flatMap (fun r => [(r, size - 11), (r, size - 10), (r, size - 9)])
    let verB := (List.range 6).flatMap (fun c => [(size - 11, c), (size - 10, c), (size - 9, c)])
    size = 4 * v + 17 ∧
    (List.range 15).map fmtCellA = fmtA ∧ (List.range 15).map (fmtCellB size) = fmtB ∧
    (List.range 18).map (verCellA size) = verA ∧ (List.range 18).map (verCellB size) = verB ∧
    (∀ r0 c0, (r0, c0) ∈ finders → ∀ r c, r < size → c < size →
      (cheb r c r0 c0 ≤ 3 → layoutCell v r c = (true, decide (cheb r c r0 c0 ≠ 2))) ∧
      (cheb r c r0 c0 = 4 → layoutCell v r c = (true, false))) ∧
    (∀ a b, a ∈ alignPos v → b ∈ alignPos v →
      (a, b) ≠ (6, 6) → (a, b) ≠ (6, size - 7) → (a, b) ≠ (size - 7, 6) →
      ∀ r c, cheb r c a b ≤ 2 → layoutCell v r c = (true, decide (cheb r c a b ≠ 1))) ∧
    (∀ k, 8 ≤ k → k ≤ size - 9 →
      layoutCell v 6 k = (true, decide (k % 2 = 0)) ∧ layoutCell v k 6 = (true, decide (k % 2 = 0))) ∧
    (∀ r c, (r, c) ∈ fmtA ∨ (r, c) ∈ fmtB → layoutCell v r c = (true, false)) ∧
    layoutCell v (4 * v + 9) 8 = (true, true) ∧
    (7 ≤ v → ∀ r c, (r, c) ∈ verA ∨ (r, c) ∈ verB → layoutCell v r c = (true, false)) ∧
    (∀ r c, r < size → c < size → (∀ r0 c0, (r0, c0) ∈ finders → 4 < cheb r c r0 c0) →
      (∀ a b, a ∈ alignPos v → b ∈ alignPos v →
        (a, b) ≠ (6, 6) → (a, b) ≠ (6, size - 7) → (a, b) ≠ (size - 7, 6) → 2 < cheb r c a b) →
      ¬ (r = 6 ∧ 8 ≤ c ∧ c ≤ size - 9) → ¬ (c = 6 ∧ 8 ≤ r ∧ r ≤ size - 9) →
      (r, c) ∉ fmtA → (r, c) ∉ fmtB → (r, c) ≠ (4 * v + 9, 8) → (7 ≤ v → (r, c) ∉ verA ∧ (r, c) ∉ verB) →
      layoutCell v r c = (false, false))

/-- R137: the 160 rows of the block table, one line a version, levels L, M, Q, H, each row ECB, NB1, K1, NB2, K2.
R138, R171: D and T of each row; after LAYOUT the cells with FUN = 0 are DATACELLS(V) by the closed form, and T(V),
the same for the four levels, is its whole eighth, so that the capacity check of PLACE passes. -/
def Obligations.LayoutDataCellsMatchCapacity : Prop :=
  (List.range 40).map (fun k => [EcLevel.L, .M, .Q, .H].map (fun e =>
      let b := blockTab (k + 1) e
      [b.ecb, b.nb1, b.k1, b.nb2, b.k2])) =
      [[[7, 1, 19, 0, 0], [10, 1, 16, 0, 0], [13, 1, 13, 0, 0], [17, 1, 9, 0, 0]],
       [[10, 1, 34, 0, 0], [16, 1, 28, 0, 0], [22, 1, 22, 0, 0], [28, 1, 16, 0, 0]],
       [[15, 1, 55, 0, 0], [26, 1, 44, 0, 0], [18, 2, 17, 0, 0], [22, 2, 13, 0, 0]],
       [[20, 1, 80, 0, 0], [18, 2, 32, 0, 0], [26, 2, 24, 0, 0], [16, 4, 9, 0, 0]],
       [[26, 1, 108, 0, 0], [24, 2, 43, 0, 0], [18, 2, 15, 2, 16], [22, 2, 11, 2, 12]]] ++
      [[[18, 2, 68, 0, 0], [16, 4, 27, 0, 0], [24, 4, 19, 0, 0], [28, 4, 15, 0, 0]],
       [[20, 2, 78, 0, 0], [18, 4, 31, 0, 0], [18, 2, 14, 4, 15], [26, 4, 13, 1, 14]],
       [[24, 2, 97, 0, 0], [22, 2, 38, 2, 39], [22, 4, 18, 2, 19], [26, 4, 14, 2, 15]],
       [[30, 2, 116, 0, 0], [22, 3, 36, 2, 37], [20, 4, 16, 4, 17], [24, 4, 12, 4, 13]],
       [[18, 2, 68, 2, 69], [26, 4, 43, 1, 44], [24, 6, 19, 2, 20], [28, 6, 15, 2, 16]]] ++
      [[[20, 4, 81, 0, 0], [30, 1, 50, 4, 51], [28, 4, 22, 4, 23], [24, 3, 12, 8, 13]],
       [[24, 2, 92, 2, 93], [22, 6, 36, 2, 37], [26, 4, 20, 6, 21], [28, 7, 14, 4, 15]],
       [[26, 4, 107, 0, 0], [22, 8, 37, 1, 38], [24, 8, 20, 4, 21], [22, 12, 11, 4, 12]],
       [[30, 3, 115, 1, 116], [24, 4, 40, 5, 41], [20, 11, 16, 5, 17], [24, 11, 12, 5, 13]],
       [[22, 5, 87, 1, 88], [24, 5, 41, 5, 42], [30, 5, 24, 7, 25], [24, 11, 12, 7, 13]]] ++
      [[[24, 5, 98, 1, 99], [28, 7, 45, 3, 46], [24, 15, 19, 2, 20], [30, 3, 15, 13, 16]],
       [[28, 1, 107, 5, 108], [28, 10, 46, 1, 47], [28, 1, 22, 15, 23], [28, 2, 14, 17, 15]],
       [[30, 5, 120, 1, 121], [26, 9, 43, 4, 44], [28, 17, 22, 1, 23], [28, 2, 14, 19, 15]],
       [[28, 3, 113, 4, 114], [26, 3, 44, 11, 45], [26, 17, 21, 4, 22], [26, 9, 13, 16, 14]],
       [[28, 3, 107, 5, 108], [26, 3, 41, 13, 42], [30, 15, 24, 5, 25], [28, 15, 15, 10, 16]]] ++
      [[[28, 4, 116, 4, 117], [26, 17, 42, 0, 0], [28, 17, 22, 6, 23], [30, 19, 16, 6, 17]],
       [[28, 2, 111, 7, 112], [28, 17, 46, 0, 0], [30, 7, 24, 16, 25], [24, 34, 13, 0, 0]],
       [[30, 4, 121, 5, 122], [28, 4, 47, 14, 48], [30, 11, 24, 14, 25], [30, 16, 15, 14, 16]],
       [[30, 6, 117, 4, 118], [28, 6, 45, 14, 46], [30, 11, 24, 16, 25], [30, 30, 16, 2, 17]],
       [[26, 8, 106, 4, 107], [28, 8, 47, 13, 48], [30, 7, 24, 22, 25], [30, 22, 15, 13, 16]]] ++
      [[[28, 10, 114, 2, 115], [28, 19, 46, 4, 47], [28, 28, 22, 6, 23], [30, 33, 16, 4, 17]],
       [[30, 8, 122, 4, 123], [28, 22, 45, 3, 46], [30, 8, 23, 26, 24], [30, 12, 15, 28, 16]],
       [[30, 3, 117, 10, 118], [28, 3, 45, 23, 46], [30, 4, 24, 31, 25], [30, 11, 15, 31, 16]],
       [[30, 7, 116, 7, 117], [28, 21, 45, 7, 46], [30, 1, 23, 37, 24], [30, 19, 15, 26, 16]],
       [[30, 5, 115, 10, 116], [28, 19, 47, 10, 48], [30, 15, 24, 25, 25], [30, 23, 15, 25, 16]]] ++
      [[[30, 13, 115, 3, 116], [28, 2, 46, 29, 47], [30, 42, 24, 1, 25], [30, 23, 15, 28, 16]],
       [[30, 17, 115, 0, 0], [28, 10, 46, 23, 47], [30, 10, 24, 35, 25], [30, 19, 15, 35, 16]],
       [[30, 17, 115, 1, 116], [28, 14, 46, 21, 47], [30, 29, 24, 19, 25], [30, 11, 15, 46, 16]],
       [[30, 13, 115, 6, 116], [28, 14, 46, 23, 47], [30, 44, 24, 7, 25], [30, 59, 16, 1, 17]],
       [[30, 12, 121, 7, 122], [28, 12, 47, 26, 48], [30, 39, 24, 14, 25], [30, 22, 15, 41, 16]]] ++
      [[[30, 6, 121, 14, 122], [28, 6, 47, 34, 48], [30, 46, 24, 10, 25], [30, 2, 15, 64, 16]],
       [[30, 17, 122, 4, 123], [28, 29, 46, 14, 47], [30, 49, 24, 10, 25], [30, 24, 15, 46, 16]],
       [[30, 4, 122, 18, 123], [28, 13, 46, 32, 47], [30, 48, 24, 14, 25], [30, 42, 15, 32, 16]],
       [[30, 20, 117, 4, 118], [28, 40, 47, 7, 48], [30, 43, 24, 22, 25], [30, 10, 15, 67, 16]],
       [[30, 19, 118, 6, 119], [28, 18, 47, 31, 48], [30, 34, 24, 34, 25], [30, 20, 15, 61, 16]]] ∧
  ∀ v, 1 ≤ v → v ≤ 40 →
    let n := v / 7 + 2
    (∃ f, holdsGrid (layoutFun v) (symbolSize v) f ∧
      dataCellsIn f (squareCells (symbolSize v)) = dataCells v) ∧
    dataCells v = (16 * v + 128) * v + 64 - (if v = 1 then 0 else (25 * n - 10) * n - 55) -
      (if 7 ≤ v then 36 else 0) ∧
    dataCells v / 8 = totalCodewords v ∧
    ∀ e, (blockTab v e).totalCount = totalCodewords v ∧
      dataCodewords v e = (blockTab v e).nb1 * (blockTab v e).k1 + (blockTab v e).nb2 * (blockTab v e).k2 ∧
      totalCodewords v = ((blockTab v e).nb1 + (blockTab v e).nb2) * (blockTab v e).ecb + dataCodewords v e

/-! ## The data placer (43_data_placer.md) -/

/-- R190: the cell at each place of ZIGZAG(V). The pairs of columns, counted from 0 at the right, are (S-1, S-2)
down to (8, 7), which is pair 2 V + 4, then (5, 4), (3, 2), (1, 0); even pairs go upward and odd ones downward, so
(8, 7) is upward and (5, 4) downward; each row of a pair gives its right column and then its left one. So the
sequence has S (S - 1) cells: every cell of the symbol but those of column 6, each exactly once. -/
def Obligations.ZigzagVisitsEachCellOnce : Prop :=
  ∀ v, 1 ≤ v → v ≤ 40 →
    let size := 4 * v + 17
    let seq := zigzag (symbolSize v)
    (∀ pair k, pair < 2 * v + 8 → k < size →
      let right := if pair ≤ 2 * v + 4 then size - 1 - 2 * pair else size - 2 - 2 * pair
      let r := if pair % 2 = 0 then size - 1 - k else k
      seq[2 * size * pair + 2 * k]? = some (r, right) ∧
      seq[2 * size * pair + 2 * k + 1]? = some (r, right - 1)) ∧
    seq.length = size * (size - 1) ∧ seq.Nodup ∧
    ∀ r c, (r, c) ∈ seq ↔ r < size ∧ c < size ∧ c ≠ 6

/-- R192, R191, R193, R61: with a supported version, FUN and CWB[0 .. T-1] written and room for the bits by the
capacity check of R194, PLACE completes: the data cell reached in the zigzag (whose order is ZigzagVisitsEachCellOnce)
after n data cells holds bit n of the codewords, most significant bit first, or light when n is past the last bit; every
other cell of MOD, and everything else, is unchanged. R194 counts cells with FUN = 0 in column 6 as room though the
zigzag never visits them; that PLACE then ends with ERR = 0 and leaves out the bits that found no cell is the model's
reading (log 8, DEDUCED, unsafe if the hardware reports an error there). -/
def Obligations.PlaceCompletes : Prop :=
  ∀ (s : State) (f : Grid) (cw : List Byte), s.cfg.supported = true → holdsGrid s.funArr s.side f →
    8 * s.total ≤ dataCellsIn f (squareCells s.side) → cw.length = s.total → holdsList s.cwb cw →
    ∃ m, exec .place s = .next { s with modArr := m, status := ⟨false, true, 0#3, s.status.drop⟩ } ∧
      (∀ r c pre post, zigzag s.side = pre ++ (r, c) :: post → f.cell r c = false →
        Memory.read m (cellKey r c) =
          some (if dataCellsIn f pre < 8 * s.total then
              (cw.getD (dataCellsIn f pre / 8) 0#8).getLsbD (7 - dataCellsIn f pre % 8)
            else false)) ∧
      (∀ r c, c < 177 → ¬ (r < s.side ∧ c < s.side ∧ c ≠ 6 ∧ f.cell r c = false) →
        Memory.read m (cellKey r c) = Memory.read s.modArr (cellKey r c))

/-! ## Masks and the penalty (44_mask_selector.md) -/

/-- R210: the eight mask functions. -/
def Obligations.MaskFunctions : Prop :=
  ∀ i j,
    (maskFn 0#3 i j = true ↔ (i + j) % 2 = 0) ∧ (maskFn 1#3 i j = true ↔ i % 2 = 0) ∧
    (maskFn 2#3 i j = true ↔ j % 3 = 0) ∧ (maskFn 3#3 i j = true ↔ (i + j) % 3 = 0) ∧
    (maskFn 4#3 i j = true ↔ (i / 2 + j / 3) % 2 = 0) ∧
    (maskFn 5#3 i j = true ↔ (i * j) % 2 + (i * j) % 3 = 0) ∧
    (maskFn 6#3 i j = true ↔ ((i * j) % 2 + (i * j) % 3) % 2 = 0) ∧
    (maskFn 7#3 i j = true ↔ ((i + j) % 2 + (i * j) % 3) % 2 = 0)

/-- R211, R212: with a supported version and the squares of MOD and FUN written, APPLYMASK completes: each data cell
of the square is XORed with the mask function, every other cell of MOD, and everything else, is unchanged. -/
def Obligations.ApplymaskCompletes : Prop :=
  ∀ (s : State) (msk : BitVec 3) (g f : Grid), s.cfg.supported = true → holdsGrid s.modArr s.side g →
    holdsGrid s.funArr s.side f →
    ∃ m, exec (.applymask msk) s = .next { s with
        modArr := m, status := ⟨false, true, 0#3, s.status.drop⟩ } ∧
      (∀ r c, r < s.side → c < s.side →
        Memory.read m (cellKey r c) =
          some (g.cell r c ^^ (decide (f.cell r c = false) && maskFn msk r c))) ∧
      (∀ r c, c < 177 → ¬ (r < s.side ∧ c < s.side) →
        Memory.read m (cellKey r c) = Memory.read s.modArr (cellKey r c))

/-- R211, R90 (UNMASK): APPLYMASK with the same mask a second time restores MOD, in every state with canonical
memories. -/
def Obligations.ApplymaskTwiceRestores : Prop :=
  ∀ (s t : State) (msk : BitVec 3), s.memWf = true → exec (.applymask msk) s = .next t → t.status.err = 0#3 →
    ∃ u, exec (.applymask msk) t = .next u ∧ u.status.err = 0#3 ∧ u.modArr = s.modArr

/-- R214: the run lengths of a line are those of its maximal runs: the line is runs of those lengths, of alternating
values, none empty; N1 adds 3 + (k - 5) for each of length k at least 5, over the rows and the columns. -/
def Obligations.RunLengthsAreMaximalRuns : Prop :=
  (∀ (b : Bool) (l : List Bool), lineOfRuns b (runLengths (b :: l)) = b :: l ∧
    ∀ k ∈ runLengths (b :: l), 1 ≤ k) ∧
  (∀ (size : Nat) (g : Grid), penaltyRuns size g =
    ((g ++ (List.range size).map (fun c => g.map (fun row => row.getD c false))).map
      (fun l => (((runLengths l).filter (fun k => decide (5 ≤ k))).map (fun k => 3 + (k - 5))).sum)).sum)

/-- R215: N2 is three times the number of 2 x 2 windows of equal cells. -/
def Obligations.BlocksCountEqualWindows : Prop :=
  ∀ (size : Nat) (g : Grid), 2 ≤ size → g.isSquare size →
    penaltyBlocks g = 3 * (squareCells (size - 1)).countP (fun p =>
      decide (g.cell p.1 p.2 = g.cell p.1 (p.2 + 1) ∧ g.cell p.1 p.2 = g.cell (p.1 + 1) p.2 ∧
        g.cell p.1 p.2 = g.cell (p.1 + 1) (p.2 + 1)))

/-- R216: N3 is 40 for each place of a line at which Q1 stands and 40 for each at which Q2 stands, wholly within the
line. -/
def Obligations.FinderCountsOccurrences : Prop :=
  ∀ (size : Nat) (g : Grid), 11 ≤ size → g.isSquare size →
    let q1 := [true, false, true, true, true, false, true, false, false, false, false]
    let q2 := [false, false, false, false, true, false, true, true, true, false, true]
    let rowAt : Nat → Nat → List Bool := fun r p => (List.range 11).map (fun i => g.cell r (p + i))
    let colAt : Nat → Nat → List Bool := fun c p => (List.range 11).map (fun i => g.cell (p + i) c)
    let places := (List.range size).flatMap (fun l => (List.range (size - 10)).map (fun p => (l, p)))
    penaltyFinder size g =
      40 * (places.countP (fun x => decide (rowAt x.1 x.2 = q1)) +
            places.countP (fun x => decide (colAt x.1 x.2 = q1))) +
      40 * (places.countP (fun x => decide (rowAt x.1 x.2 = q2)) +
            places.countP (fun x => decide (colAt x.1 x.2 = q2)))

/-- R217: for an odd total, k is the number of whole 5 % steps by which the dark proportion lies beyond the band of
45 % to 55 %: 5 k total < |100 dark - 50 total| <= 5 (k + 1) total; k is at most 9, and N4 is 10 k. -/
def Obligations.BalanceStepsOfDarkProportion : Prop :=
  (∀ dark total : Nat, total % 2 = 1 → dark ≤ total →
    let k := balanceSteps dark total
    let off := (100 * dark - 50 * total) + (50 * total - 100 * dark)
    5 * k * total < off ∧ off ≤ 5 * (k + 1) * total ∧ k ≤ 9) ∧
  (∀ (size : Nat) (g : Grid), g.isSquare size →
    penaltyBalance size g =
      10 * balanceSteps ((squareCells size).countP (fun p => g.cell p.1 p.2)) (size * size))

/-- R218: the bounds of the four parts of every symbol's penalty, and that their sum is below 5 000 000, so that no
register holding a penalty wraps. -/
def Obligations.PenaltyIsBounded : Prop :=
  ∀ (v : Nat) (g : Grid), 1 ≤ v → v ≤ 40 → g.isSquare (symbolSize v) →
    penaltyRuns (symbolSize v) g ≤ 2 * 177 * 175 ∧ penaltyBlocks g ≤ 3 * 176 ^ 2 ∧
    penaltyFinder (symbolSize v) g ≤ 2 * 177 * 2 * 167 * 40 ∧ penaltyBalance (symbolSize v) g ≤ 90 ∧
    penalty (symbolSize v) g < 5000000

/-- R218: with a supported version and the square of MOD written, SCORE completes: PART1 to PART4 and PTOTAL hold
the four parts and their sum, without wrap, and nothing else changes. -/
def Obligations.ScoreCompletes : Prop :=
  ∀ (s : State) (g : Grid), s.cfg.supported = true → holdsGrid s.modArr s.side g →
    ∃ n1 n2 n3 n4 total, exec .score s = .next { s with
        part1 := n1, part2 := n2, part3 := n3, part4 := n4, ptotal := total,
        status := ⟨false, true, 0#3, s.status.drop⟩ } ∧
      n1.toNat = penaltyRuns s.side g ∧ n2.toNat = penaltyBlocks g ∧ n3.toNat = penaltyFinder s.side g ∧
      n4.toNat = penaltyBalance s.side g ∧ total.toNat = n1.toNat + n2.toNat + n3.toNat + n4.toNat ∧
      total.toNat = penalty s.side g

/-! ## Format and version information (30_encoding.md, 44_mask_selector.md) -/

/-- R96, R97: the 32 format words and the 34 version words. -/
def Obligations.FormatAndVersionWords : Prop :=
  (List.range 8).map (fun m => (fmtWord .L (BitVec.ofNat 3 m)).toNat) =
    [0x77C4, 0x72F3, 0x7DAA, 0x789D, 0x662F, 0x6318, 0x6C41, 0x6976] ∧
  (List.range 8).map (fun m => (fmtWord .M (BitVec.ofNat 3 m)).toNat) =
    [0x5412, 0x5125, 0x5E7C, 0x5B4B, 0x45F9, 0x40CE, 0x4F97, 0x4AA0] ∧
  (List.range 8).map (fun m => (fmtWord .Q (BitVec.ofNat 3 m)).toNat) =
    [0x355F, 0x3068, 0x3F31, 0x3A06, 0x24B4, 0x2183, 0x2EDA, 0x2BED] ∧
  (List.range 8).map (fun m => (fmtWord .H (BitVec.ofNat 3 m)).toNat) =
    [0x1689, 0x13BE, 0x1CE7, 0x19D0, 0x0762, 0x0255, 0x0D0C, 0x083B] ∧
  (List.range 34).map (fun k => (verWord (k + 7)).toNat) =
    [0x07C94, 0x085BC, 0x09A99, 0x0A4D3, 0x0BBF6, 0x0C762, 0x0D847, 0x0E60D, 0x0F928, 0x10B78, 0x1145D, 0x12A17] ++
    [0x13532, 0x149A6, 0x15683, 0x168C9, 0x177EC, 0x18EC4, 0x191E1, 0x1AFAB, 0x1B08E, 0x1CC1A, 0x1D33F, 0x1ED75] ++
    [0x1F250, 0x209D5, 0x216F0, 0x228BA, 0x2379F, 0x24B0B, 0x2542E, 0x26A64, 0x27541, 0x28C69]

/-- R219: with a supported version WRFMT completes, whether or not MOD or FUN was ever written: bit i of the format
word of CFG.ECL and the mask stands in cell i of both copies; every other cell of MOD, MASKID and everything else
are unchanged. -/
def Obligations.WrfmtCompletes : Prop :=
  ∀ (s : State) (msk : BitVec 3), s.cfg.supported = true →
    ∃ m, exec (.wrfmt msk) s = .next { s with modArr := m, status := ⟨false, true, 0#3, s.status.drop⟩ } ∧
      (∀ i, i < 15 →
        Memory.read m (cellKey (fmtCellA i).1 (fmtCellA i).2) = some ((fmtWord s.cfg.ecl msk).getLsbD i) ∧
        Memory.read m (cellKey (fmtCellB s.side i).1 (fmtCellB s.side i).2) =
          some ((fmtWord s.cfg.ecl msk).getLsbD i)) ∧
      (∀ r c, c < 177 → (∀ i, i < 15 → (r, c) ≠ fmtCellA i ∧ (r, c) ≠ fmtCellB s.side i) →
        Memory.read m (cellKey r c) = Memory.read s.modArr (cellKey r c))

/-- R220: with a supported version WRVER completes: for V at least 7 bit i of the version word stands in cell i of
both blocks, for V at most 6 nothing is written; every other cell of MOD and everything else are unchanged. -/
def Obligations.WrverCompletes : Prop :=
  ∀ s : State, s.cfg.supported = true →
    ∃ m, exec .wrver s = .next { s with modArr := m, status := ⟨false, true, 0#3, s.status.drop⟩ } ∧
      (s.cfg.ver.toNat ≤ 6 → m = s.modArr) ∧
      (7 ≤ s.cfg.ver.toNat →
        (∀ i, i < 18 →
          Memory.read m (cellKey (verCellA s.side i).1 (verCellA s.side i).2) =
            some ((verWord s.cfg.ver.toNat).getLsbD i) ∧
          Memory.read m (cellKey (verCellB s.side i).1 (verCellB s.side i).2) =
            some ((verWord s.cfg.ver.toNat).getLsbD i)) ∧
        (∀ r c, c < 177 → (∀ i, i < 18 → (r, c) ≠ verCellA s.side i ∧ (r, c) ≠ verCellB s.side i) →
          Memory.read m (cellKey r c) = Memory.read s.modArr (cellKey r c)))

/-! ## Mask selection (44_mask_selector.md) -/

/-- R222: BestMask of eight penalties is the least index at which they have their minimum. -/
def Obligations.BestMaskIsLeastMinimum : Prop :=
  ∀ p : List Nat, p.length = 8 →
    bestMask p < 8 ∧ (∀ m, m < 8 → p.getD (bestMask p) 0 ≤ p.getD m 0) ∧
    (∀ m, m < bestMask p → p.getD (bestMask p) 0 < p.getD m 0)

/-- R221, R222: with a supported version and the squares of MOD and FUN written, MASKSEL completes: candidate m is
the square with mask m applied to its data cells; PENm holds its penalty, MASKID the least mask of least penalty;
MOD holds the chosen candidate with the format word and, for V at least 7, the version word written over it; cells
outside the square and everything else are unchanged. -/
def Obligations.MaskselCompletes : Prop :=
  ∀ (s : State) (g f : Grid), s.cfg.supported = true → holdsGrid s.modArr s.side g →
    holdsGrid s.funArr s.side f →
    ∃ best pen m, exec .masksel s = .next { s with
        modArr := m, maskid := best, pen := pen, status := ⟨false, true, 0#3, s.status.drop⟩ } ∧
      (∀ k : BitVec 3, (masked f g k).isSquare s.side ∧ ∀ r c, r < s.side → c < s.side →
        (masked f g k).cell r c = (g.cell r c ^^ (decide (f.cell r c = false) && maskFn k r c))) ∧
      (∀ k : BitVec 3, (pen[k.toNat]?).map BitVec.toNat = some (penalty s.side (masked f g k))) ∧
      (∀ k : BitVec 3, penalty s.side (masked f g best) ≤ penalty s.side (masked f g k)) ∧
      (∀ k : BitVec 3, k.toNat < best.toNat →
        penalty s.side (masked f g best) < penalty s.side (masked f g k)) ∧
      (∀ i, i < 15 →
        Memory.read m (cellKey (fmtCellA i).1 (fmtCellA i).2) = some ((fmtWord s.cfg.ecl best).getLsbD i) ∧
        Memory.read m (cellKey (fmtCellB s.side i).1 (fmtCellB s.side i).2) =
          some ((fmtWord s.cfg.ecl best).getLsbD i)) ∧
      (7 ≤ s.cfg.ver.toNat → ∀ i, i < 18 →
        Memory.read m (cellKey (verCellA s.side i).1 (verCellA s.side i).2) =
          some ((verWord s.cfg.ver.toNat).getLsbD i) ∧
        Memory.read m (cellKey (verCellB s.side i).1 (verCellB s.side i).2) =
          some ((verWord s.cfg.ver.toNat).getLsbD i)) ∧
      (∀ r c, r < s.side → c < s.side → isFmtCell s.side r c = false →
        isVerCell s.cfg.ver.toNat r c = false →
        Memory.read m (cellKey r c) =
          some (g.cell r c ^^ (decide (f.cell r c = false) && maskFn best r c))) ∧
      (∀ r c, c < 177 → ¬ (r < s.side ∧ c < s.side) →
        Memory.read m (cellKey r c) = Memory.read s.modArr (cellKey r c))

/-- R90 (FORCEMASK): APPLYMASK, WRFMT and WRVER with the mask MASKSEL chooses give the grid MASKSEL gives, and write
neither MASKID nor PEN0 to PEN7. -/
def Obligations.ForcemaskGivesMaskselGrid : Prop :=
  ∀ s t : State, exec .masksel s = .next t → t.status.err = 0#3 →
    ∃ a b c, exec (.applymask t.maskid) s = .next a ∧ exec (.wrfmt t.maskid) a = .next b ∧
      exec .wrver b = .next c ∧ c.modArr = t.modArr ∧ c.status = t.status ∧ c.maskid = s.maskid ∧ c.pen = s.pen

/-! ## The pipeline (40_control.md) -/

/-- R115: GENERATE gives what RSENC, LAYOUT, PLACE and MASKSEL give one after another. -/
def Obligations.GenerateIsTheFourStages : Prop :=
  ∀ s a b c : State, exec .rsenc s = .next a → a.status.err = 0#3 → exec .layout a = .next b →
    exec .place b = .next c → c.status.err = 0#3 → exec .generate s = exec .masksel c

/-- R115, R253: with a supported version and DIN[0 .. D-1] written, and nothing else assumed, GENERATE completes
without an error; CWB holds the codeword sequence, FUN the layout, MOD is whole; DIN, CFG, the PART registers and
PTOTAL are unchanged. -/
def Obligations.GenerateCompletes : Prop :=
  ∀ (s : State) (data : List Byte), s.cfg.supported = true → data.length = s.dataCount → holdsList s.din data →
    ∃ cwb m best pen, exec .generate s = .next { s with
        cwb := cwb, modArr := m, funArr := layoutFun s.cfg.ver.toNat, maskid := best, pen := pen,
        status := ⟨false, true, 0#3, s.status.drop⟩ } ∧
      (∀ k, k < s.total → Memory.read cwb k = (codewordSeq s.block data)[k]?) ∧
      (∀ k, s.total ≤ k → Memory.read cwb k = Memory.read s.cwb k) ∧
      (∀ r c, r < 177 → c < 177 → Memory.read m (cellKey r c) ≠ none)

/-- R115: GENERATE a second time changes nothing at all: the same MOD, FUN, CWB, MASKID and PEN0 to PEN7, in every
state with canonical memories. -/
def Obligations.GenerateIsIdempotent : Prop :=
  ∀ s t : State, s.memWf = true → exec .generate s = .next t → exec .generate t = .next t

/-- R115: GENERATE reads only CFG, DIN[0 .. D-1] and the constants: two states that agree on those get the same
symbol, whatever else they hold. -/
def Obligations.GenerateReadsOnlyCfgAndDin : Prop :=
  ∀ s s' t t' : State, s.cfg = s'.cfg → s.cfg.supported = true →
    (∀ k, k < s.dataCount → Memory.read s.din k = Memory.read s'.din k) →
    exec .generate s = .next t → exec .generate s' = .next t' →
    t.modArr = t'.modArr ∧ t.funArr = t'.funArr ∧ t.maskid = t'.maskid ∧ t.pen = t'.pen ∧
    t.status.err = t'.status.err ∧ ∀ k, k < s.total → Memory.read t.cwb k = Memory.read t'.cwb k

/-! ## The host port (20_memory.md, 70_reset_and_hazards.md) -/

/-- R54: while BUSY = 0 an access of another width or alignment than R52 and R53 allow is answered with
HostAccessError and changes nothing. (While BUSY = 1 it is the busy hazard: log 6.) -/
def Obligations.IllegalAccessChangesNothing : Prop :=
  ∀ (s : State) (addr : HostAddr) (n : AccessWidth) (v : BitVec 64) (rest : List HostEvent),
    s.status.busy = false →
    (addr.toNat < 0x1000 ∧ n ≠ .four ∨ addr.toNat < 0x1000 ∧ n = .four ∧ addr.toNat % 4 ≠ 0 ∨
      0x1000 ≤ addr.toNat ∧ n ≠ .one) →
    (s.inputs = .access (.read addr n) :: rest →
      step s = .next { s with inputs := rest, reply := some (.accessError addr) }) ∧
    (s.inputs = .access (.write addr n v) :: rest →
      step s = .next { s with inputs := rest, reply := some (.accessError addr) })

/-- R55: a legal read of a reserved address gives 0 and a legal write to one is ignored. R55 gives the write no
answer: that the port acknowledges it is the model's choice (log 15, DESIGN CHOICE). -/
def Obligations.ReservedAddressesReadZero : Prop :=
  ∀ (s : State) (addr : HostAddr) (v : BitVec 64) (rest : List HostEvent), s.status.busy = false →
    ((addr.toNat % 4 = 0 ∧ (addr.toNat = 0x1C ∨ 0x54 ≤ addr.toNat ∧ addr.toNat < 0x1000)) →
      (s.inputs = .access (.read addr .four) :: rest →
        step s = .next { s with inputs := rest, reply := some (.word 0#32) }) ∧
      (s.inputs = .access (.write addr .four v) :: rest →
        step s = .next { s with inputs := rest, reply := some .ack })) ∧
    ((0x1B8C ≤ addr.toNat ∧ addr.toNat < 0x2000 ∨ 0x2E7A ≤ addr.toNat ∧ addr.toNat < 0x4000 ∨
        0x5098 ≤ addr.toNat ∧ addr.toNat < 0x6000 ∨ 0x7098 ≤ addr.toNat) →
      (s.inputs = .access (.read addr .one) :: rest →
        step s = .next { s with inputs := rest, reply := some (.byte 0#8) }) ∧
      (s.inputs = .access (.write addr .one v) :: rest →
        step s = .next { s with inputs := rest, reply := some .ack }))

/-- R60: a write to a register other than CMD is ignored, a read of CMD gives 0, and no read has a side effect. R60
gives the ignored write no answer: that the port acknowledges it is the model's choice (log 15, DESIGN CHOICE). -/
def Obligations.RegisterWritesIgnoredAndReadsPure : Prop :=
  (∀ (s : State) (addr : HostAddr) (v : BitVec 64) (rest : List HostEvent), s.status.busy = false →
    addr.toNat ∈ [0x04, 0x08, 0x0C, 0x10, 0x14, 0x18, 0x20, 0x24, 0x28, 0x2C, 0x30, 0x34, 0x38, 0x3C,
      0x40, 0x44, 0x48, 0x4C, 0x50] →
    s.inputs = .access (.write addr .four v) :: rest →
    step s = .next { s with inputs := rest, reply := some .ack }) ∧
  (∀ (s : State) (rest : List HostEvent), s.status.busy = false →
    s.inputs = .access (.read 0x0000#16 .four) :: rest →
    step s = .next { s with inputs := rest, reply := some (.word 0#32) }) ∧
  (∀ (s t : State) (addr : HostAddr) (n : AccessWidth) (rest : List HostEvent),
    s.inputs = .access (.read addr n) :: rest → step s = .next t →
    t = { s with inputs := rest, reply := t.reply })

/-- R51, R21 to R29: which register a 32-bit read gives at each address of the register window. -/
def Obligations.RegisterReadMap : Prop :=
  ∀ (s : State) (rest : List HostEvent) (addr : HostAddr) (w : Word), s.status.busy = false →
    (addr, w) ∈ [(0x0004#16, s.status.word), (0x0008#16, s.cfg.word), (0x000C#16, s.maskid.setWidth 32),
      (0x0010#16, info0 s.cfg), (0x0014#16, info1 s.cfg), (0x0018#16, info2 s.cfg),
      (0x0020#16, s.pen[0]), (0x0024#16, s.pen[1]), (0x0028#16, s.pen[2]), (0x002C#16, s.pen[3]),
      (0x0030#16, s.pen[4]), (0x0034#16, s.pen[5]), (0x0038#16, s.pen[6]), (0x003C#16, s.pen[7]),
      (0x0040#16, s.part1), (0x0044#16, s.part2), (0x0048#16, s.part3), (0x004C#16, s.part4),
      (0x0050#16, s.ptotal)] →
    s.inputs = .access (.read addr .four) :: rest →
    step s = .next { s with inputs := rest, reply := some (.word w) }

/-- R22, R23: the fields of STATUS and CFG as words; the reserved bits read 0. -/
def Obligations.StatusAndCfgFields : Prop :=
  (∀ t : Status, t.word.getLsbD 0 = t.busy ∧ t.word.getLsbD 1 = t.done ∧ t.word.extractLsb' 2 3 = t.err ∧
    t.word.getLsbD 5 = t.drop ∧ t.word.toNat < 2 ^ 6) ∧
  (∀ c : Cfg, c.word.extractLsb' 0 6 = c.ver ∧ c.word.extractLsb' 6 2 = c.ecl.code ∧ c.word.toNat < 2 ^ 8)

/-- R25 to R27: the fields of INFO0, INFO1 and INFO2 for a supported configuration, every other bit 0, and 0 for an
unsupported one. -/
def Obligations.InfoRegisterFields : Prop :=
  ∀ c : Cfg,
    (1 ≤ c.ver.toNat ∧ c.ver.toNat ≤ 40 →
      let v := c.ver.toNat
      let b := blockTab v c.ecl
      (info0 c).toNat = (b.nb1 * b.k1 + b.nb2 * b.k2) + 2 ^ 16 * totalCodewords v ∧
      (info1 c).toNat = (4 * v + 17) + 2 ^ 8 * (dataCells v - 8 * totalCodewords v) + 2 ^ 16 * b.ecb ∧
      (info2 c).toNat = b.nb1 + 2 ^ 8 * b.k1 + 2 ^ 16 * b.nb2 + 2 ^ 24 * b.k2) ∧
    (c.ver.toNat = 0 ∨ 41 ≤ c.ver.toNat → info0 c = 0#32 ∧ info1 c = 0#32 ∧ info2 c = 0#32)

/-- R56, R57, R63: the DIN and CWB windows: a write stores one byte and changes nothing else; a read gives the byte,
or faults where it was never written. That the port acknowledges the write is the model's choice (log 15, DESIGN
CHOICE). -/
def Obligations.ByteWindows : Prop :=
  ∀ (s : State) (i : Nat) (v : Byte) (rest : List HostEvent), s.status.busy = false →
    (i ≤ 2955 →
      (s.inputs = .access (.write (BitVec.ofNat 16 (0x1000 + i)) .one (v.setWidth 64)) :: rest →
        ∃ m, step s = .next { s with din := m, inputs := rest, reply := some .ack } ∧
          Memory.read m i = some v ∧ ∀ j, j ≠ i → Memory.read m j = Memory.read s.din j) ∧
      (s.inputs = .access (.read (BitVec.ofNat 16 (0x1000 + i)) .one) :: rest →
        (∀ b, Memory.read s.din i = some b →
          step s = .next { s with inputs := rest, reply := some (.byte b) }) ∧
        (Memory.read s.din i = none → step s = .fault .unwrittenRead))) ∧
    (i ≤ 3705 →
      (s.inputs = .access (.write (BitVec.ofNat 16 (0x2000 + i)) .one (v.setWidth 64)) :: rest →
        ∃ m, step s = .next { s with cwb := m, inputs := rest, reply := some .ack } ∧
          Memory.read m i = some v ∧ ∀ j, j ≠ i → Memory.read m j = Memory.read s.cwb j) ∧
      (s.inputs = .access (.read (BitVec.ofNat 16 (0x2000 + i)) .one) :: rest →
        (∀ b, Memory.read s.cwb i = some b →
          step s = .next { s with inputs := rest, reply := some (.byte b) }) ∧
        (Memory.read s.cwb i = none → step s = .fault .unwrittenRead)))

/-- R58, R59: a write to byte k of row r of the MOD or FUN window stores bit 7 - b in column 8 k + b for the columns
up to 176, and changes no other cell and nothing else of the block. That the port acknowledges the write, in the
model's own field reply, is the model's choice (log 15, DESIGN CHOICE). -/
def Obligations.GridWindowWrites : Prop :=
  ∀ (s : State) (r k : Nat) (v : Byte) (rest : List HostEvent), s.status.busy = false → r ≤ 176 → k ≤ 23 →
    (s.inputs = .access (.write (BitVec.ofNat 16 (0x4000 + 24 * r + k)) .one (v.setWidth 64)) :: rest →
      ∃ m, step s = .next { s with modArr := m, inputs := rest, reply := some .ack } ∧
        (∀ b, b < 8 → 8 * k + b ≤ 176 → Memory.read m (cellKey r (8 * k + b)) = some (v.getLsbD (7 - b))) ∧
        (∀ r' c, c ≤ 176 → ¬ (r' = r ∧ 8 * k ≤ c ∧ c < 8 * k + 8) →
          Memory.read m (cellKey r' c) = Memory.read s.modArr (cellKey r' c))) ∧
    (s.inputs = .access (.write (BitVec.ofNat 16 (0x6000 + 24 * r + k)) .one (v.setWidth 64)) :: rest →
      ∃ m, step s = .next { s with funArr := m, inputs := rest, reply := some .ack } ∧
        (∀ b, b < 8 → 8 * k + b ≤ 176 → Memory.read m (cellKey r (8 * k + b)) = some (v.getLsbD (7 - b))) ∧
        (∀ r' c, c ≤ 176 → ¬ (r' = r ∧ 8 * k ≤ c ∧ c < 8 * k + 8) →
          Memory.read m (cellKey r' c) = Memory.read s.funArr (cellKey r' c)))

/-- R58, R59, R63: a read of byte k of row r of the MOD or FUN window gives column 8 k + b in bit 7 - b, 0 for a
column above 176, and faults where one of its cells was never written. That byte 23 of a row, which holds no cell,
reads 0 without any cell written is read from R58 (log 16, DEDUCED). -/
def Obligations.GridWindowReads : Prop :=
  ∀ (s : State) (r k : Nat) (rest : List HostEvent), s.status.busy = false → r ≤ 176 → k ≤ 23 →
    (s.inputs = .access (.read (BitVec.ofNat 16 (0x4000 + 24 * r + k)) .one) :: rest →
      ((∀ b, b < 8 → 8 * k + b ≤ 176 → Memory.read s.modArr (cellKey r (8 * k + b)) ≠ none) →
        ∃ w, step s = .next { s with inputs := rest, reply := some (.byte w) } ∧
          ∀ b, b < 8 → some (w.getLsbD (7 - b)) =
            if 8 * k + b ≤ 176 then Memory.read s.modArr (cellKey r (8 * k + b)) else some false) ∧
      ((∃ b, b < 8 ∧ 8 * k + b ≤ 176 ∧ Memory.read s.modArr (cellKey r (8 * k + b)) = none) →
        step s = .fault .unwrittenRead)) ∧
    (s.inputs = .access (.read (BitVec.ofNat 16 (0x6000 + 24 * r + k)) .one) :: rest →
      ((∀ b, b < 8 → 8 * k + b ≤ 176 → Memory.read s.funArr (cellKey r (8 * k + b)) ≠ none) →
        ∃ w, step s = .next { s with inputs := rest, reply := some (.byte w) } ∧
          ∀ b, b < 8 → some (w.getLsbD (7 - b)) =
            if 8 * k + b ≤ 176 then Memory.read s.funArr (cellKey r (8 * k + b)) else some false) ∧
      ((∃ b, b < 8 ∧ 8 * k + b ≤ 176 ∧ Memory.read s.funArr (cellKey r (8 * k + b)) = none) →
        step s = .fault .unwrittenRead))

/-- R286: while BUSY = 1 a STATUS read is answered and changes nothing else, and every access other than that and a
CMD write is the model's fault BusyHazard. An access of an illegal width or alignment is among them: that it is the
busy hazard then, and not the HostAccessError of R54, is the model's choice (log 6, DESIGN CHOICE). -/
def Obligations.BusyHazardFaults : Prop :=
  ∀ (s : State) (a : HostAccess) (rest : List HostEvent), s.status.busy = true → s.inputs = .access a :: rest →
    (a = .read 0x0004#16 .four →
      step s = .next { s with inputs := rest, reply := some (.word s.status.word) }) ∧
    (a ≠ .read 0x0004#16 .four → (∀ v, a ≠ .write 0x0000#16 .four v) → step s = .fault .busyHazard)

/-! ## Reset and the invariant (70_reset_and_hazards.md) -/

/-- R280, R282: asserting reset puts every register at its reset value, whatever was in flight (R281), and leaves no
element of a memory written; INFO0 to INFO2 read 0. -/
def Obligations.ResetLeavesIdleAndUnwritten : Prop :=
  ∀ (s : State) (rest : List HostEvent), s.inputs = .resetInput :: rest →
    ∃ t, step s = .next t ∧ t.status = ⟨false, false, 0#3, false⟩ ∧ t.cfg = ⟨0#6, .M⟩ ∧ t.maskid = 0#3 ∧
      (∀ k, k < 8 → t.pen[k]? = some 0#32) ∧ t.part1 = 0#32 ∧ t.part2 = 0#32 ∧ t.part3 = 0#32 ∧
      t.part4 = 0#32 ∧ t.ptotal = 0#32 ∧
      (∀ k, Memory.read t.din k = none ∧ Memory.read t.cwb k = none ∧ Memory.read t.modArr k = none ∧
        Memory.read t.funArr k = none) ∧
      info0 t.cfg = 0#32 ∧ info1 t.cfg = 0#32 ∧ info2 t.cfg = 0#32

/-- The invariant holds at reset: canonical memories and a legal STATUS (R22, R36); and State.reset is what the
reset input leaves, on the block's side, of any state (R280, R284; log 5 and log 10 for the rest). -/
def Obligations.ResetMeetsInvariant : Prop :=
  State.reset.Inv ∧ ∀ (s : State) (rest : List HostEvent), s.inputs = .resetInput :: rest →
    step s = .next { State.reset with inputs := rest, reply := s.reply }

/-- Every step keeps the invariant, from every state that meets it: the four memories stay canonical and inside
their bounds (R31 to R34), BUSY = 1 implies DONE = 0 and ERR = 0, and ERR is 0 to 3 (R22, R251). -/
def Obligations.StepKeepsInvariant : Prop :=
  ∀ s t : State, s.Inv → step s = .next t → t.Inv
end

