-- ==== Sys2Proof/Laws/Memory.lean ====
section
/-! SUPPORT. What the memory operations do, said once: what reads give after each, and that each keeps the
canonical form. The read laws hold of every list, canonical or not. -/

namespace Sys2Proof.Machine

variable {α : Type}

/-! ## Reads -/

@[simp] theorem Memory.read_nil (k : Nat) : Memory.read ([] : Memory α) k = none := rfl

/-- A read looks past the elements before its own. -/
theorem Memory.read_cons_lt {c : Nat × α} {m : Memory α} {k : Nat} (h : c.1 < k) :
    Memory.read (c :: m) k = Memory.read m k := by
  simp [Memory.read, Memory.dropBelow, h]

theorem Memory.read_cons_eq {c : Nat × α} {m : Memory α} {k : Nat} (h : c.1 = k) :
    Memory.read (c :: m) k = some c.2 := by
  simp [Memory.read, Memory.dropBelow, h]

/-- A read stops at the first element past its own. -/
theorem Memory.read_cons_gt {c : Nat × α} {m : Memory α} {k : Nat} (h : k < c.1) :
    Memory.read (c :: m) k = none := by
  have h1 : ¬ c.1 < k := by omega
  have h2 : c.1 ≠ k := by omega
  simp [Memory.read, Memory.dropBelow, h1, h2]

theorem Memory.read_dropThrough {m : Memory α} {j k : Nat} (h : j < k) :
    Memory.read (Memory.dropThrough m j) k = Memory.read m k := by
  induction m with
  | nil => rfl
  | cons c m ih =>
    by_cases hc : c.1 ≤ j
    · rw [Memory.read_cons_lt (by omega), ← ih]
      simp [Memory.dropThrough, hc]
    · simp [Memory.dropThrough, hc]

theorem Memory.read_dropBelow {m : Memory α} {j k : Nat} (h : j ≤ k) :
    Memory.read (Memory.dropBelow m j) k = Memory.read m k := by
  induction m with
  | nil => rfl
  | cons c m ih =>
    by_cases hc : c.1 < j
    · rw [Memory.read_cons_lt (by omega), ← ih]
      simp [Memory.dropBelow, hc]
    · simp [Memory.dropBelow, hc]

/-- What stands before element `j` decides the reads below it. -/
theorem Memory.read_takeBelow_append {m x : Memory α} {j k : Nat} (hk : k < j)
    (hx : ∀ c ∈ x.head?, j ≤ c.1) :
    Memory.read (Memory.takeBelow m j ++ x) k = Memory.read m k := by
  have hxn : Memory.read x k = none := by
    cases x with
    | nil => rfl
    | cons c x => exact Memory.read_cons_gt (by have := hx c (by simp); omega)
  induction m with
  | nil => simpa [Memory.takeBelow] using hxn
  | cons c m ih =>
    by_cases hc : c.1 < j
    · have : Memory.takeBelow (c :: m) j = c :: Memory.takeBelow m j := by
        simp [Memory.takeBelow, hc]
      rw [this, List.cons_append]
      rcases Nat.lt_trichotomy c.1 k with h | h | h
      · rw [Memory.read_cons_lt h, Memory.read_cons_lt h, ih]
      · rw [Memory.read_cons_eq h, Memory.read_cons_eq h]
      · rw [Memory.read_cons_gt h, Memory.read_cons_gt h]
    · have : Memory.takeBelow (c :: m) j = [] := by simp [Memory.takeBelow, hc]
      rw [this, List.nil_append, hxn, Memory.read_cons_gt (by omega)]

/-- The cells before element `j` do not matter to a read at or above it. -/
theorem Memory.read_takeBelow_append_ge {m x : Memory α} {j k : Nat} (hk : j ≤ k) :
    Memory.read (Memory.takeBelow m j ++ x) k = Memory.read x k := by
  induction m with
  | nil => rfl
  | cons c m ih =>
    by_cases hc : c.1 < j
    · have : Memory.takeBelow (c :: m) j = c :: Memory.takeBelow m j := by
        simp [Memory.takeBelow, hc]
      rw [this, List.cons_append, Memory.read_cons_lt (by omega), ih]
    · have : Memory.takeBelow (c :: m) j = [] := by simp [Memory.takeBelow, hc]
      rw [this, List.nil_append]

/-- After an overlay, an element reads as the overlaid memory gives it, and as before where that lists nothing. -/
theorem Memory.read_overlay (a m : Memory α) (k : Nat) :
    Memory.read (Memory.overlay a m) k = (Memory.read a k).or (Memory.read m k) := by
  induction a generalizing m with
  | nil => simp [Memory.overlay]
  | cons c a ih =>
    rw [Memory.overlay]
    rcases Nat.lt_trichotomy c.1 k with h | h | h
    · rw [Memory.read_takeBelow_append_ge (Nat.le_of_lt h), Memory.read_cons_lt h, Memory.read_cons_lt h, ih,
        Memory.read_dropThrough h]
    · rw [Memory.read_takeBelow_append_ge (Nat.le_of_eq h), Memory.read_cons_eq h, Memory.read_cons_eq h]
      rfl
    · rw [Memory.read_takeBelow_append h (by simp), Memory.read_cons_gt h]
      rfl

/-- Read after write. -/
theorem Memory.read_write (m : Memory α) (j k : Nat) (v : α) :
    Memory.read (Memory.write m j v) k = if k = j then some v else Memory.read m k := by
  rw [Memory.write, Memory.read_overlay]
  rcases Nat.lt_trichotomy j k with h | h | h
  · rw [Memory.read_cons_lt h, if_neg (by omega)]; rfl
  · rw [Memory.read_cons_eq h, if_pos h.symm]; rfl
  · rw [Memory.read_cons_gt h, if_neg (by omega)]; rfl

@[simp] theorem Memory.read_write_same (m : Memory α) (k : Nat) (v : α) :
    Memory.read (Memory.write m k v) k = some v := by rw [Memory.read_write, if_pos rfl]

theorem Memory.read_write_other {m : Memory α} {j k : Nat} (v : α) (h : k ≠ j) :
    Memory.read (Memory.write m j v) k = Memory.read m k := by rw [Memory.read_write, if_neg h]

@[simp] theorem Memory.writeAll_nil (m : Memory α) : Memory.writeAll m [] = m := rfl

@[simp] theorem Memory.writeAll_cons (m : Memory α) (w : Nat × α) (ws : List (Nat × α)) :
    Memory.writeAll m (w :: ws) = Memory.writeAll (Memory.write m w.1 w.2) ws := rfl

theorem Memory.writeAll_append (m : Memory α) (ws xs : List (Nat × α)) :
    Memory.writeAll m (ws ++ xs) = Memory.writeAll (Memory.writeAll m ws) xs := by
  simp [Memory.writeAll, List.foldl_append]

/-- An element no write names reads as before. -/
theorem Memory.read_writeAll_of_not_mem {ws : List (Nat × α)} {k : Nat} (m : Memory α)
    (h : ∀ w ∈ ws, w.1 ≠ k) : Memory.read (Memory.writeAll m ws) k = Memory.read m k := by
  induction ws generalizing m with
  | nil => rfl
  | cons w ws ih =>
    rw [Memory.writeAll_cons, ih _ (fun x hx => h x (List.mem_cons_of_mem _ hx)),
      Memory.read_write_other _ (fun e => h w List.mem_cons_self e.symm)]

/-- Where every write to an element writes the same value, the element reads as that value. -/
theorem Memory.read_writeAll_of_mem {ws : List (Nat × α)} {k : Nat} {v : α} (m : Memory α)
    (hm : (k, v) ∈ ws) (h : ∀ w ∈ ws, w.1 = k → w.2 = v) :
    Memory.read (Memory.writeAll m ws) k = some v := by
  induction ws generalizing m with
  | nil => simp at hm
  | cons w ws ih =>
    rw [Memory.writeAll_cons]
    by_cases hin : (k, v) ∈ ws
    · exact ih _ hin (fun x hx => h x (List.mem_cons_of_mem _ hx))
    · have hw : w = (k, v) := by
        rcases List.mem_cons.1 hm with e | e
        · exact e.symm
        · exact absurd e hin
      rw [Memory.read_writeAll_of_not_mem, hw, Memory.read_write_same]
      intro x hx hk
      have := h x (List.mem_cons_of_mem _ hx) hk
      exact hin (by rw [← hk, ← this]; exact hx)

theorem Memory.read_ofList (vs : List α) (j k : Nat) :
    Memory.read (Memory.ofList j vs) k = if j ≤ k then vs[k - j]? else none := by
  induction vs generalizing j with
  | nil => simp [Memory.ofList]
  | cons v vs ih =>
    rw [Memory.ofList]
    rcases Nat.lt_trichotomy j k with h | h | h
    · rw [Memory.read_cons_lt h, ih, if_pos (by omega), if_pos (by omega)]
      have : k - j = (k - (j + 1)) + 1 := by omega
      rw [this, List.getElem?_cons_succ]
    · subst h
      rw [Memory.read_cons_eq rfl]
      simp
    · rw [Memory.read_cons_gt h, if_neg (by omega)]

theorem Memory.read_tabulate (f : Nat → α) (j n k : Nat) :
    Memory.read (Memory.tabulate f j n) k = if j ≤ k ∧ k < j + n then some (f k) else none := by
  induction n generalizing j with
  | zero => rw [if_neg (by omega)]; rfl
  | succ n ih =>
    rw [Memory.tabulate]
    rcases Nat.lt_trichotomy j k with h | h | h
    · rw [Memory.read_cons_lt h, ih]
      by_cases hk : k < j + 1 + n
      · rw [if_pos (by omega), if_pos (by omega)]
      · rw [if_neg (by omega), if_neg (by omega)]
    · subst h
      rw [Memory.read_cons_eq rfl, if_pos (by omega)]
    · rw [Memory.read_cons_gt h, if_neg (by omega)]

/-- The first element of what starts at element `k`. -/
theorem Memory.read_eq_head (m : Memory α) (k : Nat) :
    Memory.read m k = match Memory.dropBelow m k with
      | [] => none
      | c :: _ => if c.1 = k then some c.2 else none := rfl

/-- A span is the list of its elements. -/
theorem Memory.readSpan_eq_some_iff (m : Memory α) (k n : Nat) (vs : List α) :
    Memory.readSpan m k n = some vs ↔
      vs.length = n ∧ ∀ i, i < n → Memory.read m (k + i) = vs[i]? := by
  induction n generalizing m k vs with
  | zero =>
    simp only [Memory.readSpan, Option.some.injEq]
    constructor
    · rintro rfl; simp
    · rintro ⟨h, -⟩; exact (List.length_eq_zero_iff.1 h).symm
  | succ n ih =>
    have hnext : ∀ i, k + 1 ≤ i → Memory.read (Memory.dropBelow m k) i = Memory.read m i :=
      fun i hi => Memory.read_dropBelow (by omega)
    have hhead := Memory.read_eq_head m k
    rw [Memory.readSpan]
    cases hd : Memory.dropBelow m k with
    | nil =>
      rw [hd] at hhead
      simp only [reduceCtorEq, false_iff, not_and]
      intro hl h
      have := h 0 (by omega)
      rw [Nat.add_zero, hhead] at this
      cases vs with
      | nil => simp at hl
      | cons v vs => simp at this
    | cons c cs =>
      rw [hd] at hhead hnext
      by_cases hc : c.1 = k
      · simp only [if_pos hc] at hhead ⊢
        cases hs : Memory.readSpan (c :: cs) (k + 1) n with
        | none =>
          simp only [reduceCtorEq, false_iff, not_and]
          intro hl h
          cases vs with
          | nil => simp at hl
          | cons v vs =>
            have : Memory.readSpan (c :: cs) (k + 1) n = some vs := by
              rw [ih]
              refine ⟨by simpa using hl, fun i hi => ?_⟩
              rw [hnext _ (by omega)]
              have := h (i + 1) (by omega)
              rwa [show k + (i + 1) = k + 1 + i by omega, List.getElem?_cons_succ] at this
            rw [hs] at this
            exact absurd this (by simp)
        | some ws =>
          have hws := (ih (c :: cs) (k + 1) ws).1 hs
          simp only [Option.some.injEq]
          constructor
          · rintro rfl
            refine ⟨by simp [hws.1], fun i hi => ?_⟩
            cases i with
            | zero => simpa using hhead
            | succ i =>
              rw [List.getElem?_cons_succ, ← hws.2 i (by omega), hnext _ (by omega)]
              congr 1
              omega
          · rintro ⟨hl, h⟩
            cases vs with
            | nil => simp at hl
            | cons v vs =>
              have h0 := h 0 (by omega)
              rw [Nat.add_zero, hhead] at h0
              simp only [List.getElem?_cons_zero, Option.some.injEq] at h0
              have : Memory.readSpan (c :: cs) (k + 1) n = some vs := by
                rw [ih]
                refine ⟨by simpa using hl, fun i hi => ?_⟩
                rw [hnext _ (by omega)]
                have := h (i + 1) (by omega)
                rwa [show k + (i + 1) = k + 1 + i by omega, List.getElem?_cons_succ] at this
              rw [hs] at this
              rw [h0, Option.some.inj this]
      · simp only [if_neg hc] at hhead ⊢
        simp only [reduceCtorEq, false_iff, not_and]
        intro hl h
        have := h 0 (by omega)
        rw [Nat.add_zero, hhead] at this
        cases vs with
        | nil => simp at hl
        | cons v vs => simp at this

/-- A span is read exactly where each of its elements has been written. -/
theorem Memory.readSpan_isSome_iff (m : Memory α) (k n : Nat) :
    (Memory.readSpan m k n).isSome ↔ ∀ i, i < n → Memory.read m (k + i) ≠ none := by
  constructor
  · intro h i hi
    obtain ⟨vs, hvs⟩ := Option.isSome_iff_exists.1 h
    obtain ⟨hl, hr⟩ := (Memory.readSpan_eq_some_iff m k n vs).1 hvs
    rw [hr i hi, List.getElem?_eq_getElem (by omega)]
    simp
  · intro h
    let vs : List α := List.ofFn
      (fun i : Fin n => (Memory.read m (k + i)).get (Option.isSome_iff_ne_none.2 (h i i.isLt)))
    have : Memory.readSpan m k n = some vs := by
      rw [Memory.readSpan_eq_some_iff]
      refine ⟨by simp [vs], fun i hi => ?_⟩
      simp [vs, hi]
    simp [this]

/-! ## The canonical form -/

theorem Memory.wfFrom_mono {bound lo lo' : Nat} {m : Memory α} (h : lo ≤ lo')
    (hm : Memory.wfFrom bound lo' m = true) : Memory.wfFrom bound lo m = true := by
  cases m with
  | nil => rfl
  | cons c m =>
    simp only [Memory.wfFrom, Bool.and_eq_true, decide_eq_true_eq] at hm ⊢
    exact ⟨⟨by omega, hm.1.2⟩, hm.2⟩

/-- In a canonical memory from `lo` on, no element below `lo` is listed. -/
theorem Memory.read_eq_none_of_lt {bound lo : Nat} {m : Memory α} (hm : Memory.wfFrom bound lo m = true)
    {k : Nat} (h : k < lo) : Memory.read m k = none := by
  cases m with
  | nil => rfl
  | cons c m =>
    simp only [Memory.wfFrom, Bool.and_eq_true, decide_eq_true_eq] at hm
    exact Memory.read_cons_gt (by omega)

/-- No element outside a canonical memory is listed. -/
theorem Memory.read_eq_none_of_ge {bound lo : Nat} {m : Memory α} (hm : Memory.wfFrom bound lo m = true)
    {k : Nat} (h : bound ≤ k) : Memory.read m k = none := by
  induction m generalizing lo with
  | nil => rfl
  | cons c m ih =>
    simp only [Memory.wfFrom, Bool.and_eq_true, decide_eq_true_eq] at hm
    rw [Memory.read_cons_lt (by omega)]
    exact ih hm.2

/-- Two canonical memories with the same reads are the same data. -/
theorem Memory.ext_of_wfFrom {bound lo : Nat} {m m' : Memory α} (hm : Memory.wfFrom bound lo m = true)
    (hm' : Memory.wfFrom bound lo m' = true) (h : ∀ k, Memory.read m k = Memory.read m' k) : m = m' := by
  induction m generalizing lo m' with
  | nil =>
    cases m' with
    | nil => rfl
    | cons c m' =>
      have := h c.1
      rw [Memory.read_cons_eq rfl] at this
      simp at this
  | cons c m ih =>
    cases m' with
    | nil =>
      have := h c.1
      rw [Memory.read_cons_eq rfl] at this
      simp at this
    | cons c' m' =>
      have hc : c.1 = c'.1 := by
        rcases Nat.lt_trichotomy c.1 c'.1 with g | g | g
        · have := h c.1
          rw [Memory.read_cons_eq rfl, Memory.read_cons_gt g] at this
          simp at this
        · exact g
        · have := h c'.1
          rw [Memory.read_cons_eq (c := c') rfl, Memory.read_cons_gt g] at this
          simp at this
      have hv : c.2 = c'.2 := by
        have := h c.1
        rw [Memory.read_cons_eq rfl, Memory.read_cons_eq hc.symm] at this
        simpa using this
      simp only [Memory.wfFrom, Bool.and_eq_true, decide_eq_true_eq] at hm hm'
      have hcc : c = c' := Prod.ext hc hv
      subst hcc
      rw [ih hm.2 hm'.2]
      intro k
      rcases Nat.lt_or_ge c.1 k with g | g
      · have := h k
        rwa [Memory.read_cons_lt g, Memory.read_cons_lt g] at this
      · rw [Memory.read_eq_none_of_lt hm.2 (by omega), Memory.read_eq_none_of_lt hm'.2 (by omega)]

theorem Memory.wf_ext {bound : Nat} {m m' : Memory α} (hm : Memory.wf bound m = true)
    (hm' : Memory.wf bound m' = true) (h : ∀ k, Memory.read m k = Memory.read m' k) : m = m' :=
  Memory.ext_of_wfFrom hm hm' h

theorem Memory.wfFrom_dropThrough {bound lo : Nat} {m : Memory α} (hm : Memory.wfFrom bound lo m = true)
    (k : Nat) : Memory.wfFrom bound (max lo (k + 1)) (Memory.dropThrough m k) = true := by
  induction m generalizing lo with
  | nil => rfl
  | cons c m ih =>
    simp only [Memory.wfFrom, Bool.and_eq_true, decide_eq_true_eq] at hm
    by_cases hc : c.1 ≤ k
    · have : Memory.dropThrough (c :: m) k = Memory.dropThrough m k := by
        simp [Memory.dropThrough, hc]
      rw [this]
      exact Memory.wfFrom_mono (by omega) (ih hm.2)
    · have : Memory.dropThrough (c :: m) k = c :: m := by
        simp [Memory.dropThrough, hc]
      rw [this]
      simp only [Memory.wfFrom, Bool.and_eq_true, decide_eq_true_eq]
      exact ⟨⟨by omega, hm.1.2⟩, hm.2⟩

theorem Memory.wfFrom_takeBelow_append {bound lo : Nat} {m x : Memory α} {k : Nat}
    (hm : Memory.wfFrom bound lo m = true) (hk : lo ≤ k) (hx : Memory.wfFrom bound k x = true) :
    Memory.wfFrom bound lo (Memory.takeBelow m k ++ x) = true := by
  induction m generalizing lo with
  | nil => exact Memory.wfFrom_mono hk hx
  | cons c m ih =>
    simp only [Memory.wfFrom, Bool.and_eq_true, decide_eq_true_eq] at hm
    by_cases hc : c.1 < k
    · have : Memory.takeBelow (c :: m) k = c :: Memory.takeBelow m k := by
        simp [Memory.takeBelow, hc]
      rw [this, List.cons_append]
      simp only [Memory.wfFrom, Bool.and_eq_true, decide_eq_true_eq]
      exact ⟨hm.1, ih hm.2 (by omega)⟩
    · have : Memory.takeBelow (c :: m) k = [] := by simp [Memory.takeBelow, hc]
      rw [this, List.nil_append]
      exact Memory.wfFrom_mono hk hx

theorem Memory.wfFrom_overlay {bound lo : Nat} {a m : Memory α} (ha : Memory.wfFrom bound lo a = true)
    (hm : Memory.wfFrom bound lo m = true) : Memory.wfFrom bound lo (Memory.overlay a m) = true := by
  induction a generalizing lo m with
  | nil => exact hm
  | cons c a ih =>
    simp only [Memory.wfFrom, Bool.and_eq_true, decide_eq_true_eq] at ha
    rw [Memory.overlay]
    refine Memory.wfFrom_takeBelow_append hm ha.1.1 ?_
    simp only [Memory.wfFrom, Bool.and_eq_true, decide_eq_true_eq]
    refine ⟨⟨Nat.le_refl _, ha.1.2⟩, ih ha.2 ?_⟩
    exact Memory.wfFrom_mono (by omega) (Memory.wfFrom_dropThrough hm c.1)

theorem Memory.wf_nil (bound : Nat) : Memory.wf bound ([] : Memory α) = true := rfl

theorem Memory.wf_overlay {bound : Nat} {a m : Memory α} (ha : Memory.wf bound a = true)
    (hm : Memory.wf bound m = true) : Memory.wf bound (Memory.overlay a m) = true :=
  Memory.wfFrom_overlay ha hm

theorem Memory.wf_write {bound k : Nat} {m : Memory α} (v : α) (hk : k < bound)
    (hm : Memory.wf bound m = true) : Memory.wf bound (Memory.write m k v) = true :=
  Memory.wf_overlay (by simp [Memory.wf, Memory.wfFrom, hk]) hm

theorem Memory.wf_writeAll {bound : Nat} {m : Memory α} {ws : List (Nat × α)} (hws : ∀ w ∈ ws, w.1 < bound)
    (hm : Memory.wf bound m = true) : Memory.wf bound (Memory.writeAll m ws) = true := by
  induction ws generalizing m with
  | nil => exact hm
  | cons w ws ih =>
    rw [Memory.writeAll_cons]
    exact ih (fun x hx => hws x (List.mem_cons_of_mem _ hx)) (Memory.wf_write _ (hws w List.mem_cons_self) hm)

theorem Memory.wfFrom_ofList {bound k : Nat} {vs : List α} (h : k + vs.length ≤ bound) :
    Memory.wfFrom bound k (Memory.ofList k vs) = true := by
  induction vs generalizing k with
  | nil => rfl
  | cons v vs ih =>
    rw [List.length_cons] at h
    simp only [Memory.ofList, Memory.wfFrom, Bool.and_eq_true, decide_eq_true_eq]
    exact ⟨⟨Nat.le_refl _, by omega⟩, ih (by omega)⟩

theorem Memory.wf_ofList {bound : Nat} {vs : List α} (h : vs.length ≤ bound) :
    Memory.wf bound (Memory.ofList 0 vs) = true := Memory.wfFrom_ofList (by omega)

theorem Memory.wfFrom_tabulate {bound k n : Nat} (f : Nat → α) (h : k + n ≤ bound) :
    Memory.wfFrom bound k (Memory.tabulate f k n) = true := by
  induction n generalizing k with
  | zero => rfl
  | succ n ih =>
    simp only [Memory.tabulate, Memory.wfFrom, Bool.and_eq_true, decide_eq_true_eq]
    exact ⟨⟨Nat.le_refl _, by omega⟩, ih (by omega)⟩

theorem Memory.wf_tabulate {bound : Nat} (f : Nat → α) :
    Memory.wf bound (Memory.tabulate f 0 bound) = true := Memory.wfFrom_tabulate f (by omega)

/-- Two canonical pieces, the second after the first. -/
theorem Memory.wfFrom_append {bound lo k : Nat} {a b : Memory α} (ha : Memory.wfFrom k lo a = true)
    (hk : k ≤ bound) (hlo : lo ≤ k) (hb : Memory.wfFrom bound k b = true) : Memory.wfFrom bound lo (a ++ b) = true := by
  induction a generalizing lo with
  | nil => exact Memory.wfFrom_mono hlo hb
  | cons c a ih =>
    simp only [Memory.wfFrom, Bool.and_eq_true, decide_eq_true_eq] at ha
    simp only [List.cons_append, Memory.wfFrom, Bool.and_eq_true, decide_eq_true_eq]
    exact ⟨⟨ha.1.1, by omega⟩, ih ha.2 (by omega)⟩

end Sys2Proof.Machine
end

