-- ==== Sys2Proof/Laws/Grid.lean ====
section
/-! SUPPORT. The square of a grid array: what reading and writing it do, cell by cell, and what masking does. -/

namespace Sys2Proof.Machine

/-! ## Cell numbers -/

theorem cellKey_div {r c : Nat} (hc : c < 177) : cellKey r c / 177 = r := by unfold cellKey; omega
theorem cellKey_mod {r c : Nat} (hc : c < 177) : cellKey r c % 177 = c := by unfold cellKey; omega
theorem cellKey_divMod (k : Nat) : cellKey (k / 177) (k % 177) = k := by unfold cellKey; omega
theorem cellKey_lt {r c : Nat} (hr : r < 177) (hc : c < 177) : cellKey r c < Config.gridCells := by
  unfold cellKey Config.gridCells; omega
theorem cellKey_inj {r c r' c' : Nat} (hc : c < 177) (hc' : c' < 177) (h : cellKey r c = cellKey r' c') :
    r = r' ∧ c = c' := by
  unfold cellKey at h; omega
theorem cellKey_add (r c i : Nat) : cellKey r c + i = cellKey r (c + i) := by unfold cellKey; omega

/-! ## Grids -/

theorem Grid.cell_eq_of_getElem? {g : Grid} {r c : Nat} {row : List Bool} {b : Bool} (hr : g[r]? = some row)
    (hc : row[c]? = some b) : g.cell r c = b := by
  simp [Grid.cell, List.getD, hr, hc]

theorem Grid.isSquare_row {g : Grid} {size r : Nat} (h : g.isSquare size) (hr : r < size) :
    ∃ row, g[r]? = some row ∧ row.length = size := by
  have : r < g.length := by rw [h.1]; exact hr
  exact ⟨g[r], by simp [this], h.2 _ (List.getElem_mem this)⟩

/-- Inside a square grid, the cell is there. -/
theorem Grid.isSquare_cell {g : Grid} {size r c : Nat} (h : g.isSquare size) (hr : r < size) (hc : c < size) :
    (g[r]?.bind (fun row => row[c]?)) = some (g.cell r c) := by
  obtain ⟨row, hrow, hlen⟩ := Grid.isSquare_row h hr
  have hc' : row[c]? = some row[c] := by simp [hlen, hc]
  simp [Grid.cell, List.getD, hrow, hc']

/-- Two square grids with the same cells are the same grid. -/
theorem Grid.ext_of_isSquare {g g' : Grid} {size : Nat} (h : g.isSquare size) (h' : g'.isSquare size)
    (hc : ∀ r c, r < size → c < size → g.cell r c = g'.cell r c) : g = g' := by
  apply List.ext_getElem (by rw [h.1, h'.1])
  intro r hr hr'
  have hlen := h.2 _ (List.getElem_mem hr)
  have hlen' := h'.2 _ (List.getElem_mem hr')
  apply List.ext_getElem (by rw [hlen, hlen'])
  intro c hc1 hc2
  have := hc r c (by rw [← h.1]; exact hr) (by rw [← hlen]; exact hc1)
  simpa [Grid.cell, List.getD, hr, hr', hc1, hc2] using this

/-! ## Reading the square -/

theorem readRows_eq_some_iff (m : Memory Bool) (size r n : Nat) (g : Grid) :
    readRows m size r n = some g ↔
      g.length = n ∧ ∀ i, i < n → Memory.readSpan m (cellKey (r + i) 0) size = g[i]? := by
  induction n generalizing r g with
  | zero =>
    simp only [readRows, Option.some.injEq]
    constructor
    · rintro rfl; simp
    · rintro ⟨h, -⟩; exact (List.length_eq_zero_iff.1 h).symm
  | succ n ih =>
    rw [readRows]
    cases hs : Memory.readSpan m (cellKey r 0) size with
    | none =>
      simp only [reduceCtorEq, false_iff, not_and]
      intro hl h
      have := h 0 (by omega)
      rw [Nat.add_zero, hs] at this
      cases g with
      | nil => simp at hl
      | cons row g => simp at this
    | some row =>
      cases hr : readRows m size (r + 1) n with
      | none =>
        simp only [reduceCtorEq, false_iff, not_and]
        intro hl h
        cases g with
        | nil => simp at hl
        | cons row' g =>
          have : readRows m size (r + 1) n = some g := by
            rw [ih]
            refine ⟨by simpa using hl, fun i hi => ?_⟩
            have := h (i + 1) (by omega)
            rwa [show r + (i + 1) = r + 1 + i by omega, List.getElem?_cons_succ] at this
          rw [hr] at this
          exact absurd this (by simp)
      | some rows =>
        have hrows := (ih (r + 1) rows).1 hr
        simp only [Option.some.injEq]
        constructor
        · rintro rfl
          refine ⟨by simp [hrows.1], fun i hi => ?_⟩
          cases i with
          | zero => simpa using hs
          | succ i =>
            rw [List.getElem?_cons_succ, ← hrows.2 i (by omega), show r + (i + 1) = r + 1 + i by omega]
        · rintro ⟨hl, h⟩
          cases g with
          | nil => simp at hl
          | cons row' g =>
            have h0 := h 0 (by omega)
            rw [Nat.add_zero, hs] at h0
            simp only [List.getElem?_cons_zero, Option.some.injEq] at h0
            have : readRows m size (r + 1) n = some g := by
              rw [ih]
              refine ⟨by simpa using hl, fun i hi => ?_⟩
              have := h (i + 1) (by omega)
              rwa [show r + (i + 1) = r + 1 + i by omega, List.getElem?_cons_succ] at this
            rw [hr] at this
            rw [h0, Option.some.inj this]

/-- A square is read exactly as the square grid of its cells. -/
theorem readSquare_eq_some_iff (m : Memory Bool) (size : Nat) (g : Grid) :
    readSquare m size = some g ↔
      g.isSquare size ∧ ∀ r c, r < size → c < size → Memory.read m (cellKey r c) = some (g.cell r c) := by
  rw [readSquare, readRows_eq_some_iff]
  constructor
  · rintro ⟨hl, h⟩
    have hrow : ∀ i, i < size → ∃ row, g[i]? = some row ∧ row.length = size ∧
        ∀ c, c < size → Memory.read m (cellKey i c) = row[c]? := by
      intro i hi
      have hlt : i < g.length := by omega
      have := h i hi
      rw [Nat.zero_add, List.getElem?_eq_getElem hlt, Memory.readSpan_eq_some_iff] at this
      refine ⟨g[i], by simp [hlt], this.1, fun c hc => ?_⟩
      have := this.2 c hc
      rwa [cellKey_add, Nat.zero_add] at this
    have hsq : g.isSquare size := by
      refine ⟨hl, fun row hmem => ?_⟩
      obtain ⟨i, hi, rfl⟩ := List.getElem_of_mem hmem
      obtain ⟨row, h1, h2, -⟩ := hrow i (by omega)
      rw [List.getElem?_eq_getElem hi, Option.some.injEq] at h1
      rw [h1, h2]
    refine ⟨hsq, fun r c hr hc => ?_⟩
    obtain ⟨row, h1, -, h3⟩ := hrow r hr
    have := Grid.isSquare_cell hsq hr hc
    rw [h1, Option.bind_some] at this
    rw [h3 c hc, this]
  · rintro ⟨hsq, h⟩
    refine ⟨hsq.1, fun i hi => ?_⟩
    obtain ⟨row, h1, h2⟩ := Grid.isSquare_row hsq hi
    rw [Nat.zero_add, h1, Memory.readSpan_eq_some_iff]
    refine ⟨h2, fun c hc => ?_⟩
    rw [cellKey_add, Nat.zero_add, h i c hi hc]
    have := Grid.isSquare_cell hsq hi hc
    rw [h1, Option.bind_some] at this
    exact this.symm

/-- A square is read exactly where each of its cells has been written. -/
theorem readSquare_isSome_iff (m : Memory Bool) (size : Nat) :
    (readSquare m size).isSome ↔ squareWritten m size := by
  constructor
  · intro h r c hr hc
    obtain ⟨g, hg⟩ := Option.isSome_iff_exists.1 h
    rw [((readSquare_eq_some_iff m size g).1 hg).2 r c hr hc]
    simp
  · intro h
    let g : Grid := List.ofFn (fun r : Fin size => List.ofFn (fun c : Fin size =>
      (Memory.read m (cellKey r c)).get (Option.isSome_iff_ne_none.2 (h r c r.isLt c.isLt))))
    have : readSquare m size = some g := by
      rw [readSquare_eq_some_iff]
      refine ⟨⟨by simp [g], ?_⟩, fun r c hr hc => ?_⟩
      · intro row hrow
        obtain ⟨i, rfl⟩ := List.mem_ofFn.1 hrow
        simp
      · obtain ⟨b, hb⟩ := Option.ne_none_iff_exists'.1 (h r c hr hc)
        simp [g, Grid.cell, List.getD, hr, hc, hb]
    simp [this]

/-! ## Writing the square -/

theorem Memory.read_append {bound lo k : Nat} {α : Type} {a b : Memory α} (ha : Memory.wfFrom k lo a = true)
    (hb : Memory.wfFrom bound k b = true) (j : Nat) :
    Memory.read (a ++ b) j = if j < k then Memory.read a j else Memory.read b j := by
  induction a generalizing lo with
  | nil =>
    by_cases hj : j < k
    · rw [if_pos hj, List.nil_append, Memory.read_eq_none_of_lt hb hj]; rfl
    · rw [if_neg hj]; rfl
  | cons c a ih =>
    simp only [Memory.wfFrom, Bool.and_eq_true, decide_eq_true_eq] at ha
    rw [List.cons_append]
    rcases Nat.lt_trichotomy c.1 j with h | h | h
    · rw [Memory.read_cons_lt h, Memory.read_cons_lt h, ih ha.2]
    · rw [Memory.read_cons_eq h, Memory.read_cons_eq h, if_pos (by omega)]
    · rw [Memory.read_cons_gt h, Memory.read_cons_gt h, if_pos (by omega)]

theorem rowCells_wfFrom {size r : Nat} {g : Grid} (hs : size ≤ 177) (hg : ∀ row ∈ g, row.length = size)
    (hr : r + g.length ≤ 177) : Memory.wfFrom Config.gridCells (cellKey r 0) (rowCells r g) = true := by
  induction g generalizing r with
  | nil => rfl
  | cons row g ih =>
    rw [List.length_cons] at hr
    have hlen := hg row List.mem_cons_self
    rw [rowCells]
    refine Memory.wfFrom_append (k := cellKey (r + 1) 0) (Memory.wfFrom_ofList ?_) ?_ ?_ ?_
    · unfold cellKey; omega
    · unfold cellKey Config.gridCells; omega
    · unfold cellKey; omega
    · exact ih (fun x hx => hg x (List.mem_cons_of_mem _ hx)) (by omega)

theorem rowCells_wf {size : Nat} {g : Grid} (hs : size ≤ 177) (hg : g.isSquare size) :
    Memory.wf Config.gridCells (rowCells 0 g) = true :=
  rowCells_wfFrom (r := 0) hs hg.2 (by rw [hg.1]; omega)

theorem read_rowCells {size r0 : Nat} {g : Grid} (hs : size ≤ 177) (hg : ∀ row ∈ g, row.length = size)
    (hr0 : r0 + g.length ≤ 177) {r c : Nat} (hr : r0 ≤ r) (hc : c < 177) :
    Memory.read (rowCells r0 g) (cellKey r c) = g[r - r0]?.bind (fun row => row[c]?) := by
  induction g generalizing r0 with
  | nil => simp [rowCells]
  | cons row g ih =>
    have hlen := hg row List.mem_cons_self
    have hrest := rowCells_wfFrom (r := r0 + 1) hs (fun x hx => hg x (List.mem_cons_of_mem _ hx))
      (by rw [List.length_cons] at hr0; omega)
    have hrow : Memory.wfFrom (cellKey (r0 + 1) 0) (cellKey r0 0) (Memory.ofList (cellKey r0 0) row) = true :=
      Memory.wfFrom_ofList (by unfold cellKey; omega)
    rw [rowCells, Memory.read_append hrow hrest]
    by_cases h : r = r0
    · subst h
      rw [if_pos (by unfold cellKey; omega), Memory.read_ofList, if_pos (by unfold cellKey; omega)]
      have : cellKey r c - cellKey r 0 = c := by unfold cellKey; omega
      simp [this]
    · rw [if_neg (by unfold cellKey; omega), ih (fun x hx => hg x (List.mem_cons_of_mem _ hx))
        (by rw [List.length_cons] at hr0; omega) (by omega)]
      have : r - r0 = (r - (r0 + 1)) + 1 := by omega
      rw [this, List.getElem?_cons_succ]

/-- After the square is written, its cells read as the grid's and every other cell as before. -/
theorem read_writeSquare {size : Nat} {g : Grid} (hs : size ≤ 177) (hg : g.isSquare size) (m : Memory Bool)
    {r c : Nat} (hc : c < 177) :
    Memory.read (writeSquare m g) (cellKey r c) =
      if r < size ∧ c < size then some (g.cell r c) else Memory.read m (cellKey r c) := by
  rw [writeSquare, Memory.read_overlay, read_rowCells hs hg.2 (by rw [hg.1]; omega) (Nat.zero_le _) hc,
    Nat.sub_zero]
  by_cases h : r < size ∧ c < size
  · rw [if_pos h, Grid.isSquare_cell hg h.1 h.2]; rfl
  · rw [if_neg h]
    have : g[r]?.bind (fun row => row[c]?) = none := by
      by_cases hr : r < size
      · obtain ⟨row, h1, h2⟩ := Grid.isSquare_row hg hr
        simp only [h1, Option.bind_some]
        rw [List.getElem?_eq_none]
        omega
      · rw [List.getElem?_eq_none (by rw [hg.1]; omega)]; rfl
    rw [this]; rfl

theorem wf_writeSquare {size : Nat} {g : Grid} (hs : size ≤ 177) (hg : g.isSquare size) {m : Memory Bool}
    (hm : Memory.wf Config.gridCells m = true) : Memory.wf Config.gridCells (writeSquare m g) = true :=
  Memory.wf_overlay (rowCells_wf hs hg) hm

/-- The square just written is the square read. -/
theorem readSquare_writeSquare {size : Nat} {g : Grid} (hs : size ≤ 177) (hg : g.isSquare size) (m : Memory Bool) :
    readSquare (writeSquare m g) size = some g := by
  rw [readSquare_eq_some_iff]
  refine ⟨hg, fun r c hr hc => ?_⟩
  rw [read_writeSquare hs hg m (by omega), if_pos ⟨hr, hc⟩]

/-- Two canonical grid arrays with the same cells are the same data. -/
theorem gridArray_ext {m m' : Memory Bool} (hm : Memory.wf Config.gridCells m = true)
    (hm' : Memory.wf Config.gridCells m' = true)
    (h : ∀ r c, c < 177 → Memory.read m (cellKey r c) = Memory.read m' (cellKey r c)) : m = m' := by
  refine Memory.wf_ext hm hm' (fun k => ?_)
  have := h (k / 177) (k % 177) (Nat.mod_lt _ (by omega))
  rwa [cellKey_divMod] at this

/-! ## Masking -/

theorem maskRow_length (m : BitVec 3) (r c : Nat) (g f : List Bool) :
    (maskRow m r c g f).length = min g.length f.length := by
  induction g generalizing c f with
  | nil => simp [maskRow]
  | cons b g ih =>
    cases f with
    | nil => simp [maskRow]
    | cons x f => simp only [maskRow, List.length_cons, ih]; omega

theorem maskRow_getElem? (m : BitVec 3) (r c i : Nat) {g f : List Bool} {b x : Bool} (hb : g[i]? = some b)
    (hx : f[i]? = some x) : (maskRow m r c g f)[i]? = some (b ^^ (!x && maskFn m r (c + i))) := by
  induction g generalizing c f i with
  | nil => simp at hb
  | cons b' g ih =>
    cases f with
    | nil => simp at hx
    | cons x' f =>
      cases i with
      | zero =>
        simp only [List.getElem?_cons_zero, Option.some.injEq] at hb hx
        subst hb hx
        simp [maskRow]
      | succ i =>
        simp only [List.getElem?_cons_succ] at hb hx
        rw [maskRow, List.getElem?_cons_succ, ih (c + 1) i hb hx, show c + 1 + i = c + (i + 1) by omega]

theorem maskRows_length (m : BitVec 3) (r : Nat) (g f : Grid) :
    (maskRows m r g f).length = min g.length f.length := by
  induction g generalizing r f with
  | nil => simp [maskRows]
  | cons b g ih =>
    cases f with
    | nil => simp [maskRows]
    | cons x f => simp only [maskRows, List.length_cons, ih]; omega

theorem maskRows_getElem? (m : BitVec 3) (r i : Nat) {g f : Grid} {b x : List Bool} (hb : g[i]? = some b)
    (hx : f[i]? = some x) : (maskRows m r g f)[i]? = some (maskRow m (r + i) 0 b x) := by
  induction g generalizing r f i with
  | nil => simp at hb
  | cons b' g ih =>
    cases f with
    | nil => simp at hx
    | cons x' f =>
      cases i with
      | zero =>
        simp only [List.getElem?_cons_zero, Option.some.injEq] at hb hx
        subst hb hx
        simp [maskRows]
      | succ i =>
        simp only [List.getElem?_cons_succ] at hb hx
        rw [maskRows, List.getElem?_cons_succ, ih (r + 1) i hb hx, show r + 1 + i = r + (i + 1) by omega]

theorem masked_isSquare {size : Nat} {f g : Grid} (hf : f.isSquare size) (hg : g.isSquare size) (m : BitVec 3) :
    (masked f g m).isSquare size := by
  refine ⟨by rw [masked, maskRows_length, hf.1, hg.1]; omega, fun row hrow => ?_⟩
  obtain ⟨i, hi, rfl⟩ := List.getElem_of_mem hrow
  have hi' : i < size := by rw [masked, maskRows_length, hf.1, hg.1] at hi; omega
  obtain ⟨b, hb, hbl⟩ := Grid.isSquare_row hg hi'
  obtain ⟨x, hx, hxl⟩ := Grid.isSquare_row hf hi'
  have := maskRows_getElem? m 0 i hb hx
  rw [← masked, List.getElem?_eq_getElem hi, Option.some.injEq] at this
  rw [this, maskRow_length, hbl, hxl]
  omega

/-- R211, cell by cell. -/
theorem masked_cell {size : Nat} {f g : Grid} (hf : f.isSquare size) (hg : g.isSquare size) (m : BitVec 3)
    {r c : Nat} (hr : r < size) (hc : c < size) :
    (masked f g m).cell r c = (g.cell r c ^^ (!f.cell r c && maskFn m r c)) := by
  obtain ⟨b, hb, hbl⟩ := Grid.isSquare_row hg hr
  obtain ⟨x, hx, hxl⟩ := Grid.isSquare_row hf hr
  have hb' : b[c]? = some b[c] := by simp [hbl, hc]
  have hx' : x[c]? = some x[c] := by simp [hxl, hc]
  have h1 := maskRows_getElem? m 0 r hb hx
  have h2 := maskRow_getElem? m (0 + r) 0 c hb' hx'
  rw [masked, Grid.cell_eq_of_getElem? h1 h2, Grid.cell_eq_of_getElem? hb hb', Grid.cell_eq_of_getElem? hx hx']
  simp

end Sys2Proof.Machine
end

