-- ==== Sys2Proof/Laws/State.lean ====
section
/-! SUPPORT. One lemma for each field of State under each update, and what two updates of one field do. -/

namespace Sys2Proof.Machine

@[simp] theorem State.setStatus_status (s : State) (t : Status) : (s.setStatus t).status = t := rfl
@[simp] theorem State.setStatus_cfg (s : State) (t : Status) : (s.setStatus t).cfg = s.cfg := rfl
@[simp] theorem State.setStatus_maskid (s : State) (t : Status) : (s.setStatus t).maskid = s.maskid := rfl
@[simp] theorem State.setStatus_pen (s : State) (t : Status) : (s.setStatus t).pen = s.pen := rfl
@[simp] theorem State.setStatus_part1 (s : State) (t : Status) : (s.setStatus t).part1 = s.part1 := rfl
@[simp] theorem State.setStatus_part2 (s : State) (t : Status) : (s.setStatus t).part2 = s.part2 := rfl
@[simp] theorem State.setStatus_part3 (s : State) (t : Status) : (s.setStatus t).part3 = s.part3 := rfl
@[simp] theorem State.setStatus_part4 (s : State) (t : Status) : (s.setStatus t).part4 = s.part4 := rfl
@[simp] theorem State.setStatus_ptotal (s : State) (t : Status) : (s.setStatus t).ptotal = s.ptotal := rfl
@[simp] theorem State.setStatus_pendcmd (s : State) (t : Status) : (s.setStatus t).pendcmd = s.pendcmd := rfl
@[simp] theorem State.setStatus_din (s : State) (t : Status) : (s.setStatus t).din = s.din := rfl
@[simp] theorem State.setStatus_cwb (s : State) (t : Status) : (s.setStatus t).cwb = s.cwb := rfl
@[simp] theorem State.setStatus_modArr (s : State) (t : Status) : (s.setStatus t).modArr = s.modArr := rfl
@[simp] theorem State.setStatus_funArr (s : State) (t : Status) : (s.setStatus t).funArr = s.funArr := rfl
@[simp] theorem State.setStatus_inputs (s : State) (t : Status) : (s.setStatus t).inputs = s.inputs := rfl
@[simp] theorem State.setStatus_reply (s : State) (t : Status) : (s.setStatus t).reply = s.reply := rfl

@[simp] theorem State.setCfg_status (s : State) (c : Cfg) : (s.setCfg c).status = s.status := rfl
@[simp] theorem State.setCfg_cfg (s : State) (c : Cfg) : (s.setCfg c).cfg = c := rfl
@[simp] theorem State.setCfg_maskid (s : State) (c : Cfg) : (s.setCfg c).maskid = s.maskid := rfl
@[simp] theorem State.setCfg_pen (s : State) (c : Cfg) : (s.setCfg c).pen = s.pen := rfl
@[simp] theorem State.setCfg_part1 (s : State) (c : Cfg) : (s.setCfg c).part1 = s.part1 := rfl
@[simp] theorem State.setCfg_part2 (s : State) (c : Cfg) : (s.setCfg c).part2 = s.part2 := rfl
@[simp] theorem State.setCfg_part3 (s : State) (c : Cfg) : (s.setCfg c).part3 = s.part3 := rfl
@[simp] theorem State.setCfg_part4 (s : State) (c : Cfg) : (s.setCfg c).part4 = s.part4 := rfl
@[simp] theorem State.setCfg_ptotal (s : State) (c : Cfg) : (s.setCfg c).ptotal = s.ptotal := rfl
@[simp] theorem State.setCfg_pendcmd (s : State) (c : Cfg) : (s.setCfg c).pendcmd = s.pendcmd := rfl
@[simp] theorem State.setCfg_din (s : State) (c : Cfg) : (s.setCfg c).din = s.din := rfl
@[simp] theorem State.setCfg_cwb (s : State) (c : Cfg) : (s.setCfg c).cwb = s.cwb := rfl
@[simp] theorem State.setCfg_modArr (s : State) (c : Cfg) : (s.setCfg c).modArr = s.modArr := rfl
@[simp] theorem State.setCfg_funArr (s : State) (c : Cfg) : (s.setCfg c).funArr = s.funArr := rfl
@[simp] theorem State.setCfg_inputs (s : State) (c : Cfg) : (s.setCfg c).inputs = s.inputs := rfl
@[simp] theorem State.setCfg_reply (s : State) (c : Cfg) : (s.setCfg c).reply = s.reply := rfl

@[simp] theorem State.setMaskid_status (s : State) (m : BitVec 3) : (s.setMaskid m).status = s.status := rfl
@[simp] theorem State.setMaskid_cfg (s : State) (m : BitVec 3) : (s.setMaskid m).cfg = s.cfg := rfl
@[simp] theorem State.setMaskid_maskid (s : State) (m : BitVec 3) : (s.setMaskid m).maskid = m := rfl
@[simp] theorem State.setMaskid_pen (s : State) (m : BitVec 3) : (s.setMaskid m).pen = s.pen := rfl
@[simp] theorem State.setMaskid_part1 (s : State) (m : BitVec 3) : (s.setMaskid m).part1 = s.part1 := rfl
@[simp] theorem State.setMaskid_part2 (s : State) (m : BitVec 3) : (s.setMaskid m).part2 = s.part2 := rfl
@[simp] theorem State.setMaskid_part3 (s : State) (m : BitVec 3) : (s.setMaskid m).part3 = s.part3 := rfl
@[simp] theorem State.setMaskid_part4 (s : State) (m : BitVec 3) : (s.setMaskid m).part4 = s.part4 := rfl
@[simp] theorem State.setMaskid_ptotal (s : State) (m : BitVec 3) : (s.setMaskid m).ptotal = s.ptotal := rfl
@[simp] theorem State.setMaskid_pendcmd (s : State) (m : BitVec 3) : (s.setMaskid m).pendcmd = s.pendcmd := rfl
@[simp] theorem State.setMaskid_din (s : State) (m : BitVec 3) : (s.setMaskid m).din = s.din := rfl
@[simp] theorem State.setMaskid_cwb (s : State) (m : BitVec 3) : (s.setMaskid m).cwb = s.cwb := rfl
@[simp] theorem State.setMaskid_modArr (s : State) (m : BitVec 3) : (s.setMaskid m).modArr = s.modArr := rfl
@[simp] theorem State.setMaskid_funArr (s : State) (m : BitVec 3) : (s.setMaskid m).funArr = s.funArr := rfl
@[simp] theorem State.setMaskid_inputs (s : State) (m : BitVec 3) : (s.setMaskid m).inputs = s.inputs := rfl
@[simp] theorem State.setMaskid_reply (s : State) (m : BitVec 3) : (s.setMaskid m).reply = s.reply := rfl

@[simp] theorem State.setPen_status (s : State) (p : Vector Word 8) : (s.setPen p).status = s.status := rfl
@[simp] theorem State.setPen_cfg (s : State) (p : Vector Word 8) : (s.setPen p).cfg = s.cfg := rfl
@[simp] theorem State.setPen_maskid (s : State) (p : Vector Word 8) : (s.setPen p).maskid = s.maskid := rfl
@[simp] theorem State.setPen_pen (s : State) (p : Vector Word 8) : (s.setPen p).pen = p := rfl
@[simp] theorem State.setPen_part1 (s : State) (p : Vector Word 8) : (s.setPen p).part1 = s.part1 := rfl
@[simp] theorem State.setPen_part2 (s : State) (p : Vector Word 8) : (s.setPen p).part2 = s.part2 := rfl
@[simp] theorem State.setPen_part3 (s : State) (p : Vector Word 8) : (s.setPen p).part3 = s.part3 := rfl
@[simp] theorem State.setPen_part4 (s : State) (p : Vector Word 8) : (s.setPen p).part4 = s.part4 := rfl
@[simp] theorem State.setPen_ptotal (s : State) (p : Vector Word 8) : (s.setPen p).ptotal = s.ptotal := rfl
@[simp] theorem State.setPen_pendcmd (s : State) (p : Vector Word 8) : (s.setPen p).pendcmd = s.pendcmd := rfl
@[simp] theorem State.setPen_din (s : State) (p : Vector Word 8) : (s.setPen p).din = s.din := rfl
@[simp] theorem State.setPen_cwb (s : State) (p : Vector Word 8) : (s.setPen p).cwb = s.cwb := rfl
@[simp] theorem State.setPen_modArr (s : State) (p : Vector Word 8) : (s.setPen p).modArr = s.modArr := rfl
@[simp] theorem State.setPen_funArr (s : State) (p : Vector Word 8) : (s.setPen p).funArr = s.funArr := rfl
@[simp] theorem State.setPen_inputs (s : State) (p : Vector Word 8) : (s.setPen p).inputs = s.inputs := rfl
@[simp] theorem State.setPen_reply (s : State) (p : Vector Word 8) : (s.setPen p).reply = s.reply := rfl

@[simp] theorem State.setParts_status (s : State) (a b c d e : Word) : (s.setParts a b c d e).status = s.status := rfl
@[simp] theorem State.setParts_cfg (s : State) (a b c d e : Word) : (s.setParts a b c d e).cfg = s.cfg := rfl
@[simp] theorem State.setParts_maskid (s : State) (a b c d e : Word) : (s.setParts a b c d e).maskid = s.maskid := rfl
@[simp] theorem State.setParts_pen (s : State) (a b c d e : Word) : (s.setParts a b c d e).pen = s.pen := rfl
@[simp] theorem State.setParts_part1 (s : State) (a b c d e : Word) : (s.setParts a b c d e).part1 = a := rfl
@[simp] theorem State.setParts_part2 (s : State) (a b c d e : Word) : (s.setParts a b c d e).part2 = b := rfl
@[simp] theorem State.setParts_part3 (s : State) (a b c d e : Word) : (s.setParts a b c d e).part3 = c := rfl
@[simp] theorem State.setParts_part4 (s : State) (a b c d e : Word) : (s.setParts a b c d e).part4 = d := rfl
@[simp] theorem State.setParts_ptotal (s : State) (a b c d e : Word) : (s.setParts a b c d e).ptotal = e := rfl
@[simp] theorem State.setParts_pendcmd (s : State) (a b c d e : Word) : (s.setParts a b c d e).pendcmd = s.pendcmd := rfl
@[simp] theorem State.setParts_din (s : State) (a b c d e : Word) : (s.setParts a b c d e).din = s.din := rfl
@[simp] theorem State.setParts_cwb (s : State) (a b c d e : Word) : (s.setParts a b c d e).cwb = s.cwb := rfl
@[simp] theorem State.setParts_modArr (s : State) (a b c d e : Word) : (s.setParts a b c d e).modArr = s.modArr := rfl
@[simp] theorem State.setParts_funArr (s : State) (a b c d e : Word) : (s.setParts a b c d e).funArr = s.funArr := rfl
@[simp] theorem State.setParts_inputs (s : State) (a b c d e : Word) : (s.setParts a b c d e).inputs = s.inputs := rfl
@[simp] theorem State.setParts_reply (s : State) (a b c d e : Word) : (s.setParts a b c d e).reply = s.reply := rfl

@[simp] theorem State.setPendcmd_status (s : State) (w : Word) : (s.setPendcmd w).status = s.status := rfl
@[simp] theorem State.setPendcmd_cfg (s : State) (w : Word) : (s.setPendcmd w).cfg = s.cfg := rfl
@[simp] theorem State.setPendcmd_maskid (s : State) (w : Word) : (s.setPendcmd w).maskid = s.maskid := rfl
@[simp] theorem State.setPendcmd_pen (s : State) (w : Word) : (s.setPendcmd w).pen = s.pen := rfl
@[simp] theorem State.setPendcmd_part1 (s : State) (w : Word) : (s.setPendcmd w).part1 = s.part1 := rfl
@[simp] theorem State.setPendcmd_part2 (s : State) (w : Word) : (s.setPendcmd w).part2 = s.part2 := rfl
@[simp] theorem State.setPendcmd_part3 (s : State) (w : Word) : (s.setPendcmd w).part3 = s.part3 := rfl
@[simp] theorem State.setPendcmd_part4 (s : State) (w : Word) : (s.setPendcmd w).part4 = s.part4 := rfl
@[simp] theorem State.setPendcmd_ptotal (s : State) (w : Word) : (s.setPendcmd w).ptotal = s.ptotal := rfl
@[simp] theorem State.setPendcmd_pendcmd (s : State) (w : Word) : (s.setPendcmd w).pendcmd = w := rfl
@[simp] theorem State.setPendcmd_din (s : State) (w : Word) : (s.setPendcmd w).din = s.din := rfl
@[simp] theorem State.setPendcmd_cwb (s : State) (w : Word) : (s.setPendcmd w).cwb = s.cwb := rfl
@[simp] theorem State.setPendcmd_modArr (s : State) (w : Word) : (s.setPendcmd w).modArr = s.modArr := rfl
@[simp] theorem State.setPendcmd_funArr (s : State) (w : Word) : (s.setPendcmd w).funArr = s.funArr := rfl
@[simp] theorem State.setPendcmd_inputs (s : State) (w : Word) : (s.setPendcmd w).inputs = s.inputs := rfl
@[simp] theorem State.setPendcmd_reply (s : State) (w : Word) : (s.setPendcmd w).reply = s.reply := rfl

@[simp] theorem State.setDin_status (s : State) (m : Memory Byte) : (s.setDin m).status = s.status := rfl
@[simp] theorem State.setDin_cfg (s : State) (m : Memory Byte) : (s.setDin m).cfg = s.cfg := rfl
@[simp] theorem State.setDin_maskid (s : State) (m : Memory Byte) : (s.setDin m).maskid = s.maskid := rfl
@[simp] theorem State.setDin_pen (s : State) (m : Memory Byte) : (s.setDin m).pen = s.pen := rfl
@[simp] theorem State.setDin_part1 (s : State) (m : Memory Byte) : (s.setDin m).part1 = s.part1 := rfl
@[simp] theorem State.setDin_part2 (s : State) (m : Memory Byte) : (s.setDin m).part2 = s.part2 := rfl
@[simp] theorem State.setDin_part3 (s : State) (m : Memory Byte) : (s.setDin m).part3 = s.part3 := rfl
@[simp] theorem State.setDin_part4 (s : State) (m : Memory Byte) : (s.setDin m).part4 = s.part4 := rfl
@[simp] theorem State.setDin_ptotal (s : State) (m : Memory Byte) : (s.setDin m).ptotal = s.ptotal := rfl
@[simp] theorem State.setDin_pendcmd (s : State) (m : Memory Byte) : (s.setDin m).pendcmd = s.pendcmd := rfl
@[simp] theorem State.setDin_din (s : State) (m : Memory Byte) : (s.setDin m).din = m := rfl
@[simp] theorem State.setDin_cwb (s : State) (m : Memory Byte) : (s.setDin m).cwb = s.cwb := rfl
@[simp] theorem State.setDin_modArr (s : State) (m : Memory Byte) : (s.setDin m).modArr = s.modArr := rfl
@[simp] theorem State.setDin_funArr (s : State) (m : Memory Byte) : (s.setDin m).funArr = s.funArr := rfl
@[simp] theorem State.setDin_inputs (s : State) (m : Memory Byte) : (s.setDin m).inputs = s.inputs := rfl
@[simp] theorem State.setDin_reply (s : State) (m : Memory Byte) : (s.setDin m).reply = s.reply := rfl

@[simp] theorem State.setCwb_status (s : State) (m : Memory Byte) : (s.setCwb m).status = s.status := rfl
@[simp] theorem State.setCwb_cfg (s : State) (m : Memory Byte) : (s.setCwb m).cfg = s.cfg := rfl
@[simp] theorem State.setCwb_maskid (s : State) (m : Memory Byte) : (s.setCwb m).maskid = s.maskid := rfl
@[simp] theorem State.setCwb_pen (s : State) (m : Memory Byte) : (s.setCwb m).pen = s.pen := rfl
@[simp] theorem State.setCwb_part1 (s : State) (m : Memory Byte) : (s.setCwb m).part1 = s.part1 := rfl
@[simp] theorem State.setCwb_part2 (s : State) (m : Memory Byte) : (s.setCwb m).part2 = s.part2 := rfl
@[simp] theorem State.setCwb_part3 (s : State) (m : Memory Byte) : (s.setCwb m).part3 = s.part3 := rfl
@[simp] theorem State.setCwb_part4 (s : State) (m : Memory Byte) : (s.setCwb m).part4 = s.part4 := rfl
@[simp] theorem State.setCwb_ptotal (s : State) (m : Memory Byte) : (s.setCwb m).ptotal = s.ptotal := rfl
@[simp] theorem State.setCwb_pendcmd (s : State) (m : Memory Byte) : (s.setCwb m).pendcmd = s.pendcmd := rfl
@[simp] theorem State.setCwb_din (s : State) (m : Memory Byte) : (s.setCwb m).din = s.din := rfl
@[simp] theorem State.setCwb_cwb (s : State) (m : Memory Byte) : (s.setCwb m).cwb = m := rfl
@[simp] theorem State.setCwb_modArr (s : State) (m : Memory Byte) : (s.setCwb m).modArr = s.modArr := rfl
@[simp] theorem State.setCwb_funArr (s : State) (m : Memory Byte) : (s.setCwb m).funArr = s.funArr := rfl
@[simp] theorem State.setCwb_inputs (s : State) (m : Memory Byte) : (s.setCwb m).inputs = s.inputs := rfl
@[simp] theorem State.setCwb_reply (s : State) (m : Memory Byte) : (s.setCwb m).reply = s.reply := rfl

@[simp] theorem State.setMod_status (s : State) (m : Memory Bool) : (s.setMod m).status = s.status := rfl
@[simp] theorem State.setMod_cfg (s : State) (m : Memory Bool) : (s.setMod m).cfg = s.cfg := rfl
@[simp] theorem State.setMod_maskid (s : State) (m : Memory Bool) : (s.setMod m).maskid = s.maskid := rfl
@[simp] theorem State.setMod_pen (s : State) (m : Memory Bool) : (s.setMod m).pen = s.pen := rfl
@[simp] theorem State.setMod_part1 (s : State) (m : Memory Bool) : (s.setMod m).part1 = s.part1 := rfl
@[simp] theorem State.setMod_part2 (s : State) (m : Memory Bool) : (s.setMod m).part2 = s.part2 := rfl
@[simp] theorem State.setMod_part3 (s : State) (m : Memory Bool) : (s.setMod m).part3 = s.part3 := rfl
@[simp] theorem State.setMod_part4 (s : State) (m : Memory Bool) : (s.setMod m).part4 = s.part4 := rfl
@[simp] theorem State.setMod_ptotal (s : State) (m : Memory Bool) : (s.setMod m).ptotal = s.ptotal := rfl
@[simp] theorem State.setMod_pendcmd (s : State) (m : Memory Bool) : (s.setMod m).pendcmd = s.pendcmd := rfl
@[simp] theorem State.setMod_din (s : State) (m : Memory Bool) : (s.setMod m).din = s.din := rfl
@[simp] theorem State.setMod_cwb (s : State) (m : Memory Bool) : (s.setMod m).cwb = s.cwb := rfl
@[simp] theorem State.setMod_modArr (s : State) (m : Memory Bool) : (s.setMod m).modArr = m := rfl
@[simp] theorem State.setMod_funArr (s : State) (m : Memory Bool) : (s.setMod m).funArr = s.funArr := rfl
@[simp] theorem State.setMod_inputs (s : State) (m : Memory Bool) : (s.setMod m).inputs = s.inputs := rfl
@[simp] theorem State.setMod_reply (s : State) (m : Memory Bool) : (s.setMod m).reply = s.reply := rfl

@[simp] theorem State.setFun_status (s : State) (m : Memory Bool) : (s.setFun m).status = s.status := rfl
@[simp] theorem State.setFun_cfg (s : State) (m : Memory Bool) : (s.setFun m).cfg = s.cfg := rfl
@[simp] theorem State.setFun_maskid (s : State) (m : Memory Bool) : (s.setFun m).maskid = s.maskid := rfl
@[simp] theorem State.setFun_pen (s : State) (m : Memory Bool) : (s.setFun m).pen = s.pen := rfl
@[simp] theorem State.setFun_part1 (s : State) (m : Memory Bool) : (s.setFun m).part1 = s.part1 := rfl
@[simp] theorem State.setFun_part2 (s : State) (m : Memory Bool) : (s.setFun m).part2 = s.part2 := rfl
@[simp] theorem State.setFun_part3 (s : State) (m : Memory Bool) : (s.setFun m).part3 = s.part3 := rfl
@[simp] theorem State.setFun_part4 (s : State) (m : Memory Bool) : (s.setFun m).part4 = s.part4 := rfl
@[simp] theorem State.setFun_ptotal (s : State) (m : Memory Bool) : (s.setFun m).ptotal = s.ptotal := rfl
@[simp] theorem State.setFun_pendcmd (s : State) (m : Memory Bool) : (s.setFun m).pendcmd = s.pendcmd := rfl
@[simp] theorem State.setFun_din (s : State) (m : Memory Bool) : (s.setFun m).din = s.din := rfl
@[simp] theorem State.setFun_cwb (s : State) (m : Memory Bool) : (s.setFun m).cwb = s.cwb := rfl
@[simp] theorem State.setFun_modArr (s : State) (m : Memory Bool) : (s.setFun m).modArr = s.modArr := rfl
@[simp] theorem State.setFun_funArr (s : State) (m : Memory Bool) : (s.setFun m).funArr = m := rfl
@[simp] theorem State.setFun_inputs (s : State) (m : Memory Bool) : (s.setFun m).inputs = s.inputs := rfl
@[simp] theorem State.setFun_reply (s : State) (m : Memory Bool) : (s.setFun m).reply = s.reply := rfl

@[simp] theorem State.setInputs_status (s : State) (l : List HostEvent) : (s.setInputs l).status = s.status := rfl
@[simp] theorem State.setInputs_cfg (s : State) (l : List HostEvent) : (s.setInputs l).cfg = s.cfg := rfl
@[simp] theorem State.setInputs_maskid (s : State) (l : List HostEvent) : (s.setInputs l).maskid = s.maskid := rfl
@[simp] theorem State.setInputs_pen (s : State) (l : List HostEvent) : (s.setInputs l).pen = s.pen := rfl
@[simp] theorem State.setInputs_part1 (s : State) (l : List HostEvent) : (s.setInputs l).part1 = s.part1 := rfl
@[simp] theorem State.setInputs_part2 (s : State) (l : List HostEvent) : (s.setInputs l).part2 = s.part2 := rfl
@[simp] theorem State.setInputs_part3 (s : State) (l : List HostEvent) : (s.setInputs l).part3 = s.part3 := rfl
@[simp] theorem State.setInputs_part4 (s : State) (l : List HostEvent) : (s.setInputs l).part4 = s.part4 := rfl
@[simp] theorem State.setInputs_ptotal (s : State) (l : List HostEvent) : (s.setInputs l).ptotal = s.ptotal := rfl
@[simp] theorem State.setInputs_pendcmd (s : State) (l : List HostEvent) : (s.setInputs l).pendcmd = s.pendcmd := rfl
@[simp] theorem State.setInputs_din (s : State) (l : List HostEvent) : (s.setInputs l).din = s.din := rfl
@[simp] theorem State.setInputs_cwb (s : State) (l : List HostEvent) : (s.setInputs l).cwb = s.cwb := rfl
@[simp] theorem State.setInputs_modArr (s : State) (l : List HostEvent) : (s.setInputs l).modArr = s.modArr := rfl
@[simp] theorem State.setInputs_funArr (s : State) (l : List HostEvent) : (s.setInputs l).funArr = s.funArr := rfl
@[simp] theorem State.setInputs_inputs (s : State) (l : List HostEvent) : (s.setInputs l).inputs = l := rfl
@[simp] theorem State.setInputs_reply (s : State) (l : List HostEvent) : (s.setInputs l).reply = s.reply := rfl

@[simp] theorem State.setReply_status (s : State) (r : PortReply) : (s.setReply r).status = s.status := rfl
@[simp] theorem State.setReply_cfg (s : State) (r : PortReply) : (s.setReply r).cfg = s.cfg := rfl
@[simp] theorem State.setReply_maskid (s : State) (r : PortReply) : (s.setReply r).maskid = s.maskid := rfl
@[simp] theorem State.setReply_pen (s : State) (r : PortReply) : (s.setReply r).pen = s.pen := rfl
@[simp] theorem State.setReply_part1 (s : State) (r : PortReply) : (s.setReply r).part1 = s.part1 := rfl
@[simp] theorem State.setReply_part2 (s : State) (r : PortReply) : (s.setReply r).part2 = s.part2 := rfl
@[simp] theorem State.setReply_part3 (s : State) (r : PortReply) : (s.setReply r).part3 = s.part3 := rfl
@[simp] theorem State.setReply_part4 (s : State) (r : PortReply) : (s.setReply r).part4 = s.part4 := rfl
@[simp] theorem State.setReply_ptotal (s : State) (r : PortReply) : (s.setReply r).ptotal = s.ptotal := rfl
@[simp] theorem State.setReply_pendcmd (s : State) (r : PortReply) : (s.setReply r).pendcmd = s.pendcmd := rfl
@[simp] theorem State.setReply_din (s : State) (r : PortReply) : (s.setReply r).din = s.din := rfl
@[simp] theorem State.setReply_cwb (s : State) (r : PortReply) : (s.setReply r).cwb = s.cwb := rfl
@[simp] theorem State.setReply_modArr (s : State) (r : PortReply) : (s.setReply r).modArr = s.modArr := rfl
@[simp] theorem State.setReply_funArr (s : State) (r : PortReply) : (s.setReply r).funArr = s.funArr := rfl
@[simp] theorem State.setReply_inputs (s : State) (r : PortReply) : (s.setReply r).inputs = s.inputs := rfl
@[simp] theorem State.setReply_reply (s : State) (r : PortReply) : (s.setReply r).reply = some r := rfl

@[simp] theorem State.setStatus_setStatus (s : State) (t t' : Status) : (s.setStatus t).setStatus t' = s.setStatus t' := rfl
@[simp] theorem State.setCfg_setCfg (s : State) (c c' : Cfg) : (s.setCfg c).setCfg c' = s.setCfg c' := rfl
@[simp] theorem State.setMaskid_setMaskid (s : State) (m m' : BitVec 3) : (s.setMaskid m).setMaskid m' = s.setMaskid m' := rfl
@[simp] theorem State.setPen_setPen (s : State) (p p' : Vector Word 8) : (s.setPen p).setPen p' = s.setPen p' := rfl
@[simp] theorem State.setParts_setParts (s : State) (a b c d e a' b' c' d' e' : Word) :
    (s.setParts a b c d e).setParts a' b' c' d' e' = s.setParts a' b' c' d' e' := rfl
@[simp] theorem State.setPendcmd_setPendcmd (s : State) (w w' : Word) : (s.setPendcmd w).setPendcmd w' = s.setPendcmd w' := rfl
@[simp] theorem State.setDin_setDin (s : State) (m m' : Memory Byte) : (s.setDin m).setDin m' = s.setDin m' := rfl
@[simp] theorem State.setCwb_setCwb (s : State) (m m' : Memory Byte) : (s.setCwb m).setCwb m' = s.setCwb m' := rfl
@[simp] theorem State.setMod_setMod (s : State) (m m' : Memory Bool) : (s.setMod m).setMod m' = s.setMod m' := rfl
@[simp] theorem State.setFun_setFun (s : State) (m m' : Memory Bool) : (s.setFun m).setFun m' = s.setFun m' := rfl
@[simp] theorem State.setInputs_setInputs (s : State) (l l' : List HostEvent) : (s.setInputs l).setInputs l' = s.setInputs l' := rfl
@[simp] theorem State.setReply_setReply (s : State) (r r' : PortReply) : (s.setReply r).setReply r' = s.setReply r' := rfl

@[simp] theorem State.setStatus_self (s : State) : s.setStatus s.status = s := rfl
@[simp] theorem State.setCfg_self (s : State) : s.setCfg s.cfg = s := rfl
@[simp] theorem State.setMaskid_self (s : State) : s.setMaskid s.maskid = s := rfl
@[simp] theorem State.setPen_self (s : State) : s.setPen s.pen = s := rfl
@[simp] theorem State.setPendcmd_self (s : State) : s.setPendcmd s.pendcmd = s := rfl
@[simp] theorem State.setDin_self (s : State) : s.setDin s.din = s := rfl
@[simp] theorem State.setCwb_self (s : State) : s.setCwb s.cwb = s := rfl
@[simp] theorem State.setMod_self (s : State) : s.setMod s.modArr = s := rfl
@[simp] theorem State.setFun_self (s : State) : s.setFun s.funArr = s := rfl
@[simp] theorem State.setInputs_self (s : State) : s.setInputs s.inputs = s := rfl

/-- STATUS is set last: the one order in which updates stand. -/
theorem State.setStatus_setCfg (s : State) (t : Status) (c : Cfg) :
    (s.setStatus t).setCfg c = (s.setCfg c).setStatus t := rfl
/-- STATUS is set last: the one order in which updates stand. -/
theorem State.setStatus_setMaskid (s : State) (t : Status) (m : BitVec 3) :
    (s.setStatus t).setMaskid m = (s.setMaskid m).setStatus t := rfl
/-- STATUS is set last: the one order in which updates stand. -/
theorem State.setStatus_setPen (s : State) (t : Status) (p : Vector Word 8) :
    (s.setStatus t).setPen p = (s.setPen p).setStatus t := rfl
/-- STATUS is set last: the one order in which updates stand. -/
theorem State.setStatus_setParts (s : State) (t : Status) (a b c d e : Word) :
    (s.setStatus t).setParts a b c d e = (s.setParts a b c d e).setStatus t := rfl
/-- STATUS is set last: the one order in which updates stand. -/
theorem State.setStatus_setPendcmd (s : State) (t : Status) (w : Word) :
    (s.setStatus t).setPendcmd w = (s.setPendcmd w).setStatus t := rfl
/-- STATUS is set last: the one order in which updates stand. -/
theorem State.setStatus_setDin (s : State) (t : Status) (m : Memory Byte) :
    (s.setStatus t).setDin m = (s.setDin m).setStatus t := rfl
/-- STATUS is set last: the one order in which updates stand. -/
theorem State.setStatus_setCwb (s : State) (t : Status) (m : Memory Byte) :
    (s.setStatus t).setCwb m = (s.setCwb m).setStatus t := rfl
/-- STATUS is set last: the one order in which updates stand. -/
theorem State.setStatus_setMod (s : State) (t : Status) (m : Memory Bool) :
    (s.setStatus t).setMod m = (s.setMod m).setStatus t := rfl
/-- STATUS is set last: the one order in which updates stand. -/
theorem State.setStatus_setFun (s : State) (t : Status) (m : Memory Bool) :
    (s.setStatus t).setFun m = (s.setFun m).setStatus t := rfl
/-- STATUS is set last: the one order in which updates stand. -/
theorem State.setStatus_setInputs (s : State) (t : Status) (l : List HostEvent) :
    (s.setStatus t).setInputs l = (s.setInputs l).setStatus t := rfl
/-- STATUS is set last: the one order in which updates stand. -/
theorem State.setStatus_setReply (s : State) (t : Status) (r : PortReply) :
    (s.setStatus t).setReply r = (s.setReply r).setStatus t := rfl

@[simp] theorem State.ended_def (s : State) (c : BitVec 3) : s.ended c = s.setStatus (s.status.completed c) := rfl

/-! ## STATUS -/

@[simp] theorem Status.accepted_busy (t : Status) : t.accepted.busy = true := rfl
@[simp] theorem Status.accepted_done (t : Status) : t.accepted.done = false := rfl
@[simp] theorem Status.accepted_err (t : Status) : t.accepted.err = 0#3 := rfl
@[simp] theorem Status.accepted_drop (t : Status) : t.accepted.drop = t.drop := rfl
@[simp] theorem Status.dropped_busy (t : Status) : t.dropped.busy = t.busy := rfl
@[simp] theorem Status.dropped_done (t : Status) : t.dropped.done = t.done := rfl
@[simp] theorem Status.dropped_err (t : Status) : t.dropped.err = t.err := rfl
@[simp] theorem Status.dropped_drop (t : Status) : t.dropped.drop = true := rfl
@[simp] theorem Status.completed_busy (t : Status) (c : BitVec 3) : (t.completed c).busy = false := rfl
@[simp] theorem Status.completed_done (t : Status) (c : BitVec 3) : (t.completed c).done = true := rfl
@[simp] theorem Status.completed_err (t : Status) (c : BitVec 3) : (t.completed c).err = c := rfl
@[simp] theorem Status.completed_drop (t : Status) (c : BitVec 3) : (t.completed c).drop = t.drop := rfl
@[simp] theorem Status.completed_completed (t : Status) (c d : BitVec 3) :
    (t.completed c).completed d = t.completed d := rfl
@[simp] theorem Status.dropCleared_busy (t : Status) : t.dropCleared.busy = t.busy := rfl
@[simp] theorem Status.dropCleared_done (t : Status) : t.dropCleared.done = t.done := rfl
@[simp] theorem Status.dropCleared_err (t : Status) : t.dropCleared.err = t.err := rfl
@[simp] theorem Status.dropCleared_drop (t : Status) : t.dropCleared.drop = false := rfl

/-- Every code an error carries is one of R251, and none is 0. -/
theorem ErrCode.code_le (e : ErrCode) : e.code.toNat ≤ 3 := by cases e <;> decide
theorem ErrCode.code_ne_zero (e : ErrCode) : e.code ≠ 0#3 := by cases e <;> decide
theorem ErrCode.code_injective {e f : ErrCode} (h : e.code = f.code) : e = f := by
  cases e <;> cases f <;> revert h <;> decide

theorem Status.accepted_legal (t : Status) : t.accepted.legal = true := by
  simp [Status.legal]

theorem Status.dropped_legal {t : Status} (h : t.legal = true) : t.dropped.legal = true := by
  exact h

theorem Status.completed_legal (t : Status) {c : BitVec 3} (h : c.toNat ≤ 3) : (t.completed c).legal = true := by
  simp [Status.legal, h]

/-! ## What the configuration gives, under an update that keeps it -/

@[simp] theorem State.setStatus_side (s : State) (t : Status) : (s.setStatus t).side = s.side := rfl
@[simp] theorem State.setStatus_total (s : State) (t : Status) : (s.setStatus t).total = s.total := rfl
@[simp] theorem State.setStatus_dataCount (s : State) (t : Status) : (s.setStatus t).dataCount = s.dataCount := rfl
@[simp] theorem State.setStatus_block (s : State) (t : Status) : (s.setStatus t).block = s.block := rfl

@[simp] theorem State.setMaskid_side (s : State) (m : BitVec 3) : (s.setMaskid m).side = s.side := rfl
@[simp] theorem State.setMaskid_total (s : State) (m : BitVec 3) : (s.setMaskid m).total = s.total := rfl
@[simp] theorem State.setMaskid_dataCount (s : State) (m : BitVec 3) : (s.setMaskid m).dataCount = s.dataCount := rfl
@[simp] theorem State.setMaskid_block (s : State) (m : BitVec 3) : (s.setMaskid m).block = s.block := rfl

@[simp] theorem State.setPen_side (s : State) (p : Vector Word 8) : (s.setPen p).side = s.side := rfl
@[simp] theorem State.setPen_total (s : State) (p : Vector Word 8) : (s.setPen p).total = s.total := rfl
@[simp] theorem State.setPen_dataCount (s : State) (p : Vector Word 8) : (s.setPen p).dataCount = s.dataCount := rfl
@[simp] theorem State.setPen_block (s : State) (p : Vector Word 8) : (s.setPen p).block = s.block := rfl

@[simp] theorem State.setParts_side (s : State) (a b c d e : Word) : (s.setParts a b c d e).side = s.side := rfl
@[simp] theorem State.setParts_total (s : State) (a b c d e : Word) : (s.setParts a b c d e).total = s.total := rfl
@[simp] theorem State.setParts_dataCount (s : State) (a b c d e : Word) : (s.setParts a b c d e).dataCount = s.dataCount := rfl
@[simp] theorem State.setParts_block (s : State) (a b c d e : Word) : (s.setParts a b c d e).block = s.block := rfl

@[simp] theorem State.setPendcmd_side (s : State) (w : Word) : (s.setPendcmd w).side = s.side := rfl
@[simp] theorem State.setPendcmd_total (s : State) (w : Word) : (s.setPendcmd w).total = s.total := rfl
@[simp] theorem State.setPendcmd_dataCount (s : State) (w : Word) : (s.setPendcmd w).dataCount = s.dataCount := rfl
@[simp] theorem State.setPendcmd_block (s : State) (w : Word) : (s.setPendcmd w).block = s.block := rfl

@[simp] theorem State.setDin_side (s : State) (m : Memory Byte) : (s.setDin m).side = s.side := rfl
@[simp] theorem State.setDin_total (s : State) (m : Memory Byte) : (s.setDin m).total = s.total := rfl
@[simp] theorem State.setDin_dataCount (s : State) (m : Memory Byte) : (s.setDin m).dataCount = s.dataCount := rfl
@[simp] theorem State.setDin_block (s : State) (m : Memory Byte) : (s.setDin m).block = s.block := rfl

@[simp] theorem State.setCwb_side (s : State) (m : Memory Byte) : (s.setCwb m).side = s.side := rfl
@[simp] theorem State.setCwb_total (s : State) (m : Memory Byte) : (s.setCwb m).total = s.total := rfl
@[simp] theorem State.setCwb_dataCount (s : State) (m : Memory Byte) : (s.setCwb m).dataCount = s.dataCount := rfl
@[simp] theorem State.setCwb_block (s : State) (m : Memory Byte) : (s.setCwb m).block = s.block := rfl

@[simp] theorem State.setMod_side (s : State) (m : Memory Bool) : (s.setMod m).side = s.side := rfl
@[simp] theorem State.setMod_total (s : State) (m : Memory Bool) : (s.setMod m).total = s.total := rfl
@[simp] theorem State.setMod_dataCount (s : State) (m : Memory Bool) : (s.setMod m).dataCount = s.dataCount := rfl
@[simp] theorem State.setMod_block (s : State) (m : Memory Bool) : (s.setMod m).block = s.block := rfl

@[simp] theorem State.setFun_side (s : State) (m : Memory Bool) : (s.setFun m).side = s.side := rfl
@[simp] theorem State.setFun_total (s : State) (m : Memory Bool) : (s.setFun m).total = s.total := rfl
@[simp] theorem State.setFun_dataCount (s : State) (m : Memory Bool) : (s.setFun m).dataCount = s.dataCount := rfl
@[simp] theorem State.setFun_block (s : State) (m : Memory Bool) : (s.setFun m).block = s.block := rfl

@[simp] theorem State.setInputs_side (s : State) (l : List HostEvent) : (s.setInputs l).side = s.side := rfl
@[simp] theorem State.setInputs_total (s : State) (l : List HostEvent) : (s.setInputs l).total = s.total := rfl
@[simp] theorem State.setInputs_dataCount (s : State) (l : List HostEvent) : (s.setInputs l).dataCount = s.dataCount := rfl
@[simp] theorem State.setInputs_block (s : State) (l : List HostEvent) : (s.setInputs l).block = s.block := rfl

@[simp] theorem State.setReply_side (s : State) (r : PortReply) : (s.setReply r).side = s.side := rfl
@[simp] theorem State.setReply_total (s : State) (r : PortReply) : (s.setReply r).total = s.total := rfl
@[simp] theorem State.setReply_dataCount (s : State) (r : PortReply) : (s.setReply r).dataCount = s.dataCount := rfl
@[simp] theorem State.setReply_block (s : State) (r : PortReply) : (s.setReply r).block = s.block := rfl

end Sys2Proof.Machine
end

