-- ==== Sys2Proof/Laws/Commands.lean ====
section
/-! SUPPORT. What the shared operations of the commands can do, said once: the version check, the reads, the end of
a command, and each command's stages as a list of cases. -/

namespace Sys2Proof.Machine

/-! ## The end of a command -/

@[simp] theorem complete_done (s : State) : complete (.done s) = .next (s.ended 0#3) := rfl
@[simp] theorem complete_error (s : State) (e : ErrCode) : complete (.error s e) = .next (s.ended e.code) := rfl
@[simp] theorem complete_fault (f : Fault) : complete (.fault f) = .fault f := rfl

/-- A command that leaves a next state ended normally or with an error. -/
theorem complete_eq_next_iff (r : CmdResult) (t : State) :
    complete r = .next t ↔
      (∃ u, r = .done u ∧ t = u.ended 0#3) ∨ (∃ u e, r = .error u e ∧ t = u.ended e.code) := by
  cases r with
  | done u => simp [eq_comm]
  | error u e =>
    simp only [complete_error, Host.Outcome.next.injEq, reduceCtorEq, false_and, exists_false, false_or,
      CmdResult.error.injEq]
    constructor
    · rintro rfl; exact ⟨u, e, ⟨rfl, rfl⟩, rfl⟩
    · rintro ⟨_, _, ⟨rfl, rfl⟩, rfl⟩; rfl
  | fault f => simp

/-- No command is refused. -/
theorem complete_ne_refused (r : CmdResult) (x : Refusal) : complete r ≠ .refused x := by
  cases r <;> simp [complete]

@[simp] theorem andThen_done (s : State) (k : State → CmdResult) : (CmdResult.done s).andThen k = k s := rfl
@[simp] theorem andThen_error (s : State) (e : ErrCode) (k : State → CmdResult) :
    (CmdResult.error s e).andThen k = .error s e := rfl
@[simp] theorem andThen_fault (f : Fault) (k : State → CmdResult) :
    (CmdResult.fault f).andThen k = .fault f := rfl

/-! ## The version check and the reads -/

theorem withVersion_of_supported {s : State} (h : s.cfg.supported = true) (body : Nat → EcLevel → CmdResult) :
    withVersion s body = body s.cfg.ver.toNat s.cfg.ecl := by simp [withVersion, h]

theorem withVersion_of_unsupported {s : State} (h : s.cfg.supported = false) (body : Nat → EcLevel → CmdResult) :
    withVersion s body = .error s .unsupportedVersion := by simp [withVersion, h, raiseError]

@[simp] theorem withRead_some {α : Type} (x : α) (body : α → CmdResult) : withRead (some x) body = body x := rfl
@[simp] theorem withRead_none {α : Type} (body : α → CmdResult) :
    withRead (none : Option α) body = .fault .unwrittenRead := rfl

/-- A supported version is one of 1 to 40 (R38). -/
theorem supported_range {c : Cfg} (h : c.supported = true) : 1 ≤ c.ver.toNat ∧ c.ver.toNat ≤ 40 := by
  simpa [Cfg.supported] using h

theorem supported_of_range {c : Cfg} (h : 1 ≤ c.ver.toNat ∧ c.ver.toNat ≤ 40) : c.supported = true := by
  simpa [Cfg.supported] using h

/-- R7: the side of a supported symbol is 21 to 177. -/
theorem side_range {s : State} (h : s.cfg.supported = true) : 21 ≤ s.side ∧ s.side ≤ 177 := by
  have := supported_range h
  unfold State.side symbolSize
  omega

/-! ## Each command as its cases -/

/-- RSENC ends with the version error, faults on DIN, or writes the codeword sequence into CWB. -/
theorem performRsenc_cases (s : State) :
    (s.cfg.supported = false ∧ performRsenc s = .error s .unsupportedVersion) ∨
    (s.cfg.supported = true ∧ Memory.readSpan s.din 0 s.dataCount = none ∧
      performRsenc s = .fault .unwrittenRead) ∨
    (s.cfg.supported = true ∧ ∃ data, Memory.readSpan s.din 0 s.dataCount = some data ∧
      performRsenc s = .done (s.setCwb (Memory.overlay (Memory.ofList 0 (codewordSeq s.block data)) s.cwb))) := by
  cases h : s.cfg.supported with
  | false => exact .inl ⟨rfl, withVersion_of_unsupported h _⟩
  | true =>
    refine .inr ?_
    have hp : performRsenc s = withRead (Memory.readSpan s.din 0 s.dataCount) fun data =>
      .done (s.setCwb (Memory.overlay (Memory.ofList 0 (codewordSeq s.block data)) s.cwb)) :=
      withVersion_of_supported h _
    cases hd : Memory.readSpan s.din 0 s.dataCount with
    | none => exact .inl ⟨rfl, rfl, by rw [hp, hd]; rfl⟩
    | some data => exact .inr ⟨rfl, data, rfl, by rw [hp, hd]; rfl⟩

/-- LAYOUT ends with the version error, or writes both arrays whole. -/
theorem performLayout_cases (s : State) :
    (s.cfg.supported = false ∧ performLayout s = .error s .unsupportedVersion) ∨
    (s.cfg.supported = true ∧
      performLayout s = .done ((s.setMod (layoutMod s.cfg.ver.toNat)).setFun (layoutFun s.cfg.ver.toNat))) := by
  cases h : s.cfg.supported with
  | false => exact .inl ⟨rfl, withVersion_of_unsupported h _⟩
  | true => exact .inr ⟨rfl, withVersion_of_supported h _⟩

/-- PLACE ends with the version error, faults on FUN, ends with the capacity error, faults on CWB, or writes the data
cells. -/
theorem performPlace_cases (s : State) :
    (s.cfg.supported = false ∧ performPlace s = .error s .unsupportedVersion) ∨
    (s.cfg.supported = true ∧ readSquare s.funArr s.side = none ∧ performPlace s = .fault .unwrittenRead) ∨
    (s.cfg.supported = true ∧ ∃ f, readSquare s.funArr s.side = some f ∧
      ((freeCells f < 8 * s.total ∧ performPlace s = .error s .layoutOverflow) ∨
       (8 * s.total ≤ freeCells f ∧ Memory.readSpan s.cwb 0 s.total = none ∧
          performPlace s = .fault .unwrittenRead) ∨
       (8 * s.total ≤ freeCells f ∧ ∃ cw, Memory.readSpan s.cwb 0 s.total = some cw ∧
          performPlace s = .done (s.setMod (Memory.overlay (placedCells s.side s.total f cw) s.modArr))))) := by
  cases h : s.cfg.supported with
  | false => exact .inl ⟨rfl, withVersion_of_unsupported h _⟩
  | true =>
    refine .inr ?_
    have hp : performPlace s = withRead (readSquare s.funArr s.side) fun f =>
      if 8 * s.total > freeCells f then raiseError .layoutOverflow s
      else withRead (Memory.readSpan s.cwb 0 s.total) fun cw =>
        .done (s.setMod (Memory.overlay (placedCells s.side s.total f cw) s.modArr)) :=
      withVersion_of_supported h _
    cases hf : readSquare s.funArr s.side with
    | none => exact .inl ⟨rfl, rfl, by rw [hp, hf]; rfl⟩
    | some f =>
      refine .inr ⟨rfl, f, rfl, ?_⟩
      rw [hp, hf, withRead_some]
      by_cases hc : 8 * s.total > freeCells f
      · exact .inl ⟨hc, by rw [if_pos hc]; rfl⟩
      · rw [if_neg hc]
        cases hw : Memory.readSpan s.cwb 0 s.total with
        | none => exact .inr (.inl ⟨by omega, rfl, rfl⟩)
        | some cw => exact .inr (.inr ⟨by omega, cw, rfl, rfl⟩)

/-- APPLYMASK ends with the version error, faults on MOD or FUN, or writes the masked square. -/
theorem performApplymask_cases (m : BitVec 3) (s : State) :
    (s.cfg.supported = false ∧ performApplymask m s = .error s .unsupportedVersion) ∨
    (s.cfg.supported = true ∧ (readSquare s.modArr s.side = none ∨ readSquare s.funArr s.side = none) ∧
      performApplymask m s = .fault .unwrittenRead) ∨
    (s.cfg.supported = true ∧ ∃ g f, readSquare s.modArr s.side = some g ∧ readSquare s.funArr s.side = some f ∧
      performApplymask m s = .done (s.setMod (writeSquare s.modArr (masked f g m)))) := by
  cases h : s.cfg.supported with
  | false => exact .inl ⟨rfl, withVersion_of_unsupported h _⟩
  | true =>
    refine .inr ?_
    have hp : performApplymask m s = withRead (readSquare s.modArr s.side) fun g =>
      withRead (readSquare s.funArr s.side) fun f => .done (s.setMod (writeSquare s.modArr (masked f g m))) :=
      withVersion_of_supported h _
    cases hg : readSquare s.modArr s.side with
    | none => exact .inl ⟨rfl, .inl rfl, by rw [hp, hg]; rfl⟩
    | some g =>
      cases hf : readSquare s.funArr s.side with
      | none => exact .inl ⟨rfl, .inr rfl, by rw [hp, hg, hf]; rfl⟩
      | some f => exact .inr ⟨rfl, g, f, rfl, rfl, by rw [hp, hg, hf]; rfl⟩

/-- SCORE ends with the version error, faults on MOD, or writes the five score registers. -/
theorem performScore_cases (s : State) :
    (s.cfg.supported = false ∧ performScore s = .error s .unsupportedVersion) ∨
    (s.cfg.supported = true ∧ readSquare s.modArr s.side = none ∧ performScore s = .fault .unwrittenRead) ∨
    (s.cfg.supported = true ∧ ∃ g, readSquare s.modArr s.side = some g ∧
      performScore s = .done (scored s s.side g)) := by
  cases h : s.cfg.supported with
  | false => exact .inl ⟨rfl, withVersion_of_unsupported h _⟩
  | true =>
    refine .inr ?_
    have hp : performScore s = withRead (readSquare s.modArr s.side) fun g => .done (scored s s.side g) :=
      withVersion_of_supported h _
    cases hg : readSquare s.modArr s.side with
    | none => exact .inl ⟨rfl, rfl, by rw [hp, hg]; rfl⟩
    | some g => exact .inr ⟨rfl, g, rfl, by rw [hp, hg]; rfl⟩

/-- WRFMT ends with the version error, or writes the format word. -/
theorem performWrfmt_cases (m : BitVec 3) (s : State) :
    (s.cfg.supported = false ∧ performWrfmt m s = .error s .unsupportedVersion) ∨
    (s.cfg.supported = true ∧
      performWrfmt m s = .done (s.setMod (writeFormat s.cfg.ver.toNat s.cfg.ecl m s.modArr))) := by
  cases h : s.cfg.supported with
  | false => exact .inl ⟨rfl, withVersion_of_unsupported h _⟩
  | true => exact .inr ⟨rfl, withVersion_of_supported h _⟩

/-- WRVER ends with the version error, or writes the version word where there is one. -/
theorem performWrver_cases (s : State) :
    (s.cfg.supported = false ∧ performWrver s = .error s .unsupportedVersion) ∨
    (s.cfg.supported = true ∧ performWrver s = .done (s.setMod (writeVersion s.cfg.ver.toNat s.modArr))) := by
  cases h : s.cfg.supported with
  | false => exact .inl ⟨rfl, withVersion_of_unsupported h _⟩
  | true => exact .inr ⟨rfl, withVersion_of_supported h _⟩

/-- What MASKSEL leaves for the function map and the grid it reads (R221). -/
def selected (s : State) (f g : Grid) : State :=
  ((s.setPen (penRegs (candidatePenalties s.side f g))).setMod
    (selectedMod s.cfg.ver.toNat s.cfg.ecl f g s.modArr)).setMaskid (chosenMask s.side f g)

/-- MASKSEL ends with the version error, faults on MOD or FUN, or writes MOD, MASKID and PEN0 to PEN7. -/
theorem performMasksel_cases (s : State) :
    (s.cfg.supported = false ∧ performMasksel s = .error s .unsupportedVersion) ∨
    (s.cfg.supported = true ∧ (readSquare s.modArr s.side = none ∨ readSquare s.funArr s.side = none) ∧
      performMasksel s = .fault .unwrittenRead) ∨
    (s.cfg.supported = true ∧ ∃ g f, readSquare s.modArr s.side = some g ∧ readSquare s.funArr s.side = some f ∧
      performMasksel s = .done (selected s f g)) := by
  cases h : s.cfg.supported with
  | false => exact .inl ⟨rfl, withVersion_of_unsupported h _⟩
  | true =>
    refine .inr ?_
    have hp : performMasksel s = withRead (readSquare s.modArr s.side) fun g =>
      withRead (readSquare s.funArr s.side) fun f => .done (selected s f g) :=
      withVersion_of_supported h _
    cases hg : readSquare s.modArr s.side with
    | none => exact .inl ⟨rfl, .inl rfl, by rw [hp, hg]; rfl⟩
    | some g =>
      cases hf : readSquare s.funArr s.side with
      | none => exact .inl ⟨rfl, .inr rfl, by rw [hp, hg, hf]; rfl⟩
      | some f => exact .inr ⟨rfl, g, f, rfl, rfl, by rw [hp, hg, hf]; rfl⟩

/-- GENERATE ends with the version error, or is the four stages one after another (R115). -/
theorem performGenerate_cases (s : State) :
    (s.cfg.supported = false ∧ performGenerate s = .error s .unsupportedVersion) ∨
    (s.cfg.supported = true ∧ performGenerate s =
      (((performRsenc s).andThen performLayout).andThen performPlace).andThen performMasksel) := by
  cases h : s.cfg.supported with
  | false => exact .inl ⟨rfl, withVersion_of_unsupported h _⟩
  | true => exact .inr ⟨rfl, withVersion_of_supported h _⟩

/-! ## The engine and one step -/

theorem engineStep_of_decode {s : State} {i : Instr} (h : decode s.pendcmd = .ok i) : engineStep s = exec i s := by
  simp [engineStep, h]

theorem engineStep_of_illegal {s : State} {x : IllegalWord} (h : decode s.pendcmd = .error x) :
    engineStep s = .next (s.ended 3#3) := by
  simp [engineStep, h, raiseError, ErrCode.code]

theorem step_of_no_inputs {s : State} (h : s.inputs = []) : step s = engineTurn s := by
  simp [step, nextEvent, h]

theorem step_of_engineTurn {s : State} {rest : List HostEvent} (h : s.inputs = .engineTurn :: rest) :
    step s = engineTurn (s.setInputs rest) := by simp [step, nextEvent, h]

theorem step_of_access {s : State} {a : HostAccess} {rest : List HostEvent} (h : s.inputs = .access a :: rest) :
    step s = hostAccess a (s.setInputs rest) := by simp [step, nextEvent, h]

theorem step_of_reset {s : State} {rest : List HostEvent} (h : s.inputs = .resetInput :: rest) :
    step s = .next (assertReset (s.setInputs rest)) := by simp [step, nextEvent, h]

theorem engineTurn_of_idle {s : State} (h : s.status.busy = false) : engineTurn s = .next s := by
  simp [engineTurn, h]

theorem engineTurn_of_busy {s : State} (h : s.status.busy = true) : engineTurn s = engineStep s := by
  simp [engineTurn, h]

end Sys2Proof.Machine
end

