-- ==== Sys2Proof/Laws/Bounds.lean ====
section
/-! SUPPORT. Where the commands write: the cells of the format and version information and of the zigzag lie in the
symbol, the writes of PLACE go to data cells only, and how a grid read from the layout looks. -/

namespace Sys2Proof.Machine

/-! ## The cells of the format and version information (42_matrix_builder.md R166, R168) -/

theorem fmtCellA_lt {i : Nat} (hi : i < 15) : (fmtCellA i).1 < 9 ∧ (fmtCellA i).2 < 9 := by
  unfold fmtCellA
  split_ifs <;> simp <;> omega

theorem fmtCellB_lt {size i : Nat} (hs : 21 ≤ size) (hi : i < 15) :
    (fmtCellB size i).1 < size ∧ (fmtCellB size i).2 < size := by
  unfold fmtCellB
  split_ifs <;> simp <;> omega

theorem verCellA_lt {size i : Nat} (hs : 21 ≤ size) (hi : i < 18) :
    (verCellA size i).1 < size ∧ (verCellA size i).2 < size := by
  simp only [verCellA]
  omega

theorem verCellB_lt {size i : Nat} (hs : 21 ≤ size) (hi : i < 18) :
    (verCellB size i).1 < size ∧ (verCellB size i).2 < size := by
  simp only [verCellB]
  omega

/-- The two copies of a bit of the format word, and nothing else, are written (R219). -/
theorem mem_fmtWrites {size : Nat} {w : BitVec 15} {x : Nat × Bool} :
    x ∈ fmtWrites size w ↔ ∃ i, i < 15 ∧
      (x = (cellKey (fmtCellA i).1 (fmtCellA i).2, w.getLsbD i) ∨
       x = (cellKey (fmtCellB size i).1 (fmtCellB size i).2, w.getLsbD i)) := by
  simp [fmtWrites]

/-- The two copies of a bit of the version word, and nothing else, are written (R220). -/
theorem mem_verWrites {size : Nat} {w : BitVec 18} {x : Nat × Bool} :
    x ∈ verWrites size w ↔ ∃ i, i < 18 ∧
      (x = (cellKey (verCellA size i).1 (verCellA size i).2, w.getLsbD i) ∨
       x = (cellKey (verCellB size i).1 (verCellB size i).2, w.getLsbD i)) := by
  simp [verWrites]

theorem fmtWrites_lt {size : Nat} {w : BitVec 15} (hs : 21 ≤ size) (hs' : size ≤ 177) :
    ∀ x ∈ fmtWrites size w, x.1 < Config.gridCells := by
  intro x hx
  obtain ⟨i, hi, rfl | rfl⟩ := mem_fmtWrites.1 hx
  · have := fmtCellA_lt hi; exact cellKey_lt (by omega) (by omega)
  · have := fmtCellB_lt hs hi; exact cellKey_lt (by omega) (by omega)

theorem verWrites_lt {size : Nat} {w : BitVec 18} (hs : 21 ≤ size) (hs' : size ≤ 177) :
    ∀ x ∈ verWrites size w, x.1 < Config.gridCells := by
  intro x hx
  obtain ⟨i, hi, rfl | rfl⟩ := mem_verWrites.1 hx
  · have := verCellA_lt hs hi; exact cellKey_lt (by omega) (by omega)
  · have := verCellB_lt hs hi; exact cellKey_lt (by omega) (by omega)

theorem symbolSize_range {v : Nat} (h : 1 ≤ v ∧ v ≤ 40) : 21 ≤ symbolSize v ∧ symbolSize v ≤ 177 := by
  unfold symbolSize; omega

theorem wf_writeFormat {v : Nat} (h : 1 ≤ v ∧ v ≤ 40) (e : EcLevel) (m : BitVec 3) {arr : Memory Bool}
    (ha : Memory.wf Config.gridCells arr = true) : Memory.wf Config.gridCells (writeFormat v e m arr) = true :=
  Memory.wf_writeAll (fmtWrites_lt (symbolSize_range h).1 (symbolSize_range h).2) ha

theorem wf_writeVersion {v : Nat} (h : 1 ≤ v ∧ v ≤ 40) {arr : Memory Bool}
    (ha : Memory.wf Config.gridCells arr = true) : Memory.wf Config.gridCells (writeVersion v arr) = true := by
  unfold writeVersion
  split
  · exact Memory.wf_writeAll (verWrites_lt (symbolSize_range h).1 (symbolSize_range h).2) ha
  · exact ha

/-! ## The zigzag and the writes of PLACE (43_data_placer.md R190, R192) -/

theorem zigzagFrom_lt {size fuel right r c : Nat} (hr : right < size)
    (h : (r, c) ∈ zigzagFrom size fuel right) : r < size ∧ c < size := by
  induction fuel generalizing right with
  | zero => simp [zigzagFrom] at h
  | succ n ih =>
    rw [zigzagFrom] at h
    split at h
    · simp at h
    · generalize hq : (if right = 6 then 5 else right) = q at h
      have hq' : q < size := by split at hq <;> omega
      rcases List.mem_append.1 h with h | h
      · simp only [zigzagPair, List.mem_flatMap, List.mem_range, List.mem_cons, Prod.mk.injEq, List.not_mem_nil,
          or_false] at h
        obtain ⟨k, hk, ⟨rfl, rfl⟩ | ⟨rfl, rfl⟩⟩ := h <;> (constructor <;> [split <;> omega; omega])
      · exact ih (by omega) h

theorem zigzag_lt {size r c : Nat} (hs : 21 ≤ size) (h : (r, c) ∈ zigzag size) : r < size ∧ c < size :=
  zigzagFrom_lt (by omega) h

/-- PLACE writes only data cells of its path (R192). -/
theorem mem_placeWrites {f : Grid} {cw : List Byte} {total n : Nat} {path : List (Nat × Nat)} {x : Nat × Bool}
    (h : x ∈ placeWrites f cw total path n) : ∃ p ∈ path, f.cell p.1 p.2 = false ∧ x.1 = cellKey p.1 p.2 := by
  induction path generalizing n with
  | nil => simp [placeWrites] at h
  | cons p ps ih =>
    rw [placeWrites] at h
    split at h
    · obtain ⟨q, hq, h⟩ := ih h; exact ⟨q, List.mem_cons_of_mem _ hq, h⟩
    · rename_i hp
      have hp' : f.cell p.1 p.2 = false := by simpa using hp
      split at h <;> rcases List.mem_cons.1 h with rfl | h
      · exact ⟨p, List.mem_cons_self, hp', rfl⟩
      · obtain ⟨q, hq, h⟩ := ih h; exact ⟨q, List.mem_cons_of_mem _ hq, h⟩
      · exact ⟨p, List.mem_cons_self, hp', rfl⟩
      · obtain ⟨q, hq, h⟩ := ih h; exact ⟨q, List.mem_cons_of_mem _ hq, h⟩

theorem wf_placedCells {size total : Nat} (hs : 21 ≤ size) (hs' : size ≤ 177) (f : Grid) (cw : List Byte) :
    Memory.wf Config.gridCells (placedCells size total f cw) = true := by
  refine Memory.wf_writeAll (fun x hx => ?_) (Memory.wf_nil _)
  obtain ⟨⟨r, c⟩, hp, -, h⟩ := mem_placeWrites hx
  have := zigzag_lt hs hp
  rw [h]
  exact cellKey_lt (by simp; omega) (by simp; omega)

/-! ## The lengths of the codeword sequence (41_rs_encoder.md R138, R140) -/

theorem genPoly_length (n : Nat) : (genPoly n).length = n + 1 := by
  induction n with
  | zero => rfl
  | succ n ih => simp [genPoly, mulLinear, ih]

theorem rsStep_length {g r : List Byte} (d : Byte) (h : r.length = g.length) : (rsStep g r d).length = g.length := by
  simp only [rsStep, List.length_zipWith, List.length_append, List.length_tail, List.length_cons, List.length_nil]
  omega

theorem rsFold_length {g : List Byte} (d r : List Byte) (h : r.length = g.length) :
    (d.foldl (rsStep g) r).length = g.length := by
  induction d generalizing r with
  | nil => exact h
  | cons x d ih => exact ih _ (rsStep_length x h)

/-- A codeword index adds one codeword for each block that has it (R140). -/
theorem interleave_succ (n : Nat) (blocks : List (List Byte)) :
    interleave (n + 1) blocks = interleave n blocks ++ blocks.filterMap (fun b => b[n]?) := by
  simp [interleave, List.range_succ]

theorem filterMap_getElem?_length (n : Nat) (blocks : List (List Byte)) :
    (blocks.filterMap (fun b => b[n]?)).length = (blocks.map (fun b => min (n + 1) b.length - min n b.length)).sum := by
  induction blocks with
  | nil => rfl
  | cons b blocks ih =>
    by_cases h : n < b.length
    · have h1 : min (n + 1) b.length - min n b.length = 1 := by omega
      have h2 : b[n]? = some b[n] := by simp [h]
      simp only [List.filterMap_cons, h2, List.length_cons, ih, List.map_cons, List.sum_cons, h1]
      omega
    · have h1 : min (n + 1) b.length - min n b.length = 0 := by omega
      have h2 : b[n]? = none := by simp; omega
      simp only [List.filterMap_cons, h2, ih, List.map_cons, List.sum_cons, h1]
      omega

theorem sum_min_succ (n : Nat) (blocks : List (List Byte)) :
    (blocks.map (fun b => min n b.length)).sum + (blocks.map (fun b => min (n + 1) b.length - min n b.length)).sum =
      (blocks.map (fun b => min (n + 1) b.length)).sum := by
  induction blocks with
  | nil => rfl
  | cons b blocks ih =>
    simp only [List.map_cons, List.sum_cons]
    omega

theorem interleave_length (n : Nat) (blocks : List (List Byte)) :
    (interleave n blocks).length = (blocks.map (fun b => min n b.length)).sum := by
  induction n with
  | zero => simp [interleave]
  | succ n ih => rw [interleave_succ, List.length_append, ih, filterMap_getElem?_length, sum_min_succ]

theorem splitBlocks_lengths (ks : List Nat) (d : List Byte) (h : ks.sum ≤ d.length) :
    (splitBlocks ks d).map List.length = ks := by
  induction ks generalizing d with
  | nil => rfl
  | cons k ks ih =>
    rw [List.sum_cons] at h
    simp only [splitBlocks, List.map_cons, List.length_take]
    rw [ih _ (by rw [List.length_drop]; omega)]
    congr 1
    omega

theorem blockSizes_sum (b : BlockRow) : b.blockSizes.sum = b.dataCount := by
  simp [BlockRow.blockSizes, BlockRow.dataCount]

theorem mem_blockSizes {b : BlockRow} {k : Nat} (h : k ∈ b.blockSizes) : k = b.k1 ∨ (0 < b.nb2 ∧ k = b.k2) := by
  simp only [BlockRow.blockSizes, List.mem_append, List.mem_replicate] at h
  omega

/-- No block is longer than KMAXB (R140). -/
theorem blockSizes_le_maxBlock {b : BlockRow} (hk : 0 < b.nb2 → b.k1 ≤ b.k2) {k : Nat} (h : k ∈ b.blockSizes) :
    k ≤ b.maxBlock := by
  unfold BlockRow.maxBlock
  rcases mem_blockSizes h with rfl | ⟨h2, rfl⟩ <;> split <;> omega

theorem sum_map_min {n : Nat} {blocks : List (List Byte)} (h : ∀ b ∈ blocks, b.length ≤ n) :
    (blocks.map (fun b => min n b.length)).sum = (blocks.map List.length).sum := by
  congr 1
  exact List.map_congr_left (fun b hb => by have := h b hb; omega)

/-- The length of the interleaved sequence of a row with K1 at most K2 (R138, R140). -/
theorem codewordSeq_length {b : BlockRow} {data : List Byte} (hk : 0 < b.nb2 → b.k1 ≤ b.k2)
    (hd : data.length = b.dataCount) : (codewordSeq b data).length = b.totalCount := by
  have hs : (splitBlocks b.blockSizes data).map List.length = b.blockSizes :=
    splitBlocks_lengths _ _ (by rw [blockSizes_sum, hd])
  have hn : (splitBlocks b.blockSizes data).length = b.nb1 + b.nb2 := by
    rw [← List.length_map List.length, hs]; simp [BlockRow.blockSizes]
  have he : ∀ x ∈ (splitBlocks b.blockSizes data).map (fun d => rsEc d b.ecb), x.length = b.ecb := by
    intro x hx
    obtain ⟨d, -, rfl⟩ := List.mem_map.1 hx
    have hg : (genPoly b.ecb).tail.length = b.ecb := by simp [genPoly_length]
    rw [rsEc, rsFold_length _ _ (by simp [hg]), hg]
  have h1 : ∀ x ∈ splitBlocks b.blockSizes data, x.length ≤ b.maxBlock := fun x hx =>
    blockSizes_le_maxBlock hk (hs ▸ List.mem_map_of_mem hx)
  rw [codewordSeq, List.length_append, interleave_length, interleave_length, sum_map_min h1, hs, blockSizes_sum,
    sum_map_min (fun x hx => le_of_eq (he x hx)), List.map_congr_left he, List.map_const', List.sum_replicate,
    List.length_map, hn, BlockRow.totalCount]
  simp [Nat.add_comm]

/-- The bounds of the block table: K2 is K1 + 1 where there is a second group, and the counts fit the buffers (R10,
R137). -/
theorem blockTab_bounds (v : Nat) (e : EcLevel) :
    (0 < (blockTab v e).nb2 → (blockTab v e).k1 ≤ (blockTab v e).k2) ∧
      (blockTab v e).dataCount ≤ Config.dinBytes ∧ (blockTab v e).totalCount ≤ Config.cwbBytes := by
  have h : ∀ i : Fin 40, ∀ e : EcLevel, ∀ b ∈ (blockRows e)[i.val]?,
      (0 < b.nb2 → b.k1 ≤ b.k2) ∧ b.dataCount ≤ Config.dinBytes ∧ b.totalCount ≤ Config.cwbBytes := by
    intro i e
    cases e <;> revert i <;> decide
  have hl : (blockRows e).length = 40 := by cases e <;> rfl
  by_cases hv : v - 1 < 40
  · have := h ⟨v - 1, hv⟩ e (blockTab v e) (by simp [blockTab, List.getD, hl, hv])
    exact this
  · have : blockTab v e = ⟨0, 0, 0, 0, 0⟩ := by
      simp [blockTab, List.getD, List.getElem?_eq_none (l := blockRows e) (i := v - 1) (by omega)]
    rw [this]
    decide

/-- RSENC keeps CWB canonical (R141). -/
theorem wf_rsencCwb {v : Nat} {e : EcLevel} {data : List Byte} (hd : data.length = dataCodewords v e)
    {cwb : Memory Byte} (h : Memory.wf Config.cwbBytes cwb = true) :
    Memory.wf Config.cwbBytes (Memory.overlay (Memory.ofList 0 (codewordSeq (blockTab v e) data)) cwb) = true := by
  have hb := blockTab_bounds v e
  exact Memory.wf_overlay (Memory.wf_ofList (by rw [codewordSeq_length hb.1 hd]; exact hb.2.2)) h

/-! ## The layout as arrays (42_matrix_builder.md R170) -/

theorem wf_layoutMod (v : Nat) : Memory.wf Config.gridCells (layoutMod v) = true := Memory.wf_tabulate _
theorem wf_layoutFun (v : Nat) : Memory.wf Config.gridCells (layoutFun v) = true := Memory.wf_tabulate _

theorem layoutKey_cellKey {v r c : Nat} (hc : c < 177) :
    layoutKey v (cellKey r c) =
      if r < symbolSize v ∧ c < symbolSize v then layoutCell v r c else (false, false) := by
  rw [layoutKey, cellKey_div hc, cellKey_mod hc]

theorem read_layoutMod {v r c : Nat} (hr : r < 177) (hc : c < 177) :
    Memory.read (layoutMod v) (cellKey r c) = some (layoutKey v (cellKey r c)).2 := by
  rw [layoutMod, Memory.read_tabulate, if_pos ⟨Nat.zero_le _, by simpa using cellKey_lt hr hc⟩]

theorem read_layoutFun {v r c : Nat} (hr : r < 177) (hc : c < 177) :
    Memory.read (layoutFun v) (cellKey r c) = some (layoutKey v (cellKey r c)).1 := by
  rw [layoutFun, Memory.read_tabulate, if_pos ⟨Nat.zero_le _, by simpa using cellKey_lt hr hc⟩]

/-- The function map of a version, as the grid the engine reads (R169). -/
def functionMap (v : Nat) : Grid :=
  (List.range (symbolSize v)).map (fun r => (List.range (symbolSize v)).map (fun c => (layoutCell v r c).1))

theorem functionMap_isSquare (v : Nat) : (functionMap v).isSquare (symbolSize v) := by
  refine ⟨by simp [functionMap], fun row hrow => ?_⟩
  obtain ⟨r, -, rfl⟩ := List.mem_map.1 hrow
  simp

theorem functionMap_cell {v r c : Nat} (hr : r < symbolSize v) (hc : c < symbolSize v) :
    (functionMap v).cell r c = (layoutCell v r c).1 := by
  apply Grid.cell_eq_of_getElem? (row := (List.range (symbolSize v)).map (fun c => (layoutCell v r c).1))
  · simp [functionMap, hr]
  · simp [hc]

/-- What the engine reads back of FUN after LAYOUT. -/
theorem readSquare_layoutFun {v : Nat} (h : symbolSize v ≤ 177) :
    readSquare (layoutFun v) (symbolSize v) = some (functionMap v) := by
  rw [readSquare_eq_some_iff]
  refine ⟨functionMap_isSquare v, fun r c hr hc => ?_⟩
  rw [read_layoutFun (by omega) (by omega), layoutKey_cellKey (by omega), if_pos ⟨hr, hc⟩, functionMap_cell hr hc]

end Sys2Proof.Machine
end

