-- ==== Sys2Proof/Laws/Layout.lean ====
section
/-! SUPPORT. The function cells of a layout, as conditions on the row and the column (42_matrix_builder.md R161 to
R169): the three corners, the timing row and column, the version blocks, and the alignment patterns. -/

namespace Sys2Proof.Machine

/-- The finder patterns, separators and format cells fill, with the dark module and two timing cells, three corners of
9 x 9, 9 x 8 and 8 x 9 cells. -/
def inCorner (size r c : Nat) : Bool :=
  (decide (r ≤ 8) && (decide (c ≤ 8) || decide (size - 8 ≤ c))) || (decide (c ≤ 8) && decide (size - 8 ≤ r))

/-- A cell of an alignment pattern. -/
def nearAlign (v r c : Nat) : Bool := (alignCentres v).any (fun p => decide (cheb r c p.1 p.2 ≤ 2))

/-- The version blocks; there are none below version 7. -/
def inVersionBlock (v size r c : Nat) : Bool :=
  decide (7 ≤ v) && ((decide (r ≤ 5) && decide (size - 11 ≤ c) && decide (c ≤ size - 9)) ||
    (decide (c ≤ 5) && decide (size - 11 ≤ r) && decide (r ≤ size - 9)))

theorem isVerCell_eq {v r c : Nat} (hv : 1 ≤ v ∧ v ≤ 40) : isVerCell v r c = inVersionBlock v (symbolSize v) r c := by
  have hs := symbolSize_range hv
  rw [Bool.eq_iff_iff]
  unfold isVerCell inVersionBlock
  generalize symbolSize v = S at *
  simp only [Bool.and_eq_true, decide_eq_true_eq, List.any_eq_true, List.mem_range, Bool.or_eq_true, beq_iff_eq,
    verCellA, verCellB, Prod.mk.injEq]
  constructor
  · rintro ⟨h, i, hi, ⟨h1, h2⟩ | ⟨h1, h2⟩⟩ <;> refine ⟨h, ?_⟩ <;> omega
  · rintro ⟨h, ⟨⟨h1, h2⟩, h3⟩ | ⟨⟨h1, h2⟩, h3⟩⟩
    · exact ⟨h, 3 * r + (c - (S - 11)), by omega, .inl (by omega)⟩
    · exact ⟨h, 3 * c + (r - (S - 11)), by omega, .inr (by omega)⟩

/-- The format cells: column 8 and row 8 beside the finder patterns (R166). -/
theorem isFmtCell_iff {size r c : Nat} (hs : 21 ≤ size) :
    isFmtCell size r c = true ↔
      (c = 8 ∧ r ≤ 8 ∧ r ≠ 6) ∨ (r = 8 ∧ c ≤ 7 ∧ c ≠ 6) ∨ (r = 8 ∧ size - 8 ≤ c ∧ c < size) ∨
        (c = 8 ∧ size - 7 ≤ r ∧ r < size) := by
  simp only [isFmtCell, List.any_eq_true, List.mem_range, Bool.or_eq_true, beq_iff_eq]
  constructor
  · rintro ⟨i, hi, h | h⟩
    · unfold fmtCellA at h
      split_ifs at h <;> simp only [Prod.mk.injEq] at h <;> omega
    · unfold fmtCellB at h
      split_ifs at h <;> simp only [Prod.mk.injEq] at h <;> omega
  · rintro (⟨rfl, h1, h2⟩ | ⟨rfl, h1, h2⟩ | ⟨rfl, h1, h2⟩ | ⟨rfl, h1, h2⟩)
    · by_cases h5 : r ≤ 5
      · exact ⟨r, by omega, .inl (by simp [fmtCellA, h5])⟩
      · rcases (by omega : r = 7 ∨ r = 8) with rfl | rfl
        · exact ⟨6, by omega, .inl (by decide)⟩
        · exact ⟨7, by omega, .inl (by decide)⟩
    · by_cases h7 : c = 7
      · subst h7; exact ⟨8, by omega, .inl (by decide)⟩
      · refine ⟨14 - c, by omega, .inl ?_⟩
        unfold fmtCellA
        split_ifs <;> simp <;> omega
    · refine ⟨size - 1 - c, by omega, .inr ?_⟩
      unfold fmtCellB
      split_ifs <;> simp <;> omega
    · refine ⟨r + 15 - size, by omega, .inr ?_⟩
      unfold fmtCellB
      split_ifs <;> simp <;> omega

theorem finderValue_isSome_iff {size r c : Nat} :
    (finderValue size r c).isSome = true ↔
      cheb r c 3 3 ≤ 3 ∨ cheb r c 3 (size - 4) ≤ 3 ∨ cheb r c (size - 4) 3 ≤ 3 := by
  rw [finderValue, Option.isSome_map, List.find?_isSome]
  simp [finderCentres]

theorem isSeparator_iff {size r c : Nat} :
    isSeparator size r c = true ↔
      cheb r c 3 3 = 4 ∨ cheb r c 3 (size - 4) = 4 ∨ cheb r c (size - 4) 3 = 4 := by
  simp [isSeparator, finderCentres]

theorem alignValue_isSome (v r c : Nat) : (alignValue v r c).isSome = nearAlign v r c := by
  rw [alignValue, Option.isSome_map, nearAlign, List.isSome_find?]

theorem timingValue_isSome_iff {size r c : Nat} :
    (timingValue size r c).isSome = true ↔
      (r = 6 ∧ 8 ≤ c ∧ c ≤ size - 9) ∨ (c = 6 ∧ 8 ≤ r ∧ r ≤ size - 9) := by
  unfold timingValue
  split_ifs with h1 h2 <;> simp <;> omega

/-- FUN of the layout is the disjunction of its regions, in any order (R169). -/
theorem layoutCell_fst_eq_or (v r c : Nat) :
    (layoutCell v r c).1 =
      ((finderValue (symbolSize v) r c).isSome || isSeparator (symbolSize v) r c || (alignValue v r c).isSome ||
        (timingValue (symbolSize v) r c).isSome || isFmtCell (symbolSize v) r c ||
        decide ((r, c) = (symbolSize v - 8, 8)) || isVerCell v r c) := by
  cases h1 : finderValue (symbolSize v) r c with
  | some b => simp [layoutCell, h1]
  | none =>
    cases h2 : isSeparator (symbolSize v) r c with
    | true => simp [layoutCell, h1, h2]
    | false =>
      cases h3 : alignValue v r c with
      | some b => simp [layoutCell, h1, h2, h3]
      | none =>
        cases h4 : timingValue (symbolSize v) r c with
        | some b => simp [layoutCell, h1, h2, h3, h4]
        | none =>
          cases h5 : isFmtCell (symbolSize v) r c with
          | true => simp [layoutCell, h1, h2, h3, h4, h5]
          | false =>
            by_cases h6 : (r, c) = (symbolSize v - 8, 8)
            · simp only [layoutCell, h1, h2, h3, h4, h5, if_pos h6, decide_eq_true h6]
              simp
            · cases h7 : isVerCell v r c <;> (simp only [layoutCell, h1, h2, h3, h4, h5, if_neg h6, h7]; simp [h6])

theorem cheb_le_iff {r c r0 c0 k : Nat} :
    cheb r c r0 c0 ≤ k ↔ (r ≤ r0 + k ∧ r0 ≤ r + k) ∧ (c ≤ c0 + k ∧ c0 ≤ c + k) := by
  unfold cheb absDiff
  omega

/-- A finder pattern with its separator. -/
theorem finder_or_separator {size r c : Nat} (hs : 21 ≤ size) (hr : r < size) (hc : c < size) :
    ((finderValue size r c).isSome = true ∨ isSeparator size r c = true) ↔
      (r ≤ 7 ∧ c ≤ 7) ∨ (r ≤ 7 ∧ size - 8 ≤ c) ∨ (size - 8 ≤ r ∧ c ≤ 7) := by
  have h4 : ∀ x : Nat, (x ≤ 3 ∨ x = 4) ↔ x ≤ 4 := by omega
  rw [finderValue_isSome_iff, isSeparator_iff]
  have h : ∀ a b d e f g : Prop, ((a ∨ b ∨ d) ∨ (e ∨ f ∨ g)) ↔ (a ∨ e) ∨ (b ∨ f) ∨ (d ∨ g) := by tauto
  rw [h, h4, h4, h4, cheb_le_iff, cheb_le_iff, cheb_le_iff]
  omega

theorem or_regroup {F T M D C A B : Prop} (h : F ∨ T ∨ M ∨ D ↔ C) :
    ((((F ∨ A) ∨ T) ∨ M) ∨ D) ∨ B ↔ (C ∨ B) ∨ A := by
  rw [← h]
  tauto

/-- The function cells of the symbol: three corners, row and column 6, the version blocks, the alignment patterns. -/
theorem layoutCell_fst {v r c : Nat} (hv : 1 ≤ v ∧ v ≤ 40) (hr : r < symbolSize v) (hc : c < symbolSize v) :
    (layoutCell v r c).1 =
      (inCorner (symbolSize v) r c || decide (r = 6) || decide (c = 6) || inVersionBlock v (symbolSize v) r c ||
        nearAlign v r c) := by
  have hs := (symbolSize_range hv).1
  rw [layoutCell_fst_eq_or, isVerCell_eq hv, alignValue_isSome]
  generalize nearAlign v r c = a
  generalize inVersionBlock v (symbolSize v) r c = b
  generalize symbolSize v = S at *
  have key : (((r ≤ 7 ∧ c ≤ 7) ∨ (r ≤ 7 ∧ S - 8 ≤ c) ∨ (S - 8 ≤ r ∧ c ≤ 7)) ∨
      ((r = 6 ∧ 8 ≤ c ∧ c ≤ S - 9) ∨ (c = 6 ∧ 8 ≤ r ∧ r ≤ S - 9)) ∨
      ((c = 8 ∧ r ≤ 8 ∧ r ≠ 6) ∨ (r = 8 ∧ c ≤ 7 ∧ c ≠ 6) ∨ (r = 8 ∧ S - 8 ≤ c ∧ c < S) ∨
        (c = 8 ∧ S - 7 ≤ r ∧ r < S)) ∨ (r = S - 8 ∧ c = 8)) ↔
      (((r ≤ 8 ∧ (c ≤ 8 ∨ S - 8 ≤ c)) ∨ (c ≤ 8 ∧ S - 8 ≤ r)) ∨ r = 6) ∨ c = 6 := by omega
  have hf := finder_or_separator hs hr hc
  have ht := timingValue_isSome_iff (size := S) (r := r) (c := c)
  have hm := isFmtCell_iff (r := r) (c := c) hs
  rw [Bool.eq_iff_iff]
  simp only [Bool.or_eq_true, hf, ht, hm, decide_eq_true_eq, Prod.mk.injEq, inCorner, Bool.and_eq_true]
  exact or_regroup key

end Sys2Proof.Machine
end

