-- ==== Sys2Proof/Laws/PerInstr.lean ====
section
/-! SUPPORT. Statements about every instruction as syntax, one lemma for each constructor: every term is well-formed,
and its word has a 0 in every bit the command does not use (30_encoding.md R85). -/

namespace Sys2Proof.Laws

/-- R85: the bits a command does not use are 0 in its word, and its operands are in range (R89). -/
def UnusedBits.Statement (i : Instr) : Prop :=
  i.wellFormed = true ∧
  (encode i).getLsbD 7 = false ∧
  (encode i).extractLsb' 16 16 = 0#16 ∧
  ((∀ v e, i ≠ .setcfg v e) → (encode i).extractLsb' 8 8 = 0#8) ∧
  ((∀ m, i ≠ .applymask m) → (∀ m, i ≠ .wrfmt m) → (encode i).extractLsb' 4 3 = 0#3)

theorem UnusedBits.nop : UnusedBits.Statement .nop := by simp [UnusedBits.Statement]; decide

theorem UnusedBits.setcfg (v : BitVec 6) (e : EcLevel) : UnusedBits.Statement (.setcfg v e) := by
  refine ⟨?_, ?_, ?_, fun h => absurd rfl (h v e), fun _ _ => ?_⟩
  · have := v.isLt
    simp [Instr.wellFormed, SrcCmd.ofInstr, SrcCmd.wellFormed, SrcLevel.wellFormed]
    omega
  all_goals revert v; cases e <;> decide

theorem UnusedBits.rsenc : UnusedBits.Statement .rsenc := by simp [UnusedBits.Statement]; decide
theorem UnusedBits.layout : UnusedBits.Statement .layout := by simp [UnusedBits.Statement]; decide
theorem UnusedBits.place : UnusedBits.Statement .place := by simp [UnusedBits.Statement]; decide

theorem UnusedBits.applymask (m : BitVec 3) : UnusedBits.Statement (.applymask m) := by
  refine ⟨?_, ?_, ?_, fun hs => ?_, fun h => absurd rfl (h m)⟩ <;> try clear hs
  all_goals revert m; decide

theorem UnusedBits.score : UnusedBits.Statement .score := by simp [UnusedBits.Statement]; decide

theorem UnusedBits.wrfmt (m : BitVec 3) : UnusedBits.Statement (.wrfmt m) := by
  refine ⟨?_, ?_, ?_, fun hs => ?_, fun _ h => absurd rfl (h m)⟩ <;> try clear hs
  all_goals revert m; decide

theorem UnusedBits.wrver : UnusedBits.Statement .wrver := by simp [UnusedBits.Statement]; decide
theorem UnusedBits.masksel : UnusedBits.Statement .masksel := by simp [UnusedBits.Statement]; decide
theorem UnusedBits.generate : UnusedBits.Statement .generate := by simp [UnusedBits.Statement]; decide
theorem UnusedBits.clrstat : UnusedBits.Statement .clrstat := by simp [UnusedBits.Statement]; decide

/-- Every term of `Instr` is well-formed: its operand fields hold every value R89 admits and no other. -/
theorem instr_wellFormed (i : Instr) : i.wellFormed = true := by
  cases i with
  | nop => exact UnusedBits.nop.1
  | setcfg v e => exact (UnusedBits.setcfg v e).1
  | rsenc => exact UnusedBits.rsenc.1
  | layout => exact UnusedBits.layout.1
  | place => exact UnusedBits.place.1
  | applymask m => exact (UnusedBits.applymask m).1
  | score => exact UnusedBits.score.1
  | wrfmt m => exact (UnusedBits.wrfmt m).1
  | wrver => exact UnusedBits.wrver.1
  | masksel => exact UnusedBits.masksel.1
  | generate => exact UnusedBits.generate.1
  | clrstat => exact UnusedBits.clrstat.1

end Sys2Proof.Laws
end

