-- ==== Sys2Proof/Laws/Pipeline.lean ====
section
/-! SUPPORT. What a command does in the case in which it completes, and GENERATE as its four stages
(40_control.md R115). -/

namespace Sys2Proof.Machine

/-- A grid array that holds a grid is read as that grid. -/
theorem readSquare_of_holdsGrid {m : Memory Bool} {size : Nat} {g : Grid} (h : holdsGrid m size g) :
    readSquare m size = some g := (readSquare_eq_some_iff m size g).2 h

theorem holdsGrid_writeSquare {size : Nat} {g : Grid} (hs : size ≤ 177) (hg : g.isSquare size) (m : Memory Bool) :
    holdsGrid (writeSquare m g) size g :=
  (readSquare_eq_some_iff _ size g).1 (readSquare_writeSquare hs hg m)

/-- A buffer that holds a list is read as that list. -/
theorem readSpan_of_holdsList {α : Type} {m : Memory α} {vs : List α} (h : holdsList m vs) :
    Memory.readSpan m 0 vs.length = some vs := by
  rw [Memory.readSpan_eq_some_iff]
  exact ⟨rfl, fun i hi => by rw [Nat.zero_add]; exact h i hi⟩

theorem holdsList_ofList {α : Type} (vs : List α) (m : Memory α) :
    holdsList (Memory.overlay (Memory.ofList 0 vs) m) vs := by
  intro k hk
  have h : vs[k]? = some vs[k] := by simp [hk]
  rw [Memory.read_overlay, Memory.read_ofList, if_pos (Nat.zero_le _), Nat.sub_zero, h]
  rfl

theorem performRsenc_done {s : State} {data : List Byte} (h : s.cfg.supported = true)
    (hl : data.length = s.dataCount) (hd : holdsList s.din data) :
    performRsenc s =
      .done (s.setCwb (Memory.overlay (Memory.ofList 0 (codewordSeq s.block data)) s.cwb)) := by
  have hr : Memory.readSpan s.din 0 s.dataCount = some data := hl ▸ readSpan_of_holdsList hd
  have hp : performRsenc s = withRead (Memory.readSpan s.din 0 s.dataCount) fun data =>
    .done (s.setCwb (Memory.overlay (Memory.ofList 0 (codewordSeq s.block data)) s.cwb)) :=
    withVersion_of_supported h _
  rw [hp, hr, withRead_some]

theorem performLayout_done {s : State} (h : s.cfg.supported = true) :
    performLayout s = .done ((s.setMod (layoutMod s.cfg.ver.toNat)).setFun (layoutFun s.cfg.ver.toNat)) :=
  withVersion_of_supported h _

theorem performPlace_done {s : State} {f : Grid} {cw : List Byte} (h : s.cfg.supported = true)
    (hf : readSquare s.funArr s.side = some f) (hc : 8 * s.total ≤ freeCells f) (hl : cw.length = s.total)
    (hw : holdsList s.cwb cw) :
    performPlace s = .done (s.setMod (Memory.overlay (placedCells s.side s.total f cw) s.modArr)) := by
  have hr : Memory.readSpan s.cwb 0 s.total = some cw := hl ▸ readSpan_of_holdsList hw
  have hp : performPlace s = withRead (readSquare s.funArr s.side) fun f =>
    if 8 * s.total > freeCells f then raiseError .layoutOverflow s
    else withRead (Memory.readSpan s.cwb 0 s.total) fun cw =>
      .done (s.setMod (Memory.overlay (placedCells s.side s.total f cw) s.modArr)) :=
    withVersion_of_supported h _
  rw [hp, hf, withRead_some, if_neg (by omega), hr, withRead_some]

theorem performMasksel_done {s : State} {f g : Grid} (h : s.cfg.supported = true)
    (hg : readSquare s.modArr s.side = some g) (hf : readSquare s.funArr s.side = some f) :
    performMasksel s = .done (selected s f g) := by
  have hp : performMasksel s = withRead (readSquare s.modArr s.side) fun g =>
    withRead (readSquare s.funArr s.side) fun f => .done (selected s f g) := withVersion_of_supported h _
  rw [hp, hg, hf, withRead_some, withRead_some]

/-- PLACE as the third stage: after writes of CWB, MOD and FUN. -/
theorem performPlace_stage {s : State} {cwb : Memory Byte} {lm lf : Memory Bool} {f : Grid} {cw : List Byte}
    (h : s.cfg.supported = true) (hf : readSquare lf s.side = some f) (hc : 8 * s.total ≤ freeCells f)
    (hl : cw.length = s.total) (hw : holdsList cwb cw) :
    performPlace (((s.setCwb cwb).setMod lm).setFun lf) =
      .done (((s.setCwb cwb).setFun lf).setMod (Memory.overlay (placedCells s.side s.total f cw) lm)) :=
  performPlace_done (s := ((s.setCwb cwb).setMod lm).setFun lf) h hf hc hl hw

/-- MOD after the first three stages of GENERATE. -/
def placedLayout (s : State) (data : List Byte) : Memory Bool :=
  Memory.overlay (placedCells s.side s.total (functionMap s.cfg.ver.toNat) (codewordSeq s.block data))
    (layoutMod s.cfg.ver.toNat)

/-- The state after the first three stages of GENERATE. -/
def beforeMasksel (s : State) (data : List Byte) : State :=
  ((s.setCwb (Memory.overlay (Memory.ofList 0 (codewordSeq s.block data)) s.cwb)).setFun
    (layoutFun s.cfg.ver.toNat)).setMod (placedLayout s data)

/-- After LAYOUT every cell of MOD has a value, and PLACE keeps that. -/
theorem placedLayout_written (s : State) (data : List Byte) {r c : Nat} (hr : r < 177) (hc : c < 177) :
    Memory.read (placedLayout s data) (cellKey r c) ≠ none := by
  rw [placedLayout, Memory.read_overlay, read_layoutMod hr hc]
  simp

/-- GENERATE completes where the layout has room for the codewords of the version (R115, R171): the chosen mask over
the grid of the first three stages. -/
theorem performGenerate_done {s : State} {data : List Byte} (h : s.cfg.supported = true)
    (hl : data.length = s.dataCount) (hd : holdsList s.din data) (ht : s.block.totalCount = s.total)
    (hc : 8 * s.total ≤ freeCells (functionMap s.cfg.ver.toNat)) :
    ∃ g, readSquare (placedLayout s data) s.side = some g ∧
      performGenerate s = .done (selected (beforeMasksel s data) (functionMap s.cfg.ver.toNat) g) := by
  have hs := side_range h
  have hlen : (codewordSeq s.block data).length = s.total := by
    rw [← ht]; exact codewordSeq_length (blockTab_bounds _ _).1 hl
  have hf : readSquare (layoutFun s.cfg.ver.toNat) s.side = some (functionMap s.cfg.ver.toNat) :=
    readSquare_layoutFun hs.2
  obtain ⟨g, hg⟩ := Option.isSome_iff_exists.1 ((readSquare_isSome_iff (placedLayout s data) s.side).2
    (fun r c hr hc => placedLayout_written s data (by omega) (by omega)))
  refine ⟨g, hg, ?_⟩
  have hp : performGenerate s = (((performRsenc s).andThen performLayout).andThen performPlace).andThen performMasksel :=
    withVersion_of_supported h _
  have h3 := performPlace_stage (lm := layoutMod s.cfg.ver.toNat) h hf hc hlen (holdsList_ofList _ s.cwb)
  have h2 : performLayout (s.setCwb (Memory.overlay (Memory.ofList 0 (codewordSeq s.block data)) s.cwb)) =
      .done (((s.setCwb (Memory.overlay (Memory.ofList 0 (codewordSeq s.block data)) s.cwb)).setMod
        (layoutMod s.cfg.ver.toNat)).setFun (layoutFun s.cfg.ver.toNat)) :=
    performLayout_done (s := s.setCwb (Memory.overlay (Memory.ofList 0 (codewordSeq s.block data)) s.cwb))
      (by simpa using h)
  rw [hp, performRsenc_done h hl hd, andThen_done, h2, andThen_done]
  refine (congrArg (fun x => CmdResult.andThen x performMasksel) h3).trans ?_
  exact performMasksel_done (s := beforeMasksel s data) (by simpa [beforeMasksel] using h)
    (by simpa [beforeMasksel] using hg) (by simpa [beforeMasksel] using hf)

end Sys2Proof.Machine
end

