-- ==== Sys2Proof/Laws/Port.lean ====
section
/-! SUPPORT. The host port: what an address names, what an access can do, and that writes keep the memories canonical
(20_memory.md R51 to R60). -/

namespace Sys2Proof.Machine

/-- The elements and rows an address names exist (R51). -/
theorem regionOf_bounds (addr : HostAddr) :
    (∀ i, regionOf addr = .din i → i < Config.dinBytes) ∧ (∀ i, regionOf addr = .cwb i → i < Config.cwbBytes) ∧
      (∀ r k, regionOf addr = .modByte r k → r < 177 ∧ k < 24) ∧
      (∀ r k, regionOf addr = .funByte r k → r < 177 ∧ k < 24) := by
  unfold regionOf Config.dinBytes Config.cwbBytes
  refine ⟨fun i => ?_, fun i => ?_, fun r k => ?_, fun r k => ?_⟩ <;> dsimp only <;> split_ifs <;> simp <;> omega

/-- A write of a window byte names cells of its row only (R58). -/
theorem mem_windowWrites {r k : Nat} {v : Byte} {x : Nat × Bool} :
    x ∈ windowWrites r k v ↔ ∃ b, (b < 8 ∧ 8 * k + b ≤ 176) ∧ x = (cellKey r (8 * k + b), v.getLsbD (7 - b)) := by
  simp only [windowWrites, List.mem_map, List.mem_filter, List.mem_range, decide_eq_true_eq]
  exact ⟨fun ⟨b, h, e⟩ => ⟨b, h, e.symm⟩, fun ⟨b, h, e⟩ => ⟨b, h, e.symm⟩⟩

theorem wf_writeWindow {m : Memory Bool} {r k : Nat} (v : Byte) (hr : r < 177)
    (hm : Memory.wf Config.gridCells m = true) : Memory.wf Config.gridCells (writeWindow m r k v) = true := by
  refine Memory.wf_writeAll (fun x hx => ?_) hm
  obtain ⟨b, ⟨-, h⟩, rfl⟩ := mem_windowWrites.1 hx
  exact cellKey_lt hr (by omega)

/-- The four memories are canonical (State.memWf), one by one. -/
theorem memWf_iff {s : State} :
    s.memWf = true ↔ Memory.wf Config.dinBytes s.din = true ∧ Memory.wf Config.cwbBytes s.cwb = true ∧
      Memory.wf Config.gridCells s.modArr = true ∧ Memory.wf Config.gridCells s.funArr = true := by
  simp [State.memWf, and_assoc]

@[simp] theorem offerCommand_memWf (w : Word) (s : State) : (offerCommand w s).memWf = s.memWf := by
  unfold offerCommand acceptCommand
  split <;> rfl

/-- A legal write keeps the memories canonical (R56 to R59). -/
theorem portWrite_memWf {s : State} (addr : HostAddr) (v : BitVec 64) (h : s.memWf = true) :
    (portWrite s addr v).memWf = true := by
  have hb := regionOf_bounds addr
  have hs := memWf_iff.1 h
  unfold portWrite
  split
  · split
    · rw [offerCommand_memWf]; exact h
    · exact h
  · exact memWf_iff.2 ⟨Memory.wf_write _ (hb.1 _ ‹_›) hs.1, hs.2⟩
  · exact memWf_iff.2 ⟨hs.1, Memory.wf_write _ (hb.2.1 _ ‹_›) hs.2.1, hs.2.2⟩
  · exact memWf_iff.2 ⟨hs.1, hs.2.1, wf_writeWindow _ (hb.2.2.1 _ _ ‹_›).1 hs.2.2.1, hs.2.2.2⟩
  · exact memWf_iff.2 ⟨hs.1, hs.2.1, hs.2.2.1, wf_writeWindow _ (hb.2.2.2 _ _ ‹_›).1 hs.2.2.2⟩
  · exact h

/-- Everything an access can do: the busy hazard, a refusal by the port, a read's answer or its fault, a write. -/
theorem hostAccess_cases (a : HostAccess) (s : State) :
    (s.status.busy = true ∧ a.allowedWhileBusy = false ∧ hostAccess a s = .fault .busyHazard) ∨
    ((s.status.busy = false ∨ a.allowedWhileBusy = true) ∧
      ((∃ addr n, a = .read addr n ∧
        ((legalAccess addr n = false ∧ hostAccess a s = .next (s.setReply (.accessError addr))) ∨
         (legalAccess addr n = true ∧ portRead s addr = none ∧ hostAccess a s = .fault .unwrittenRead) ∨
         (legalAccess addr n = true ∧ ∃ r, portRead s addr = some r ∧ hostAccess a s = .next (s.setReply r)))) ∨
       (∃ addr n v, a = .write addr n v ∧
        ((legalAccess addr n = false ∧ hostAccess a s = .next (s.setReply (.accessError addr))) ∨
         (legalAccess addr n = true ∧ hostAccess a s = .next ((portWrite s addr v).setReply .ack)))))) := by
  by_cases hz : (s.status.busy && !a.allowedWhileBusy) = true
  · left
    rw [Bool.and_eq_true, Bool.not_eq_true'] at hz
    exact ⟨hz.1, hz.2, by simp [hostAccess, hz.1, hz.2]⟩
  · right
    have hz' : s.status.busy = false ∨ a.allowedWhileBusy = true := by
      cases hb : s.status.busy <;> cases ha : a.allowedWhileBusy <;> simp_all
    refine ⟨hz', ?_⟩
    cases a with
    | read addr n =>
      refine .inl ⟨addr, n, rfl, ?_⟩
      cases hl : legalAccess addr n with
      | false => exact .inl ⟨rfl, by simp only [hostAccess, if_neg hz, hl]; rfl⟩
      | true =>
        refine .inr ?_
        cases hp : portRead s addr with
        | none => exact .inl ⟨rfl, rfl, by simp only [hostAccess, if_neg hz, hl, hp]; rfl⟩
        | some r => exact .inr ⟨rfl, r, rfl, by simp only [hostAccess, if_neg hz, hl, hp]; rfl⟩
    | write addr n v =>
      refine .inr ⟨addr, n, v, rfl, ?_⟩
      cases hl : legalAccess addr n with
      | false => exact .inl ⟨rfl, by simp only [hostAccess, if_neg hz, hl]; rfl⟩
      | true => exact .inr ⟨rfl, by simp only [hostAccess, if_neg hz, hl]; rfl⟩

end Sys2Proof.Machine
end

