-- ==== Sys2Proof/Tests/Slice0.lean ====
section
/-! SUPPORT. Tests of one step each, with the results of spec/95_test_vectors.md (the vector is named at each), and
for every statement with hypotheses a witness that meets them. -/

namespace Sys2Proof.Tests

open Sys2Proof Sys2Proof.Machine

/-! ## Well-formedness: an ill-formed source form for each check (30_encoding.md R89) -/

theorem test_wellFormed_refuses_setcfg_64 :
    (SrcCmd.setcfg 64 (.letter .M)).wellFormed = false ∧ (SrcCmd.setcfg 64 (.letter .M)).toInstr = none ∧
    (SrcCmd.setcfg 63 (.letter .M)).toInstr = some (.setcfg 63#6 .M) := by decide

theorem test_wellFormed_refuses_raw_level_4 :
    (SrcCmd.setcfg 1 (.raw 4)).wellFormed = false ∧ (SrcCmd.setcfg 1 (.raw 4)).toInstr = none ∧
    (SrcCmd.setcfg 1 (.raw 3)).toInstr = some (.setcfg 1#6 .Q) := by decide

theorem test_wellFormed_refuses_applymask_8 :
    (SrcCmd.applymask 8).wellFormed = false ∧ (SrcCmd.applymask 8).toInstr = none ∧
    (SrcCmd.applymask 7).toInstr = some (.applymask 7#3) := by decide

theorem test_wellFormed_refuses_wrfmt_8 :
    (SrcCmd.wrfmt 8).wellFormed = false ∧ (SrcCmd.wrfmt 8).toInstr = none ∧
    (SrcCmd.wrfmt 7).toInstr = some (.wrfmt 7#3) := by decide

/-! ## Decoding: each row of R86, its word written out bit by bit -/

theorem test_decode_nop : decode 0b00000000000000000000000000000000#32 = .ok .nop := by decide
theorem test_decode_setcfg : decode 0b00000000000000001010100000000001#32 = .ok (.setcfg 40#6 .H) := by decide
theorem test_decode_rsenc : decode 0b00000000000000000000000000000010#32 = .ok .rsenc := by decide
theorem test_decode_layout : decode 0b00000000000000000000000000000011#32 = .ok .layout := by decide
theorem test_decode_place : decode 0b00000000000000000000000000000100#32 = .ok .place := by decide
theorem test_decode_applymask : decode 0b00000000000000000000000001100101#32 = .ok (.applymask 6#3) := by decide
theorem test_decode_score : decode 0b00000000000000000000000000000110#32 = .ok .score := by decide
theorem test_decode_wrfmt : decode 0b00000000000000000000000000010111#32 = .ok (.wrfmt 1#3) := by decide
theorem test_decode_wrver : decode 0b00000000000000000000000000001000#32 = .ok .wrver := by decide
theorem test_decode_masksel : decode 0b00000000000000000000000000001001#32 = .ok .masksel := by decide
theorem test_decode_generate : decode 0b00000000000000000000000000001010#32 = .ok .generate := by decide
theorem test_decode_clrstat : decode 0b00000000000000000000000000001011#32 = .ok .clrstat := by decide

/-- ERR-2, ERR-3, MASK-3, P3 step 5: reserved opcode, bit 7, a MSK bit of LAYOUT, and bit 31 of NOP. -/
theorem test_decode_illegal :
    decode 0x0000000C#32 = .error .reservedOpcode ∧ decode 0x00000181#32 = .error .unusedBitSet ∧
    decode 0x00000085#32 = .error .unusedBitSet ∧ decode 0x00000013#32 = .error .unusedBitSet ∧
    decode 0x80000000#32 = .error .unusedBitSet := by decide

/-- The host's entry, and the word of 30_encoding.md R89 for SETCFG 5, Q (CTL-5). -/
theorem test_decodeTableWord :
    decodeTableWord 32 0xC501 = some (.setcfg 5#6 .Q) ∧ decodeTableWord 32 0x81 = none ∧
    encode (.setcfg 5#6 .Q) = 0x0000C501#32 := by decide

/-! ## Control commands -/

/-- A state after reset with a configuration. -/
def configured (v : BitVec 6) (e : EcLevel) : State := { State.reset with cfg := ⟨v, e⟩ }

/-- The next state of a command passes a check. -/
def runs (i : Instr) (s : State) (p : State → Bool) : Bool :=
  match exec i s with
  | .next t => p t
  | .fault _ => false
  | .refused _ => false

/-- CTL-1: STATUS = 0x00000002. -/
theorem test_nop : runs .nop State.reset (fun t => t.status.word == 0x00000002#32) = true := by decide

/-- CTL-11: a NOP after an error clears ERR. -/
theorem test_nop_after_error :
    runs .nop { State.reset with status := ⟨false, true, 3#3, false⟩ } (fun t => t.status.word == 2#32) = true := by
  decide

/-- CTL-5: SETCFG 5, Q and the registers computed from it. -/
theorem test_setcfg_5Q :
    runs (.setcfg 5#6 .Q) State.reset (fun t => t.cfg.word == 0x000000C5#32 && info0 t.cfg == 0x0086003E#32 &&
      info1 t.cfg == 0x00120725#32 && info2 t.cfg == 0x10020F02#32) = true := by decide

/-- CTL-9: SETCFG 63, Q is stored without an error and INFO0 to INFO2 read 0. -/
theorem test_setcfg_63Q :
    runs (.setcfg 63#6 .Q) State.reset (fun t => t.cfg.word == 0x000000FF#32 && t.status.word == 2#32 &&
      info0 t.cfg == 0#32 && info1 t.cfg == 0#32 && info2 t.cfg == 0#32) = true := by decide

/-- CTL-10: CLRSTAT with STATUS = 0x00000022. -/
theorem test_clrstat :
    runs .clrstat { State.reset with status := ⟨false, true, 0#3, true⟩ } (fun t => t.status.word == 2#32) = true := by
  decide

/-! ## The Reed-Solomon encoder -/

/-- The products of 95_test_vectors.md section 2.2. -/
theorem test_gfMul :
    [gfMul 0#8 7#8, gfMul 1#8 171#8, gfMul 2#8 128#8, gfMul 3#8 7#8, gfMul 83#8 202#8, gfMul 255#8 255#8] =
      [0#8, 171#8, 29#8, 9#8, 143#8, 226#8] := by decide

/-- Section 2.3: GEN(10). -/
theorem test_genPoly :
    (genPoly 10).map BitVec.toNat = [1, 216, 194, 159, 111, 199, 94, 95, 113, 157, 193] := by decide +kernel

/-- The data codewords of L1-1. -/
def hello : List Byte :=
  [0x40#8, 0x54#8, 0x84#8, 0x54#8, 0xC4#8, 0xC4#8, 0xF0#8, 0xEC#8, 0x11#8, 0xEC#8, 0x11#8, 0xEC#8, 0x11#8, 0xEC#8,
   0x11#8, 0xEC#8]

/-- RS-3: the EC codewords of "HELLO", and the data codewords before them. -/
theorem test_rsenc_hello :
    runs .rsenc { configured 1#6 .M with din := Memory.ofList 0 hello } (fun t =>
      t.cwb == Memory.ofList 0 (hello ++ [0x23#8, 0x73#8, 0x23#8, 0x99#8, 0xEC#8, 0x08#8, 0xC9#8, 0xF7#8, 0x37#8,
        0xDF#8])) = true := by decide +kernel

/-- RS-4: the order of two groups, and the places where the second group's last codewords stand. -/
theorem test_rsenc_5Q :
    runs .rsenc { configured 5#6 .Q with din := Memory.ofList 0 ((List.range 62).map (BitVec.ofNat 8)) } (fun t =>
      Memory.readSpan t.cwb 0 5 == some [0x00#8, 0x0F#8, 0x1E#8, 0x2E#8, 0x01#8] &&
      Memory.readSpan t.cwb 60 6 == some [0x2D#8, 0x3D#8, 0x82#8, 0x55#8, 0x12#8, 0x44#8] &&
      Memory.readSpan t.cwb 130 5 == none &&
      Memory.readSpan t.cwb 130 4 == some [0x67#8, 0x9A#8, 0x8A#8, 0x13#8]) = true := by decide +kernel

/-! ## The layout -/

/-- LAY-1: row 0, row 6, row 8, row 9 and row 13 of the function map of version 1. -/
theorem test_layout_function_rows :
    [0, 6, 8, 9, 13].map (fun r => bitsToNat ((List.range 21).map (fun c => (layoutCell 1 r c).1))) =
      [0b111111111000011111111, 0b111111111111111111111, 0b111111111000011111111, 0b000000100000000000000,
       0b111111111000000000000] := by decide +kernel

/-- LAY-2: row 1, row 6, row 8, row 13 and row 17 of the module values of version 1 after LAYOUT. -/
theorem test_layout_module_rows :
    [1, 6, 8, 13, 17].map (fun r => bitsToNat ((List.range 21).map (fun c => (layoutCell 1 r c).2))) =
      [0b100000100000001000001, 0b111111101010101111111, 0b000000100000000000000, 0b000000001000000000000,
       0b101110100000000000000] := by decide +kernel

/-- LAY-3: the alignment pattern of version 2. -/
theorem test_layout_alignment :
    [layoutCell 2 18 18, layoutCell 2 17 17, layoutCell 2 17 18, layoutCell 2 16 16, layoutCell 2 18 20] =
      [(true, true), (true, false), (true, false), (true, true), (true, true)] := by decide +kernel

/-- R169: cells in no region are light data cells: the last cell of versions 1 and 40, and a cell of version 6 where
version 7 on has its version block. -/
theorem test_layout_data_cells :
    [layoutCell 1 20 20, layoutCell 1 9 20, layoutCell 6 0 30, layoutCell 40 176 176] =
      [(false, false), (false, false), (false, false), (false, false)] := by decide +kernel

/-- R137: the spot checks under its table. -/
theorem test_blockTab :
    [blockTab 1 .M, blockTab 5 .Q, blockTab 40 .L] =
      [⟨10, 1, 16, 0, 0⟩, ⟨18, 2, 15, 2, 16⟩, ⟨30, 19, 118, 6, 119⟩] := by decide

/-- R164: the table's rows for versions 7, 32 and 36. -/
theorem test_alignPos :
    [alignPos 7, alignPos 32, alignPos 36] =
      [[6, 22, 38], [6, 34, 60, 86, 112, 138], [6, 24, 50, 76, 102, 128, 154]] := by decide

/-- LAYOUT writes every cell of both arrays, the cells outside the symbol with 0 (R170). -/
theorem test_layout_clears :
    exec .layout (configured 1#6 .M) =
      .next ((((configured 1#6 .M).setMod (layoutMod 1)).setFun (layoutFun 1)).ended 0#3) ∧
    Memory.read (layoutMod 1) (cellKey 176 176) = some false ∧
    Memory.read (layoutFun 1) (cellKey 176 176) = some false := by
  refine ⟨rfl, ?_, ?_⟩
  · rw [read_layoutMod (by omega) (by omega)]; decide
  · rw [read_layoutFun (by omega) (by omega)]; decide

/-! ## The placer -/

/-- The unmasked grid U of program P2, step 6. -/
def gridU : Grid :=
  ([0b111111100101101111111, 0b100000100110001000001, 0b101110100000101011101, 0b101110100110001011101,
    0b101110100000001011101, 0b100000100011101000001, 0b111111101010101111111, 0b000000000000100000000,
    0b000000100111100000000, 0b111111010011011101000, 0b101011101100001001010, 0b111110000011011101000,
    0b110011111100000000001, 0b000000001110000001100, 0b111111100011110110010, 0b100000100110100011010,
    0b101110100001110110010, 0b101110100001011001100, 0b101110100000001000000, 0b100000100011011111000,
    0b111111100000000110010] : List (BitVec 21)).map (fun row => (List.range 21).map (fun c => row.getLsbD (20 - c)))

/-- The function map of version 1: LAY-1. -/
def mapOne : Grid :=
  ([0b111111111000011111111, 0b111111111000011111111, 0b111111111000011111111, 0b111111111000011111111,
    0b111111111000011111111, 0b111111111000011111111, 0b111111111111111111111, 0b111111111000011111111,
    0b111111111000011111111, 0b000000100000000000000, 0b000000100000000000000, 0b000000100000000000000,
    0b000000100000000000000, 0b111111111000000000000, 0b111111111000000000000, 0b111111111000000000000,
    0b111111111000000000000, 0b111111111000000000000, 0b111111111000000000000, 0b111111111000000000000,
    0b111111111000000000000] : List (BitVec 21)).map (fun row => (List.range 21).map (fun c => row.getLsbD (20 - c)))

/-- ZZ-1: the first cells of the zigzag of version 1, and the first after the turn at the top. -/
theorem test_zigzag :
    (zigzag 21).take 4 = [(20, 20), (20, 19), (19, 20), (19, 19)] ∧
    ((zigzag 21).drop 40).take 4 = [(0, 20), (0, 19), (0, 18), (0, 17)] ∧ (5, 6) ∉ zigzag 21 := by decide +kernel

/-- R190: version 1 has the pairs (20, 19) to (8, 7), the last of them upward, then (5, 4) downward, and ends in the
bottom-left cell. -/
theorem test_zigzag_skip :
    [252, 253, 293, 294, 295, 419, 420].map (fun n => (zigzag 21)[n]?) =
      [some (20, 8), some (20, 7), some (0, 7), some (0, 5), some (0, 4), some (20, 0), none] := by decide +kernel

/-- A square of one value. -/
def plain (size : Nat) (b : Bool) : Grid := List.replicate size (List.replicate size b)

/-- L1-9, ZZ-1: bits 0, 1, 0, 0 of 0x40 in the first four data cells. -/
theorem test_place_order :
    placeWrites mapOne (List.replicate 26 0x40#8) 208 ((zigzag 21).take 4) 0 =
      [(cellKey 20 20, false), (cellKey 20 19, true), (cellKey 19 20, false), (cellKey 19 19, false)] := by
  decide +kernel

/-- ERR-6: PLACE after reset ends with UNSUPPORTED_VERSION, not with a fault. -/
theorem test_place_after_reset :
    runs .place State.reset (fun t => t.status.word == 0x00000006#32) = true := by decide

/-! ## Masks and the penalty -/

/-- MASK-1: the masks 5, 6 and 7 on rows and columns 0 to 5. -/
theorem test_maskFn :
    [5#3, 6#3, 7#3].map (fun m => (List.range 6).map (fun i => bitsToNat ((List.range 6).map (fun j => maskFn m i j)))) =
      [[0b111111, 0b100000, 0b100100, 0b101010, 0b100100, 0b100000],
       [0b111111, 0b111000, 0b110110, 0b101010, 0b101101, 0b100011],
       [0b101010, 0b000111, 0b100011, 0b010101, 0b111000, 0b011100]] := by decide

/-- MASK-2 on data cells: APPLYMASK 0 makes (20, 20) dark and leaves (20, 19) light. -/
theorem test_applymask :
    runs (.applymask 0#3) { configured 1#6 .M with modArr := writeSquare [] (plain 21 false), funArr := writeSquare [] (plain 21 false) }
      (fun t => Memory.read t.modArr (cellKey 20 20) == some true &&
        Memory.read t.modArr (cellKey 20 19) == some false) = true := by decide +kernel

/-- R211: a function cell is never changed. -/
theorem test_applymask_function_cell :
    runs (.applymask 1#3) { configured 1#6 .M with modArr := writeSquare [] (plain 21 false), funArr := writeSquare [] (plain 21 true) }
      (fun t => Memory.read t.modArr (cellKey 20 20) == some false) = true := by decide +kernel

/-- PEN-1a: the all-light 21 x 21 grid. -/
theorem test_score_all_light :
    runs .score { configured 1#6 .M with modArr := writeSquare [] (plain 21 false) } (fun t =>
      [t.part1, t.part2, t.part3, t.part4, t.ptotal] == [798#32, 1200#32, 0#32, 90#32, 2088#32]) = true := by
  decide +kernel

/-- PEN-1d: the checkerboard with row 10 replaced by 000010111010000101010. -/
theorem test_score_finder_like :
    runs .score { configured 1#6 .M with modArr := writeSquare [] ((List.range 21).map (fun r =>
        (List.range 21).map (fun c => if r = 10 then (0b000010111010000101010#21).getLsbD (20 - c)
          else (r + c) % 2 == 0))) } (fun t =>
      [t.part1, t.part2, t.part3, t.part4, t.ptotal] == [0#32, 0#32, 80#32, 0#32, 80#32]) = true := by
  decide +kernel

/-- L1-7: BestMask. -/
theorem test_bestMask :
    [bestMask [10, 5, 5, 7, 9, 5, 8, 6], bestMask [7, 7, 7, 7, 7, 7, 7, 7], bestMask [9, 9, 9, 9, 9, 9, 9, 3]] =
      [1, 0, 7] := by decide

/-! ## Format and version information -/

/-- FMT-1: WRFMT 2 at level M, the bits of copy A and copy B. -/
theorem test_wrfmt :
    runs (.wrfmt 2#3) (configured 1#6 .M) (fun t =>
      [(0, 8), (5, 8), (7, 8), (8, 8), (8, 7), (8, 5), (8, 0), (8, 20), (8, 13), (14, 8), (20, 8)].map
        (fun p => Memory.read t.modArr (cellKey p.1 p.2)) ==
      [some false, some true, some true, some false, some false, some true, some true, some false, some false,
       some false, some true] && Memory.read t.modArr (cellKey 13 8) == none) = true := by decide +kernel

/-- VER-1, P4 step 5: the six rows of copy A of version 7, columns 34 to 36. -/
theorem test_wrver :
    runs .wrver (configured 7#6 .L) (fun t =>
      (List.range 6).map (fun r => Memory.readSpan t.modArr (cellKey r 34) 3) ==
        [some [false, false, true], some [false, true, false], some [false, true, false], some [false, true, true],
         some [true, true, true], some [false, false, false]]) = true := by decide +kernel

/-- VER-2: nothing is written below version 7. -/
theorem test_wrver_3M :
    runs .wrver (configured 3#6 .M) (fun t => t.status.word == 2#32 && t.modArr == []) = true := by decide

/-! ## Mask selection and the pipeline -/


/-- SEL-1: the eight penalties of the grid U, and its mask. -/
theorem test_masksel :
    runs .masksel { configured 1#6 .M with modArr := writeSquare [] gridU, funArr := writeSquare [] mapOne } (fun t =>
      t.maskid == 2#3 && t.pen.toList.map BitVec.toNat == [469, 504, 441, 545, 535, 509, 524, 581]) = true := by
  decide +kernel

/-- Version 1-M with the data codewords of "HELLO" in DIN (L1-1). -/
def helloState : State := { configured 1#6 .M with din := Memory.ofList 0 hello }

/-- LAY-1: 208 cells of version 1 are data cells. -/
theorem test_dataCells_one : freeCells (functionMap 1) = 208 := by decide +kernel

/-- RS-3: the codewords of "HELLO". -/
theorem test_codewords_hello :
    codewordSeq (blockTab 1 .M) hello = hello ++ [0x23#8, 0x73#8, 0x23#8, 0x99#8, 0xEC#8, 0x08#8, 0xC9#8, 0xF7#8,
      0x37#8, 0xDF#8] := by decide +kernel

theorem helloState_holds : holdsList helloState.din hello := by
  intro k hk
  show Memory.read (Memory.ofList 0 hello) k = _
  rw [Memory.read_ofList]
  simp

/-- GENERATE of "HELLO" completes whatever else the state holds, its codewords are in CWB and the layout of
version 1 is in FUN. -/
theorem generate_hello {s : State} (hc : s.cfg = ⟨1#6, .M⟩) (hd : holdsList s.din hello) :
    ∃ t, exec .generate s = .next t ∧ t.status.err = 0#3 ∧
      t.cwb = Memory.overlay (Memory.ofList 0 (codewordSeq (blockTab 1 .M) hello)) s.cwb ∧ t.funArr = layoutFun 1 := by
  have hv : s.cfg.ver.toNat = 1 := by rw [hc]; rfl
  have hb : s.block = blockTab 1 .M := by simp only [State.block, hc]; rfl
  obtain ⟨g, -, h⟩ := performGenerate_done (s := s) (data := hello) (by rw [hc]; decide)
    (by simp only [State.dataCount, hc]; decide) hd (by simp only [State.block, State.total, hc]; decide)
    (by simp only [State.total, hv, test_dataCells_one]; decide)
  refine ⟨(selected (beforeMasksel s hello) (functionMap s.cfg.ver.toNat) g).ended 0#3, ?_, rfl, ?_, ?_⟩
  · exact (congrArg complete h).trans (complete_done _)
  · simp [selected, beforeMasksel, State.ended, hb]
  · simp [selected, beforeMasksel, State.ended, hv]

/-- CTL-12. -/
theorem test_generate :
    ∃ t, exec .generate helloState = .next t ∧ t.status.err = 0#3 ∧
      t.cwb = Memory.overlay (Memory.ofList 0 (codewordSeq (blockTab 1 .M) hello)) [] ∧ t.funArr = layoutFun 1 :=
  generate_hello rfl helloState_holds

/-! ## The port, the engine and reset -/

/-- A state after reset in which these things happen next. -/
def facing (l : List HostEvent) : State := { State.reset with inputs := l }

/-- The next state of a step passes a check. -/
def steps (s : State) (p : State → Bool) : Bool :=
  match step s with
  | .next t => p t
  | .fault _ => false
  | .refused _ => false

/-- ERR-2: the engine's step of a reserved opcode after reset. -/
theorem test_step_reserved_opcode :
    steps (State.reset.withFetchWord 32 0x0000000C) (fun t => t.status.word == 0x0000000E#32) = true := by decide

/-- ERR-2: the same word met by an engine turn while the host has more to do. -/
theorem test_step_reserved_opcode_turn :
    steps { State.reset.withFetchWord 32 0x0000000C with inputs := [.engineTurn, .resetInput] }
      (fun t => t.status.word == 0x0000000E#32 && t.inputs == [.resetInput]) = true := by decide

/-- ERR-8, ERR-9, ERR-10: accesses of a width or alignment the port refuses. -/
theorem test_port_refuses :
    steps (facing [.access (.read 0x0004#16 .one)]) (fun t => t.reply == some (.accessError 0x0004#16)) = true ∧
    steps (facing [.access (.write 0x1000#16 .four 0x12345678#64)])
      (fun t => t.reply == some (.accessError 0x1000#16) && t.din == []) = true ∧
    steps (facing [.access (.read 0x0006#16 .four)]) (fun t => t.reply == some (.accessError 0x0006#16)) = true := by
  decide

/-- ERR-11: reserved addresses read 0, a write to CFG is ignored. -/
theorem test_port_reserved :
    steps (facing [.access (.read 0x001C#16 .four)]) (fun t => t.reply == some (.word 0#32)) = true ∧
    steps (facing [.access (.read 0x1B8C#16 .one)]) (fun t => t.reply == some (.byte 0#8)) = true ∧
    steps (facing [.access (.write 0x0008#16 .four 0xFFFFFFFF#64)]) (fun t => t.cfg.word == 0#32) = true := by decide

/-- A step ends in this fault. -/
def faults (s : State) (f : Fault) : Bool :=
  match step s with
  | .next _ => false
  | .fault g => g == f
  | .refused _ => false

/-- ERR-12: CWB[0] after reset. -/
theorem test_port_unwritten : faults (facing [.access (.read 0x2000#16 .one)]) .unwrittenRead = true := by decide

/-- ERR-13: a DIN write while BUSY = 1. -/
theorem test_port_busy_hazard :
    faults { facing [.access (.write 0x1000#16 .one 0#64)] with status := ⟨true, false, 0#3, false⟩ } .busyHazard =
      true := by decide

/-- P3 step 7: 0x08 at 0x61E2 sets FUN[20][20] and clears the seven cells beside it. -/
theorem test_port_fun_window :
    steps (facing [.access (.write 0x61E2#16 .one 0x08#64)]) (fun t =>
      Memory.read t.funArr (cellKey 20 20) == some true && Memory.read t.funArr (cellKey 20 16) == some false &&
      Memory.read t.funArr (cellKey 20 23) == some false && Memory.read t.funArr (cellKey 20 24) == none) = true := by
  decide +kernel

/-! ## A witness for the hypotheses of each statement

Each says that some state and operands meet all the hypotheses of the statement it is named after together; where a
statement has several clauses, one for each, at a boundary of its range. -/

theorem witness_EncodeOfDecodedWord : ∃ w i, decode w = .ok i := ⟨0x0000FF01#32, .setcfg 63#6 .Q, by decide⟩

theorem witness_DecodeTableRowsDisjoint :
    (∃ r w, r ∈ decodeTable ∧ r.selects w = true) ∧ ∃ w, ∀ r ∈ decodeTable, r.selects w = false :=
  ⟨⟨_, 0x00000075#32, List.mem_of_getElem? (i := 5) rfl, by decide⟩, 0x0000000C#32, by decide⟩

/-- A command in flight. -/
def inFlight (w : Word) : State := { State.reset with pendcmd := w, status := ⟨true, false, 0#3, false⟩ }

/-- An illegal word with no input left, and with an engine turn first among the inputs; the five kinds of illegal word,
at their lowest and highest bits; and a legal word with all operand bits set. -/
theorem witness_IllegalWordPerformsNothing :
    ((inFlight 0xC#32).status.busy = true ∧ (inFlight 0xC#32).inputs = []) ∧
    (({ inFlight 0xC#32 with inputs := [.engineTurn, .resetInput] } : State).status.busy = true ∧
      ({ inFlight 0xC#32 with inputs := [.engineTurn, .resetInput] } : State).inputs = .engineTurn :: [.resetInput]) ∧
    0xC ≤ (fieldOp 0xC#32).toNat ∧ 0xC ≤ (fieldOp 0xF#32).toNat ∧ (0x80#32 : Word).getLsbD 7 = true ∧
    (0x10000#32 : Word).getLsbD 16 = true ∧ (0x80000000#32 : Word).getLsbD 31 = true ∧
    (fieldOp 0x100#32 ≠ 0x1#4 ∧ (0x100#32 : Word).getLsbD 8 = true) ∧
    (fieldOp 0x8000#32 ≠ 0x1#4 ∧ (0x8000#32 : Word).getLsbD 15 = true) ∧
    (fieldOp 0x11#32 ≠ 0x5#4 ∧ fieldOp 0x11#32 ≠ 0x7#4 ∧ (0x11#32 : Word).getLsbD 4 = true) ∧
    (fieldOp 0x46#32 ≠ 0x5#4 ∧ fieldOp 0x46#32 ≠ 0x7#4 ∧ (0x46#32 : Word).getLsbD 6 = true) ∧
    decode 0x0000FF01#32 = .ok (.setcfg 63#6 .Q) := by decide

theorem witness_StepRunsDecodedCommand :
    (∃ (s : State) (i : Instr), s.status.busy = true ∧ decode s.pendcmd = .ok i ∧ s.inputs = []) ∧
    (∃ (s : State) (i : Instr) (rest : List HostEvent), s.status.busy = true ∧ decode s.pendcmd = .ok i ∧ s.inputs = .engineTurn :: rest) ∧
    (∃ (s : State) (rest : List HostEvent), s.status.busy = false ∧ s.inputs = .engineTurn :: rest) ∧
    (∃ s : State, s.status.busy = false ∧ s.inputs = []) ∧ ∃ w i, decode w = .ok i :=
  ⟨⟨inFlight 0#32, .nop, by decide⟩,
   ⟨{ inFlight 0xB#32 with inputs := [.engineTurn] }, .clrstat, [], by decide⟩,
   ⟨facing [.engineTurn], [], by decide⟩, ⟨State.reset, by decide⟩, ⟨0#32, .nop, by decide⟩⟩

theorem witness_CommandWriteAcceptedOrDropped :
    (∃ (s : State) (w : Word) (rest : List HostEvent),
      s.inputs = .access (.write 0x0000#16 .four (w.setWidth 64)) :: rest ∧ s.status.busy = false) ∧
    ∃ (s : State) (w : Word) (rest : List HostEvent),
      s.inputs = .access (.write 0x0000#16 .four (w.setWidth 64)) :: rest ∧ s.status.busy = true :=
  ⟨⟨facing [.access (.write 0x0000#16 .four 0xFFFFFFFF#64)], 0xFFFFFFFF#32, [], by decide⟩,
   ⟨{ inFlight 0#32 with inputs := [.access (.write 0x0000#16 .four 0xA#64)] }, 0xA#32, [], by decide⟩⟩

theorem witness_EveryCommandEndsDone :
    (∃ s t, exec .clrstat s = .next t) ∧ ∃ s t, exec .nop s = .next t ∧ ∀ v e, Instr.nop ≠ .setcfg v e :=
  ⟨⟨State.reset, _, rfl⟩, State.reset, _, rfl, fun _ _ h => by cases h⟩

theorem witness_OnlyTheNamedCommandsWrite :
    (∃ s t, exec .nop s = .next t) ∧ (∃ s t, exec .wrver s = .next t) ∧ ∃ s t, exec (.setcfg 1#6 .M) s = .next t :=
  ⟨⟨State.reset, _, rfl⟩, ⟨State.reset, _, rfl⟩, State.reset, _, rfl⟩

theorem witness_CommandsFaultOnlyOnUnwrittenReads : ∃ s f, exec .score s = .fault f :=
  ⟨configured 1#6 .M, .unwrittenRead, rfl⟩

theorem witness_PollingDoesNotChangeResult :
    ∃ (n : Nat) (s t : State), s.status.busy = true ∧ s.inputs = List.replicate n readStatus ++ [.engineTurn] ∧
      engineStep { s with inputs := [] } = .next t :=
  ⟨3, { inFlight 0xB#32 with inputs := List.replicate 3 readStatus ++ [.engineTurn] }, _, rfl, rfl, rfl⟩

theorem witness_AcceptedCommandIsOverAfterOneStep : ∃ s : State, s.status.busy = true ∧ s.inputs = [] :=
  ⟨inFlight 0x2#32, rfl, rfl⟩

theorem witness_UnsupportedVersionRefused :
    (needsVersion .rsenc = true ∧ (configured 0#6 .M).cfg.ver.toNat = 0) ∧
    (needsVersion (.wrfmt 7#3) = true ∧ 41 ≤ (configured 41#6 .L).cfg.ver.toNat) ∧
    41 ≤ (configured 63#6 .H).cfg.ver.toNat ∧ needsVersion .clrstat = false := by decide

/-- PLACE with no data cell in the square. -/
def fullMap : State := { configured 1#6 .M with funArr := writeSquare [] (plain 21 true) }

theorem plain_isSquare (size : Nat) (b : Bool) : (plain size b).isSquare size :=
  ⟨by simp [plain], fun row h => by rw [List.eq_of_mem_replicate h]; simp⟩

theorem witness_PlaceReportsOverflow :
    ∃ (s : State) (f : Grid), s.cfg.supported = true ∧ holdsGrid s.funArr s.side f ∧
      dataCellsIn f (squareCells s.side) < 8 * s.total :=
  ⟨fullMap, plain 21 true, by decide, holdsGrid_writeSquare (by decide) (plain_isSquare 21 true) [],
    by show dataCellsIn (plain 21 true) (squareCells 21) < 8 * 26; decide +kernel⟩

theorem witness_ErrorsArePrecise :
    (∃ s t, engineStep s = .next t ∧ t.status.err ≠ 0#3 ∧ decode s.pendcmd = .ok .rsenc) ∧
    ∃ s t, engineStep s = .next t ∧ t.status.err ≠ 0#3 ∧ decode s.pendcmd = .error .reservedOpcode :=
  ⟨⟨inFlight 0x2#32, _, rfl, by decide, by decide⟩, inFlight 0xC#32, _, rfl, by decide, by decide⟩

/-- A state of version 1 with light squares in MOD and FUN and "HELLO" in DIN. -/
def lightState : State :=
  { helloState with modArr := writeSquare [] (plain 21 false), funArr := writeSquare [] (plain 21 false) }

theorem lightState_mod : holdsGrid lightState.modArr lightState.side (plain 21 false) :=
  holdsGrid_writeSquare (by decide) (plain_isSquare 21 false) []

theorem lightState_fun : holdsGrid lightState.funArr lightState.side (plain 21 false) :=
  holdsGrid_writeSquare (by decide) (plain_isSquare 21 false) []

theorem plain_dataCells : dataCellsIn (plain 21 false) (squareCells 21) = 441 := by decide +kernel

theorem witness_UnwrittenElementsFault :
    ((configured 1#6 .M).cfg.supported = true ∧ Memory.read (configured 1#6 .M).din 15 = none ∧
      15 < (configured 1#6 .M).dataCount) ∧
    (20 < (configured 1#6 .M).side ∧ Memory.read (configured 1#6 .M).modArr (cellKey 20 20) = none ∧
      Memory.read (configured 1#6 .M).funArr (cellKey 0 0) = none) ∧
    (lightState.cfg.supported = true ∧ holdsGrid lightState.funArr lightState.side (plain 21 false) ∧
      8 * lightState.total ≤ dataCellsIn (plain 21 false) (squareCells lightState.side) ∧
      25 < lightState.total ∧ Memory.read lightState.cwb 25 = none) :=
  ⟨by decide, by decide, by decide, lightState_fun,
    by show 8 * 26 ≤ dataCellsIn (plain 21 false) (squareCells 21); rw [plain_dataCells]; omega, by decide, by decide⟩

theorem witness_ExpAndLogTables : (∃ i, i < 254) ∧ ∃ a : Byte, a ≠ 0#8 := ⟨⟨253, by decide⟩, 255#8, by decide⟩

theorem witness_RsEcLinear : ∃ a b : List Byte, a.length = b.length := ⟨hello, List.replicate 16 0#8, rfl⟩

theorem witness_CodeBlockVanishesAtRoots : ∃ n i, n ≤ 30 ∧ i < n := ⟨30, 29, by decide⟩

/-- One block at 1-M, and both groups at 5-Q: the last codeword of a block of each group and the last EC codeword. -/
theorem witness_InterleavedCodewordPositions :
    hello.length = dataCodewords 1 .M ∧ (List.replicate 62 0#8 : List Byte).length = dataCodewords 5 .Q ∧
    (List.replicate 1276 0#8 : List Byte).length = dataCodewords 40 .H ∧
    (3 < (blockTab 5 .Q).nb1 + (blockTab 5 .Q).nb2 ∧ 14 < (blockTab 5 .Q).k1 ∧ 17 < (blockTab 5 .Q).ecb) ∧
    (blockTab 5 .Q).nb1 ≤ 2 := by
  refine ⟨by decide, by rw [List.length_replicate]; decide, by rw [List.length_replicate]; decide, by decide, by decide⟩

theorem witness_RsencCompletes :
    ∃ (s : State) (data : List Byte), s.cfg.supported = true ∧ data.length = s.dataCount ∧ holdsList s.din data :=
  ⟨helloState, hello, by decide, by decide, helloState_holds⟩

theorem witness_LayoutCompletes :
    (configured 1#6 .M).cfg.supported = true ∧ (configured 40#6 .H).cfg.supported = true := by decide

/-- Version 1 has no alignment pattern and no version cells; version 7 has both; (6, 22) lies on the timing row. -/
theorem witness_LayoutRegionsHaveTheirValues :
    (cheb 0 0 3 3 ≤ 3 ∧ cheb 7 7 3 3 = 4) ∧ (6 ∈ alignPos 7 ∧ 22 ∈ alignPos 7 ∧ 38 ∈ alignPos 7 ∧
      ((6, 22) : Nat × Nat) ≠ (6, 6) ∧ ((6, 22) : Nat × Nat) ≠ (6, symbolSize 7 - 7) ∧ cheb 8 24 6 22 ≤ 2) ∧
    (8 ≤ symbolSize 1 - 9 ∧ symbolSize 1 - 9 = 12) := by decide

/-- A cell in no region of version `v`, by the hypotheses of the last clause. -/
def inNoRegion (v r c : Nat) : Bool :=
  let size := symbolSize v
  let last := size - 7
  decide (r < size) && decide (c < size) &&
    [(3, 3), (3, size - 4), (size - 4, 3)].all (fun p => decide (4 < cheb r c p.1 p.2)) &&
    (alignPos v).all (fun a => (alignPos v).all (fun b =>
      (a, b) == (6, 6) || (a, b) == (6, last) || (a, b) == (last, 6) || decide (2 < cheb r c a b))) &&
    decide (¬ (r = 6 ∧ 8 ≤ c ∧ c ≤ size - 9)) && decide (¬ (c = 6 ∧ 8 ≤ r ∧ r ≤ size - 9)) &&
    (List.range 15).all (fun i => (r, c) != fmtCellA i && (r, c) != fmtCellB size i) && (r, c) != (4 * v + 9, 8) &&
    (decide (v < 7) || (List.range 18).all (fun i => (r, c) != verCellA size i && (r, c) != verCellB size i))

/-- The corner of the smallest and the largest symbol, a cell beside the version block of version 7, and the place of
that block in version 6. -/
theorem witness_LayoutRegionsHaveTheirValues_data :
    inNoRegion 1 20 20 = true ∧ inNoRegion 40 176 176 = true ∧ inNoRegion 7 0 33 = true ∧ inNoRegion 7 0 34 = false ∧
    inNoRegion 6 0 30 = true := by decide +kernel

theorem witness_LayoutDataCellsMatchCapacity : (1 ≤ 1 ∧ 1 ≤ 40) ∧ (1 ≤ 40 ∧ 40 ≤ 40) := by decide

/-- The pairs on the two sides of column 6 and the last pair of versions 1 and 40, and their last row. -/
theorem witness_ZigzagVisitsEachCellOnce :
    (2 * 1 + 4 < 2 * 1 + 8 ∧ 2 * 1 + 5 < 2 * 1 + 8 ∧ 2 * 1 + 7 < 2 * 1 + 8 ∧ 20 < 4 * 1 + 17) ∧
    (2 * 40 + 4 < 2 * 40 + 8 ∧ 2 * 40 + 7 < 2 * 40 + 8 ∧ 176 < 4 * 40 + 17) ∧
    (20, 20) ∈ zigzag (symbolSize 1) := by decide

/-- The first cell of the path: no data cell before it; and the cell after the 208th bit, which is left light. -/
theorem witness_PlaceCompletes :
    ∃ (s : State) (f : Grid) (cw : List Byte), s.cfg.supported = true ∧ holdsGrid s.funArr s.side f ∧
      8 * s.total ≤ dataCellsIn f (squareCells s.side) ∧ cw.length = s.total ∧ holdsList s.cwb cw ∧
      (∃ r c post, zigzag s.side = [] ++ (r, c) :: post ∧ f.cell r c = false) ∧
      ∃ r c pre post, zigzag s.side = pre ++ (r, c) :: post ∧ f.cell r c = false ∧
        dataCellsIn f pre = 8 * s.total :=
  ⟨{ lightState with cwb := Memory.overlay (Memory.ofList 0 (List.replicate 26 0xFF#8)) [] }, plain 21 false,
    List.replicate 26 0xFF#8, by decide, lightState_fun,
    by show 8 * 26 ≤ dataCellsIn (plain 21 false) (squareCells 21); rw [plain_dataCells]; omega, by decide,
    holdsList_ofList _ _, ⟨20, 20, (zigzag 21).tail, by show zigzag 21 = _; decide +kernel, by decide⟩,
    ⟨(zigzag 21)[208]!.1, (zigzag 21)[208]!.2, (zigzag 21).take 208, (zigzag 21).drop 209,
      by show zigzag 21 = _; decide +kernel, by decide +kernel,
      by show dataCellsIn (plain 21 false) ((zigzag 21).take 208) = 8 * 26; decide +kernel⟩⟩

theorem witness_ApplymaskCompletes :
    ∃ (s : State) (g f : Grid), s.cfg.supported = true ∧ holdsGrid s.modArr s.side g ∧ holdsGrid s.funArr s.side f :=
  ⟨lightState, plain 21 false, plain 21 false, by decide, lightState_mod, lightState_fun⟩

/-- MASKSEL and APPLYMASK complete at the light state. -/
theorem lightState_masksel :
    exec .masksel lightState = .next ((selected lightState (plain 21 false) (plain 21 false)).ended 0#3) := by
  show complete (performMasksel lightState) = _
  rw [performMasksel_done (by decide) (readSquare_of_holdsGrid lightState_mod)
    (readSquare_of_holdsGrid lightState_fun)]
  exact complete_done _

theorem lightState_applymask (m : BitVec 3) : ∃ t, exec (.applymask m) lightState = .next t ∧ t.status.err = 0#3 := by
  rcases performApplymask_cases m lightState with ⟨h, -⟩ | ⟨-, h, -⟩ | ⟨-, g, f, -, -, h⟩
  · exact absurd h (by decide)
  · rw [readSquare_of_holdsGrid lightState_mod, readSquare_of_holdsGrid lightState_fun] at h
    simp at h
  · refine ⟨_, (congrArg complete h).trans (complete_done _), rfl⟩

theorem lightState_memWf : lightState.memWf = true := by
  have hw : Memory.wf Config.gridCells (writeSquare [] (plain 21 false)) = true :=
    wf_writeSquare (by decide) (plain_isSquare 21 false) (Memory.wf_nil _)
  have hd : Memory.wf Config.dinBytes (Memory.ofList 0 hello) = true := by decide
  show (Memory.wf Config.dinBytes (Memory.ofList 0 hello) && Memory.wf Config.cwbBytes [] &&
    Memory.wf Config.gridCells (writeSquare [] (plain 21 false)) &&
    Memory.wf Config.gridCells (writeSquare [] (plain 21 false))) = true
  rw [hw, hd]
  rfl

theorem witness_ApplymaskTwiceRestores :
    ∃ (s t : State) (m : BitVec 3), s.memWf = true ∧ exec (.applymask m) s = .next t ∧ t.status.err = 0#3 := by
  obtain ⟨t, h⟩ := lightState_applymask 7#3
  exact ⟨lightState, t, 7#3, lightState_memWf, h⟩

theorem witness_RunLengthsAreMaximalRuns : ∃ k, k ∈ runLengths (true :: [true, false]) := ⟨2, by decide⟩

theorem witness_BlocksCountEqualWindows : ∃ (size : Nat) (g : Grid), 2 ≤ size ∧ g.isSquare size :=
  ⟨2, plain 2 true, by decide, plain_isSquare 2 true⟩

theorem witness_FinderCountsOccurrences : ∃ (size : Nat) (g : Grid), 11 ≤ size ∧ g.isSquare size :=
  ⟨11, plain 11 true, by decide, plain_isSquare 11 true⟩

theorem witness_BalanceStepsOfDarkProportion :
    (441 % 2 = 1 ∧ 0 ≤ 441 ∧ 441 ≤ 441) ∧ ∃ (size : Nat) (g : Grid), g.isSquare size :=
  ⟨by decide, 21, plain 21 true, plain_isSquare 21 true⟩

theorem witness_PenaltyIsBounded : (plain 21 true).isSquare (symbolSize 1) ∧ (plain 177 true).isSquare (symbolSize 40) :=
  ⟨plain_isSquare 21 true, plain_isSquare 177 true⟩

theorem witness_ScoreCompletes : ∃ (s : State) (g : Grid), s.cfg.supported = true ∧ holdsGrid s.modArr s.side g :=
  ⟨lightState, plain 21 false, by decide, lightState_mod⟩

theorem witness_WrfmtCompletes :
    (configured 1#6 .M).cfg.supported = true ∧ ((13, 8) : Nat × Nat) ∉ (List.range 15).map fmtCellA := by decide

/-- Version 6 writes nothing, version 7 does. -/
theorem witness_WrverCompletes :
    ((configured 6#6 .M).cfg.supported = true ∧ (configured 6#6 .M).cfg.ver.toNat ≤ 6) ∧
    ((configured 7#6 .M).cfg.supported = true ∧ 7 ≤ (configured 7#6 .M).cfg.ver.toNat) ∧
    (configured 40#6 .M).cfg.supported = true := by decide

theorem witness_BestMaskIsLeastMinimum : ([10, 5, 5, 7, 9, 5, 8, 6] : List Nat).length = 8 := by decide

theorem witness_MaskselCompletes :
    ∃ (s : State) (g f : Grid), s.cfg.supported = true ∧ holdsGrid s.modArr s.side g ∧ holdsGrid s.funArr s.side f :=
  witness_ApplymaskCompletes

theorem witness_ForcemaskGivesMaskselGrid : ∃ s t, exec .masksel s = .next t ∧ t.status.err = 0#3 :=
  ⟨lightState, _, lightState_masksel, rfl⟩

/-- PLACE after the first two stages of GENERATE, run one by one. -/
theorem place_after_layout {s : State} {cwb : Memory Byte} {lm lf : Memory Bool} {f : Grid} {cw : List Byte}
    (h : s.cfg.supported = true) (hf : readSquare lf s.side = some f) (hc : 8 * s.total ≤ freeCells f)
    (hl : cw.length = s.total) (hw : holdsList cwb cw) :
    ∃ c, exec .place (((((s.setCwb cwb).ended 0#3).setMod lm).setFun lf).ended 0#3) = .next c ∧
      c.status.err = 0#3 :=
  ⟨_, congrArg complete (performPlace_done
    (s := ((((s.setCwb cwb).ended 0#3).setMod lm).setFun lf).ended 0#3) h hf hc hl hw), rfl⟩

/-- The first three stages at the "HELLO" state. -/
theorem witness_GenerateIsTheFourStages :
    ∃ s a b c, exec .rsenc s = .next a ∧ a.status.err = 0#3 ∧ exec .layout a = .next b ∧ exec .place b = .next c ∧
      c.status.err = 0#3 := by
  have h1 := performRsenc_done (s := helloState) (by decide) (by decide) helloState_holds
  have h2 : ∀ (u : State) (m : Memory Byte), u.cfg.supported = true → exec .layout ((u.setCwb m).ended 0#3) =
      .next (((((u.setCwb m).ended 0#3).setMod (layoutMod u.cfg.ver.toNat)).setFun
        (layoutFun u.cfg.ver.toNat)).ended 0#3) :=
    fun u m hu => congrArg complete (performLayout_done (s := (u.setCwb m).ended 0#3) hu)
  obtain ⟨c, hc, he⟩ := place_after_layout (s := helloState) (lm := layoutMod helloState.cfg.ver.toNat)
    (lf := layoutFun helloState.cfg.ver.toNat) (f := functionMap 1) (cw := codewordSeq (blockTab 1 .M) hello)
    (by decide) (readSquare_layoutFun (v := 1) (by decide))
    (by show 8 * 26 ≤ freeCells (functionMap 1); rw [test_dataCells_one])
    (codewordSeq_length (by decide) (by decide)) (holdsList_ofList _ helloState.cwb)
  exact ⟨helloState, _, _, c, congrArg complete h1, rfl, h2 helloState _ (by decide), hc, he⟩

theorem witness_GenerateCompletes :
    ∃ (s : State) (data : List Byte), s.cfg.supported = true ∧ data.length = s.dataCount ∧ holdsList s.din data :=
  witness_RsencCompletes

theorem witness_GenerateIsIdempotent : ∃ s t : State, s.memWf = true ∧ exec .generate s = .next t := by
  obtain ⟨t, h, -⟩ := generate_hello (s := helloState) rfl helloState_holds
  exact ⟨helloState, t, by decide, h⟩

/-- The same CFG and DIN as `helloState`, but other registers, a written CWB, and light squares in MOD and FUN. -/
def otherHelloState : State :=
  { lightState with maskid := 5#3, cwb := [(0, 0xFF#8)], status := ⟨false, true, 2#3, true⟩ }

theorem witness_GenerateReadsOnlyCfgAndDin :
    ∃ s s' t t' : State, s.cfg = s'.cfg ∧ s.cfg.supported = true ∧
      (∀ k, k < s.dataCount → Memory.read s.din k = Memory.read s'.din k) ∧
      exec .generate s = .next t ∧ exec .generate s' = .next t' ∧
      s.maskid ≠ s'.maskid ∧ s.cwb ≠ s'.cwb ∧ s.status ≠ s'.status ∧
      Memory.read s.modArr (cellKey 20 20) ≠ Memory.read s'.modArr (cellKey 20 20) ∧
      Memory.read s.funArr (cellKey 0 0) ≠ Memory.read s'.funArr (cellKey 0 0) := by
  obtain ⟨t, h, -⟩ := generate_hello (s := helloState) rfl helloState_holds
  obtain ⟨t', h', -⟩ := generate_hello (s := otherHelloState) rfl helloState_holds
  refine ⟨helloState, otherHelloState, t, t', rfl, by decide, fun _ _ => rfl, h, h', by decide, by decide, by decide,
    ?_, ?_⟩
  · show Memory.read [] _ ≠ Memory.read lightState.modArr _
    rw [lightState_mod.2 20 20 (by decide) (by decide)]; simp
  · show Memory.read [] _ ≠ Memory.read lightState.funArr _
    rw [lightState_fun.2 0 0 (by decide) (by decide)]; simp

/-- The three kinds of illegal access, at the edges of the register window. -/
theorem witness_IllegalAccessChangesNothing :
    State.reset.status.busy = false ∧ ((0x0FFF#16 : HostAddr).toNat < 0x1000 ∧ AccessWidth.one ≠ .four) ∧
    ((0x0002#16 : HostAddr).toNat < 0x1000 ∧ (0x0002#16 : HostAddr).toNat % 4 ≠ 0) ∧
    (0x1000 ≤ (0x1000#16 : HostAddr).toNat ∧ AccessWidth.eight ≠ .one) ∧
    (facing [.access (.read 0x1000#16 .eight)]).inputs = [.access (.read 0x1000#16 .eight)] := by decide

/-- Each reserved range, at its first and last address. -/
theorem witness_ReservedAddressesReadZero :
    (facing [.access (.read 0x001C#16 .four)]).status.busy = false ∧
    ((0x001C#16 : HostAddr).toNat = 0x1C ∧ (0x001C#16 : HostAddr).toNat % 4 = 0) ∧
    (0x54 ≤ (0x0054#16 : HostAddr).toNat ∧ (0x0FFC#16 : HostAddr).toNat < 0x1000) ∧
    (0x1B8C ≤ (0x1B8C#16 : HostAddr).toNat ∧ (0x1FFF#16 : HostAddr).toNat < 0x2000) ∧
    (0x2E7A ≤ (0x2E7A#16 : HostAddr).toNat ∧ (0x3FFF#16 : HostAddr).toNat < 0x4000) ∧
    (0x5098 ≤ (0x5098#16 : HostAddr).toNat ∧ (0x5FFF#16 : HostAddr).toNat < 0x6000) ∧
    0x7098 ≤ (0x7098#16 : HostAddr).toNat := by decide

theorem witness_RegisterWritesIgnoredAndReadsPure :
    ((facing [.access (.write 0x0050#16 .four 1#64)]).status.busy = false ∧
      (facing [.access (.write 0x0050#16 .four 1#64)]).inputs = [.access (.write 0x0050#16 .four 1#64)]) ∧
    (facing [.access (.read 0x0000#16 .four)]).inputs = [.access (.read 0x0000#16 .four)] ∧
    steps (facing [.access (.read 0x0008#16 .four)]) (fun _ => true) = true := by decide

theorem witness_RegisterReadMap :
    (facing [.access (.read 0x0004#16 .four)]).status.busy = false ∧
    (facing [.access (.read 0x0050#16 .four)]).inputs = [.access (.read 0x0050#16 .four)] := by decide

theorem witness_InfoRegisterFields :
    (1 ≤ (Cfg.mk 1#6 .M).ver.toNat ∧ (Cfg.mk 40#6 .H).ver.toNat ≤ 40) ∧ (Cfg.mk 0#6 .M).ver.toNat = 0 ∧
    41 ≤ (Cfg.mk 41#6 .M).ver.toNat := by decide

/-- The last byte of each window: a write, a read of a written byte, and a read of a byte never written, in each. -/
theorem witness_ByteWindows :
    (facing [.access (.write (BitVec.ofNat 16 (0x1000 + 2955)) .one ((0xFF#8 : Byte).setWidth 64))]).status.busy = false ∧
    Memory.read { helloState with inputs := [.access (.read (BitVec.ofNat 16 (0x1000 + 15)) .one)] }.din 15 =
      some 0xEC#8 ∧
    Memory.read (facing [.access (.read (BitVec.ofNat 16 (0x1000 + 2955)) .one)]).din 2955 = none ∧
    (facing [.access (.write (BitVec.ofNat 16 (0x2000 + 3705)) .one ((0xFF#8 : Byte).setWidth 64))]).status.busy = false ∧
    Memory.read { helloState with
      cwb := [(3705, 0xA5#8)], inputs := [.access (.read (BitVec.ofNat 16 (0x2000 + 3705)) .one)] }.cwb 3705 =
      some 0xA5#8 ∧
    Memory.read (facing [.access (.read (BitVec.ofNat 16 (0x2000 + 3705)) .one)]).cwb 3705 = none := by decide

/-- The last row, its byte 22, of which only column 176 exists, and its byte 23, which has none; in the MOD window and
in the FUN window. -/
theorem witness_GridWindowWrites :
    (facing [.access (.write (BitVec.ofNat 16 (0x4000 + 24 * 176 + 22)) .one ((0xFF#8 : Byte).setWidth 64))]).status.busy =
      false ∧
    (facing [.access (.write (BitVec.ofNat 16 (0x6000 + 24 * 176 + 22)) .one ((0xFF#8 : Byte).setWidth 64))]).status.busy =
      false ∧
    (facing [.access (.write (BitVec.ofNat 16 (0x6000 + 24 * 0 + 23)) .one ((0x00#8 : Byte).setWidth 64))]).inputs =
      [.access (.write (BitVec.ofNat 16 (0x6000 + 24 * 0 + 23)) .one ((0x00#8 : Byte).setWidth 64))] ∧
    (8 * 22 + 0 ≤ 176 ∧ ¬ 8 * 22 + 1 ≤ 176) ∧ ¬ 8 * 23 + 0 ≤ 176 := by decide

theorem witness_GridWindowReads :
    (∀ b, b < 8 → 8 * 0 + b ≤ 176 → Memory.read lightState.modArr (cellKey 0 (8 * 0 + b)) ≠ none) ∧
    (∃ b, b < 8 ∧ 8 * 22 + b ≤ 176 ∧ Memory.read lightState.modArr (cellKey 176 (8 * 22 + b)) = none) := by
  refine ⟨fun b hb _ => ?_, 0, by decide, by decide, ?_⟩
  · rw [lightState_mod.2 0 (8 * 0 + b) (by decide) (by show 8 * 0 + b < 21; omega)]
    simp
  · show Memory.read (writeSquare [] (plain 21 false)) _ = none
    rw [read_writeSquare (size := 21) (by decide) (plain_isSquare 21 false) [] (by decide), if_neg (by decide)]
    rfl

theorem witness_BusyHazardFaults :
    (∃ s : State, s.status.busy = true ∧ s.inputs = [.access (.read 0x0004#16 .four)]) ∧
    ∃ s : State, s.status.busy = true ∧ s.inputs = [.access (.write 0x1000#16 .one 0#64)] ∧
      HostAccess.write 0x1000#16 .one 0#64 ≠ .read 0x0004#16 .four ∧
      ∀ v, HostAccess.write 0x1000#16 .one 0#64 ≠ .write 0x0000#16 .four v :=
  ⟨⟨{ inFlight 0#32 with inputs := [.access (.read 0x0004#16 .four)] }, rfl, rfl⟩,
   ⟨{ inFlight 0#32 with inputs := [.access (.write 0x1000#16 .one 0#64)] }, rfl, rfl, by decide,
    fun _ h => by cases h⟩⟩

/-- A reset while a command is in flight (R281). -/
theorem witness_ResetLeavesIdleAndUnwritten :
    ∃ (s : State) (rest : List HostEvent), s.status.busy = true ∧ s.inputs = .resetInput :: rest :=
  ⟨{ inFlight 0xA#32 with inputs := [.resetInput] }, [], rfl, rfl⟩

theorem witness_ResetMeetsInvariant : ∃ (s : State) (rest : List HostEvent), s.inputs = .resetInput :: rest :=
  ⟨facing [.resetInput, .engineTurn], [.engineTurn], rfl⟩

theorem witness_StepKeepsInvariant : ∃ s t : State, s.Inv ∧ step s = .next t :=
  ⟨facing [.resetInput], _, ⟨by decide, by decide⟩, rfl⟩

end Sys2Proof.Tests
end

section
/-! PROOFS (10_state.md): what each command may leave behind, said once for all twelve, and from it the invariant of
the machine (R22, R31 to R34) and the writers of each register and memory (R24, R28, R29, R32 to R34). -/

namespace Sys2Proof.Machine

/-! ## What a result leaves -/

/-- The state a result leaves, whether by a normal end or by an error (60_exceptions.md R257), has `P`. A fault
leaves no state. -/
def CmdResult.Leaves (P : State → Prop) : CmdResult → Prop
  | .done s => P s
  | .error s _ => P s
  | .fault _ => True

theorem CmdResult.Leaves.mono {P Q : State → Prop} (hPQ : ∀ u, P u → Q u) {r : CmdResult} (h : r.Leaves P) :
    r.Leaves Q := by
  cases r with
  | done u => exact hPQ u h
  | error u e => exact hPQ u h
  | fault f => trivial

/-- What every stage keeps, the stages one after another keep. -/
theorem CmdResult.Leaves.andThen {P : State → Prop} {r : CmdResult} {k : State → CmdResult} (h : r.Leaves P)
    (hk : ∀ u, P u → (k u).Leaves P) : (r.andThen k).Leaves P := by
  cases r with
  | done u => exact hk u h
  | error u e => exact h
  | fault f => trivial

/-- A command that answers a next state has ended a state its result leaves, with one of the codes 0 to 3 (R251). -/
theorem CmdResult.Leaves.complete {P : State → Prop} {r : CmdResult} {t : State} (h : r.Leaves P)
    (ht : complete r = .next t) : ∃ u c, P u ∧ c.toNat ≤ 3 ∧ t = u.ended c := by
  obtain ⟨u, rfl, rfl⟩ | ⟨u, e, rfl, rfl⟩ := (complete_eq_next_iff r t).1 ht
  · exact ⟨u, 0#3, h, by decide, rfl⟩
  · exact ⟨u, e.code, h, e.code_le, rfl⟩

/-! ## What each command may leave -/

/-- The second memory is canonical where the first one is. -/
def Memory.KeepsWf {α : Type} (bound : Nat) (m m' : Memory α) : Prop :=
  Memory.wf bound m = true → Memory.wf bound m' = true

/-- What a command may have made of `s` when it ends, its STATUS still to be set: only the registers and memories the
spec names for it are new, and the memories among them are canonical where they were. -/
def CommandEffect (i : Instr) (s u : State) : Prop :=
  match i with
  | .nop => u = s
  | .setcfg v e => u = s.setCfg ⟨v, e⟩
  | .clrstat => u = s.setStatus s.status.dropCleared
  | .rsenc => ∃ m, u = s.setCwb m ∧ Memory.KeepsWf Config.cwbBytes s.cwb m
  | .layout => ∃ m f, u = (s.setMod m).setFun f ∧ Memory.KeepsWf Config.gridCells s.modArr m ∧
      Memory.KeepsWf Config.gridCells s.funArr f
  | .place | .applymask _ | .wrfmt _ | .wrver =>
      ∃ m, u = s.setMod m ∧ Memory.KeepsWf Config.gridCells s.modArr m
  | .score => ∃ n1 n2 n3 n4 total, u = s.setParts n1 n2 n3 n4 total
  | .masksel => ∃ m p k, u = ((s.setMod m).setPen p).setMaskid k ∧ Memory.KeepsWf Config.gridCells s.modArr m
  | .generate => ∃ cwb m f p k, u = ((((s.setCwb cwb).setMod m).setFun f).setPen p).setMaskid k ∧
      Memory.KeepsWf Config.cwbBytes s.cwb cwb ∧ Memory.KeepsWf Config.gridCells s.modArr m ∧
      Memory.KeepsWf Config.gridCells s.funArr f

theorem performRsenc_effect (s : State) : (performRsenc s).Leaves (CommandEffect .rsenc s) := by
  obtain ⟨-, h⟩ | ⟨-, -, h⟩ | ⟨-, data, hd, h⟩ := performRsenc_cases s <;> rw [h]
  · exact ⟨s.cwb, rfl, id⟩
  · trivial
  · have hlen : data.length = s.dataCount := ((Memory.readSpan_eq_some_iff s.din 0 _ data).1 hd).1
    exact ⟨_, rfl, wf_rsencCwb hlen⟩

theorem performLayout_effect (s : State) : (performLayout s).Leaves (CommandEffect .layout s) := by
  obtain ⟨-, h⟩ | ⟨-, h⟩ := performLayout_cases s <;> rw [h]
  · exact ⟨s.modArr, s.funArr, rfl, id, id⟩
  · exact ⟨_, _, rfl, fun _ => wf_layoutMod _, fun _ => wf_layoutFun _⟩

theorem performPlace_effect (s : State) : (performPlace s).Leaves (CommandEffect .place s) := by
  obtain ⟨-, h⟩ | ⟨-, -, h⟩ | ⟨hv, f, -, ⟨-, h⟩ | ⟨-, -, h⟩ | ⟨-, cw, -, h⟩⟩ := performPlace_cases s <;> rw [h]
  · exact ⟨s.modArr, rfl, id⟩
  · trivial
  · exact ⟨s.modArr, rfl, id⟩
  · trivial
  · obtain ⟨hlo, hhi⟩ := side_range hv
    exact ⟨_, rfl, Memory.wf_overlay (wf_placedCells hlo hhi f cw)⟩

/-- The masked square is written inside the array. -/
theorem wf_writeSquare_masked {s : State} {f g : Grid} (hv : s.cfg.supported = true)
    (hg : readSquare s.modArr s.side = some g) (hf : readSquare s.funArr s.side = some f) (m : BitVec 3) :
    Memory.KeepsWf Config.gridCells s.modArr (writeSquare s.modArr (masked f g m)) :=
  wf_writeSquare (side_range hv).2
    (masked_isSquare ((readSquare_eq_some_iff _ _ f).1 hf).1 ((readSquare_eq_some_iff _ _ g).1 hg).1 m)

theorem performApplymask_effect (msk : BitVec 3) (s : State) :
    (performApplymask msk s).Leaves (CommandEffect (.applymask msk) s) := by
  obtain ⟨-, h⟩ | ⟨-, -, h⟩ | ⟨hv, g, f, hg, hf, h⟩ := performApplymask_cases msk s <;> rw [h]
  · exact ⟨s.modArr, rfl, id⟩
  · trivial
  · exact ⟨_, rfl, wf_writeSquare_masked hv hg hf msk⟩

theorem performScore_effect (s : State) : (performScore s).Leaves (CommandEffect .score s) := by
  obtain ⟨-, h⟩ | ⟨-, -, h⟩ | ⟨-, g, -, h⟩ := performScore_cases s <;> rw [h]
  · exact ⟨s.part1, s.part2, s.part3, s.part4, s.ptotal, rfl⟩
  · trivial
  · exact ⟨_, _, _, _, _, rfl⟩

theorem performWrfmt_effect (msk : BitVec 3) (s : State) :
    (performWrfmt msk s).Leaves (CommandEffect (.wrfmt msk) s) := by
  obtain ⟨-, h⟩ | ⟨hv, h⟩ := performWrfmt_cases msk s <;> rw [h]
  · exact ⟨s.modArr, rfl, id⟩
  · exact ⟨_, rfl, wf_writeFormat (supported_range hv) _ _⟩

theorem performWrver_effect (s : State) : (performWrver s).Leaves (CommandEffect .wrver s) := by
  obtain ⟨-, h⟩ | ⟨hv, h⟩ := performWrver_cases s <;> rw [h]
  · exact ⟨s.modArr, rfl, id⟩
  · exact ⟨_, rfl, wf_writeVersion (supported_range hv)⟩

theorem performMasksel_effect (s : State) : (performMasksel s).Leaves (CommandEffect .masksel s) := by
  obtain ⟨-, h⟩ | ⟨-, -, h⟩ | ⟨hv, g, f, hg, hf, h⟩ := performMasksel_cases s <;> rw [h]
  · exact ⟨s.modArr, s.pen, s.maskid, rfl, id⟩
  · trivial
  · have hr := supported_range hv
    exact ⟨_, _, _, rfl, fun hm =>
      wf_writeVersion hr (wf_writeFormat hr _ _ (wf_writeSquare_masked hv hg hf _ hm))⟩

/-- The effects of GENERATE's stages add up to its own (R115). -/
theorem performGenerate_effect (s : State) : (performGenerate s).Leaves (CommandEffect .generate s) := by
  obtain ⟨-, h⟩ | ⟨-, h⟩ := performGenerate_cases s <;> rw [h]
  · exact ⟨s.cwb, s.modArr, s.funArr, s.pen, s.maskid, rfl, id, id, id⟩
  · refine (((CmdResult.Leaves.mono ?_ (performRsenc_effect s)).andThen ?_).andThen ?_).andThen ?_
    case refine_1 =>
      rintro _ ⟨cwb, rfl, hc⟩
      exact ⟨cwb, s.modArr, s.funArr, s.pen, s.maskid, rfl, hc, id, id⟩
    all_goals rintro u ⟨cwb, m, f, p, k, rfl, hc, hm, hf⟩
    case refine_2 =>
      refine (performLayout_effect _).mono ?_
      rintro _ ⟨m', f', rfl, hm', hf'⟩
      exact ⟨cwb, m', f', p, k, rfl, hc, hm' ∘ hm, hf' ∘ hf⟩
    case refine_3 =>
      refine (performPlace_effect _).mono ?_
      rintro _ ⟨m', rfl, hm'⟩
      exact ⟨cwb, m', f, p, k, rfl, hc, hm' ∘ hm, hf⟩
    case refine_4 =>
      refine (performMasksel_effect _).mono ?_
      rintro _ ⟨m', p', k', rfl, hm'⟩
      exact ⟨cwb, m', f, p', k', rfl, hc, hm' ∘ hm, hf⟩

/-- A command that answers a next state has ended a state of its effect, with one of the codes 0 to 3. -/
theorem exec_effect {i : Instr} {s t : State} (h : exec i s = .next t) :
    ∃ u c, CommandEffect i s u ∧ c.toNat ≤ 3 ∧ t = u.ended c := by
  cases i with
  | nop => exact CmdResult.Leaves.complete (r := .done s) rfl h
  | setcfg v e => exact CmdResult.Leaves.complete (r := .done (s.setCfg ⟨v, e⟩)) rfl h
  | rsenc => exact (performRsenc_effect s).complete h
  | layout => exact (performLayout_effect s).complete h
  | place => exact (performPlace_effect s).complete h
  | applymask msk => exact (performApplymask_effect msk s).complete h
  | score => exact (performScore_effect s).complete h
  | wrfmt msk => exact (performWrfmt_effect msk s).complete h
  | wrver => exact (performWrver_effect s).complete h
  | masksel => exact (performMasksel_effect s).complete h
  | generate => exact (performGenerate_effect s).complete h
  | clrstat => exact CmdResult.Leaves.complete (r := .done (s.setStatus s.status.dropCleared)) rfl h

/-! ## The invariant (R22, R31 to R34) -/

/-- No command leaves a memory that is not canonical. -/
theorem CommandEffect.memWf {i : Instr} {s u : State} (h : CommandEffect i s u) (hs : s.memWf = true) :
    u.memWf = true := by
  obtain ⟨hd, hc, hm, hf⟩ := memWf_iff.1 hs
  cases i
  case nop | setcfg | clrstat => cases h; exact hs
  case rsenc =>
    obtain ⟨m, rfl, hw⟩ := h
    exact memWf_iff.2 ⟨hd, hw hc, hm, hf⟩
  case layout =>
    obtain ⟨m, f, rfl, hw, hw'⟩ := h
    exact memWf_iff.2 ⟨hd, hc, hw hm, hw' hf⟩
  case place | applymask | wrfmt | wrver =>
    obtain ⟨m, rfl, hw⟩ := h
    exact memWf_iff.2 ⟨hd, hc, hw hm, hf⟩
  case score => obtain ⟨n1, n2, n3, n4, total, rfl⟩ := h; exact hs
  case masksel =>
    obtain ⟨m, p, k, rfl, hw⟩ := h
    exact memWf_iff.2 ⟨hd, hc, hw hm, hf⟩
  case generate =>
    obtain ⟨cwb, m, f, p, k, rfl, hw, hw', hw''⟩ := h
    exact memWf_iff.2 ⟨hd, hw hc, hw' hm, hw'' hf⟩

/-- A command that ends on canonical memories with a code of R251 leaves the invariant, whatever STATUS was. -/
theorem State.inv_ended {u : State} {c : BitVec 3} (hu : u.memWf = true) (hc : c.toNat ≤ 3) : (u.ended c).Inv :=
  ⟨hu, Status.completed_legal _ hc⟩

theorem engineStep_inv {s t : State} (hs : s.Inv) (h : engineStep s = .next t) : t.Inv := by
  cases hd : decode s.pendcmd with
  | ok i =>
    rw [engineStep_of_decode hd] at h
    obtain ⟨u, c, hu, hc, rfl⟩ := exec_effect h
    exact State.inv_ended (hu.memWf hs.1) hc
  | error x =>
    rw [engineStep_of_illegal hd] at h
    cases h
    exact State.inv_ended hs.1 (by decide)

theorem engineTurn_inv {s t : State} (hs : s.Inv) (h : engineTurn s = .next t) : t.Inv := by
  cases hb : s.status.busy with
  | false =>
    rw [engineTurn_of_idle hb] at h
    cases h
    exact hs
  | true =>
    rw [engineTurn_of_busy hb] at h
    exact engineStep_inv hs h

/-- A legal write leaves a legal STATUS: of all writes only a CMD write changes it (R60, R110). -/
theorem portWrite_status_legal {s : State} (addr : HostAddr) (v : BitVec 64) (h : s.status.legal = true) :
    (portWrite s addr v).status.legal = true := by
  unfold portWrite
  split
  · split
    · unfold offerCommand
      split
      · exact Status.dropped_legal h
      · exact Status.accepted_legal _
    · exact h
  all_goals exact h

theorem hostAccess_inv {a : HostAccess} {s t : State} (hs : s.Inv) (h : hostAccess a s = .next t) : t.Inv := by
  obtain ⟨-, -, e⟩ | ⟨-, ⟨addr, n, -, ⟨-, e⟩ | ⟨-, -, e⟩ | ⟨-, r, -, e⟩⟩ | ⟨addr, n, v, -, ⟨-, e⟩ | ⟨-, e⟩⟩⟩ :=
    hostAccess_cases a s <;> rw [e] at h <;> cases h
  · exact hs
  · exact hs
  · exact hs
  · exact ⟨portWrite_memWf addr v hs.1, portWrite_status_legal addr v hs.2⟩

/-- The reset input leaves the invariant of any state (R280, R282). -/
theorem assertReset_inv (s : State) : (assertReset s).Inv := ⟨rfl, rfl⟩

theorem step_inv {s t : State} (hs : s.Inv) (h : step s = .next t) : t.Inv := by
  cases hi : s.inputs with
  | nil =>
    rw [step_of_no_inputs hi] at h
    exact engineTurn_inv hs h
  | cons e rest =>
    cases e with
    | access a =>
      rw [step_of_access hi] at h
      exact hostAccess_inv (s := s.setInputs rest) hs h
    | engineTurn =>
      rw [step_of_engineTurn hi] at h
      exact engineTurn_inv (s := s.setInputs rest) hs h
    | resetInput =>
      rw [step_of_reset hi] at h
      cases h
      exact assertReset_inv _

/-- Settles O60: each kind of event keeps the invariant, a command by its effect. -/
theorem stepKeepsInvariant : Obligations.StepKeepsInvariant := fun _ _ => step_inv

/-! ## Who writes what (R24, R28, R29, R32 to R34) -/

/-- Settles O9: each command's effect names all that it writes. -/
theorem onlyTheNamedCommandsWrite : Obligations.OnlyTheNamedCommandsWrite := by
  intro i s t h
  obtain ⟨u, c, hu, -, rfl⟩ := exec_effect h
  cases i
  case nop | setcfg | clrstat => cases hu; simp
  case rsenc | place | applymask | wrfmt | wrver => obtain ⟨m, rfl, -⟩ := hu; simp
  case layout => obtain ⟨m, f, rfl, -⟩ := hu; simp
  case score => obtain ⟨n1, n2, n3, n4, total, rfl⟩ := hu; simp
  case masksel => obtain ⟨m, p, k, rfl, -⟩ := hu; simp
  case generate => obtain ⟨cwb, m, f, p, k, rfl, -⟩ := hu; simp

end Sys2Proof.Machine
end

section
/-! PROOFS (10_state.md R22, R23, R25 to R27): the registers that are read as words, each first as the number its
fields make up. -/

namespace Sys2Proof.Machine

/-- Two fields side by side, as numbers. -/
theorem toNat_append_eq_add {m n : Nat} (x : BitVec m) (y : BitVec n) :
    (x ++ y).toNat = 2 ^ n * x.toNat + y.toNat := by
  rw [BitVec.toNat_append, ← Nat.shiftLeft_add_eq_or_of_lt y.isLt, Nat.shiftLeft_eq, Nat.mul_comm]

/-! ## STATUS and CFG -/

theorem Status.word_toNat (t : Status) :
    t.word.toNat = 2 ^ 5 * t.drop.toNat + 2 ^ 2 * t.err.toNat + 2 * t.done.toNat + t.busy.toNat := by
  unfold Status.word
  change BitVec.toNat (w := 26 + 1 + 3 + 1 + 1) _ = _
  simp only [toNat_append_eq_add, BitVec.toNat_ofNat, BitVec.toNat_ofBool]
  omega

theorem Cfg.word_toNat (c : Cfg) : c.word.toNat = 2 ^ 6 * c.ecl.code.toNat + c.ver.toNat := by
  unfold Cfg.word
  change BitVec.toNat (w := 24 + 2 + 6) _ = _
  simp only [toNat_append_eq_add, BitVec.toNat_ofNat]
  omega

/-- A bit of a word, as a digit of its number. -/
theorem getLsbD_eq_of_div_mod {w : Nat} {x : BitVec w} {i : Nat} {b : Bool} (h : x.toNat / 2 ^ i % 2 = b.toNat) :
    x.getLsbD i = b := by
  rw [← BitVec.testBit_toNat, Nat.testBit_eq_decide_div_mod_eq, h]
  cases b <;> rfl

/-- A field of a word, as digits of its number. -/
theorem extractLsb'_eq_of_div_mod {w : Nat} {x : BitVec w} {i n : Nat} {y : BitVec n}
    (h : x.toNat / 2 ^ i % 2 ^ n = y.toNat) : x.extractLsb' i n = y := by
  apply BitVec.eq_of_toNat_eq
  rw [BitVec.extractLsb'_toNat, Nat.shiftRight_eq_div_pow, h]

/-- Settles O52: the fields are digits of the word's number. -/
theorem statusAndCfgFields : Obligations.StatusAndCfgFields := by
  refine ⟨fun t => ?_, fun c => ?_⟩
  · have hw := t.word_toNat
    have herr := t.err.isLt
    have hbusy := t.busy.toNat_lt
    have hdone := t.done.toNat_lt
    have hdrop := t.drop.toNat_lt
    exact ⟨getLsbD_eq_of_div_mod (by omega), getLsbD_eq_of_div_mod (by omega), extractLsb'_eq_of_div_mod (by omega),
      getLsbD_eq_of_div_mod (by omega), by omega⟩
  · have hw := c.word_toNat
    have hver := c.ver.isLt
    have hecl := c.ecl.code.isLt
    exact ⟨extractLsb'_eq_of_div_mod (by omega), extractLsb'_eq_of_div_mod (by omega), by omega⟩

/-! ## INFO0 to INFO2 -/

/-- What the rows of a level have, and the row of zeros that stands for every other version (log 22), the block table
has everywhere. -/
theorem blockTab_of_forall {P : BlockRow → Prop} (v : Nat) {e : EcLevel} (hrows : ∀ b ∈ blockRows e, P b)
    (hzero : P ⟨0, 0, 0, 0, 0⟩) : P (blockTab v e) := by
  unfold blockTab
  rw [List.getD_eq_getElem?_getD]
  cases h : (blockRows e)[v - 1]? with
  | none => exact hzero
  | some b => exact hrows b (List.mem_of_getElem? h)

/-- The entries of the block table fit the fields of INFO1 and INFO2 (R26, R27). -/
theorem blockTab_fields_lt (v : Nat) (e : EcLevel) :
    (blockTab v e).ecb < 2 ^ 5 ∧ (blockTab v e).nb1 < 2 ^ 7 ∧ (blockTab v e).k1 < 2 ^ 7 ∧
      (blockTab v e).nb2 < 2 ^ 7 ∧ (blockTab v e).k2 < 2 ^ 7 :=
  blockTab_of_forall v (P := fun b => b.ecb < 2 ^ 5 ∧ b.nb1 < 2 ^ 7 ∧ b.k1 < 2 ^ 7 ∧ b.nb2 < 2 ^ 7 ∧ b.k2 < 2 ^ 7)
    (by cases e <;> decide) (by decide)

/-- D and T fit the fields of INFO0 (R25). -/
theorem codewords_lt (v : Nat) (e : EcLevel) : dataCodewords v e < 2 ^ 12 ∧ totalCodewords v < 2 ^ 12 := by
  obtain ⟨-, hd, -⟩ := blockTab_bounds v e
  obtain ⟨-, -, ht⟩ := blockTab_bounds v .L
  exact ⟨hd.trans_lt (by decide), ht.trans_lt (by decide)⟩

/-- Fewer than eight cells remain after the codewords of any version (R171). -/
theorem remainderCells_lt {v : Nat} (h : 1 ≤ v ∧ v ≤ 40) : remainderCells v < 2 ^ 3 := by
  have hall : ∀ i : Fin 41, 1 ≤ i.val → remainderCells i.val < 2 ^ 3 := by decide
  exact hall ⟨v, by omega⟩ h.1

theorem info0_toNat {c : Cfg} (h : c.supported = true) :
    (info0 c).toNat = dataCodewords c.ver.toNat c.ecl + 2 ^ 16 * totalCodewords c.ver.toNat := by
  obtain ⟨hd, ht⟩ := codewords_lt c.ver.toNat c.ecl
  rw [info0, if_pos h]
  change BitVec.toNat (w := 4 + 12 + 4 + 12) _ = _
  simp only [toNat_append_eq_add, BitVec.toNat_ofNat]
  omega

theorem info1_toNat {c : Cfg} (h : c.supported = true) :
    (info1 c).toNat = symbolSize c.ver.toNat + 2 ^ 8 * remainderCells c.ver.toNat +
      2 ^ 16 * (blockTab c.ver.toNat c.ecl).ecb := by
  obtain ⟨he, -⟩ := blockTab_fields_lt c.ver.toNat c.ecl
  have hr := remainderCells_lt (supported_range h)
  have hs := (symbolSize_range (supported_range h)).2
  rw [info1, if_pos h]
  change BitVec.toNat (w := 11 + 5 + 5 + 3 + 8) _ = _
  simp only [toNat_append_eq_add, BitVec.toNat_ofNat]
  omega

theorem info2_toNat {c : Cfg} (h : c.supported = true) :
    (info2 c).toNat = (blockTab c.ver.toNat c.ecl).nb1 + 2 ^ 8 * (blockTab c.ver.toNat c.ecl).k1 +
      2 ^ 16 * (blockTab c.ver.toNat c.ecl).nb2 + 2 ^ 24 * (blockTab c.ver.toNat c.ecl).k2 := by
  obtain ⟨-, hn1, hk1, hn2, hk2⟩ := blockTab_fields_lt c.ver.toNat c.ecl
  rw [info2, if_pos h]
  change BitVec.toNat (w := 1 + 7 + 1 + 7 + 1 + 7 + 1 + 7) _ = _
  simp only [toNat_append_eq_add, BitVec.toNat_ofNat]
  omega

/-- An unsupported version leaves the three registers at 0 (R25 to R27). -/
theorem info_of_unsupported {c : Cfg} (h : c.supported = false) :
    info0 c = 0#32 ∧ info1 c = 0#32 ∧ info2 c = 0#32 := by
  simp [info0, info1, info2, h]

/-- Settles O53: every field is wide enough for its value, so the words are the sums. -/
theorem infoRegisterFields : Obligations.InfoRegisterFields := by
  refine fun c => ⟨fun h => ?_, fun h => info_of_unsupported ?_⟩
  · have hs := supported_of_range h
    exact ⟨info0_toNat hs, info1_toNat hs, info2_toNat hs⟩
  · rw [Cfg.supported, decide_eq_false_iff_not]
    omega

end Sys2Proof.Machine
end

section
/-! PROOFS (20_memory.md R63): which commands fault, and when, each by the cases of its command. -/

namespace Sys2Proof.Machine

/-! ## A command faults only by reading an element never written (R63, R264) -/

theorem andThen_eq_fault_iff {r : CmdResult} {k : State → CmdResult} {f : Fault} :
    r.andThen k = .fault f ↔ r = .fault f ∨ ∃ u, r = .done u ∧ k u = .fault f := by
  cases r <;> simp

theorem complete_eq_fault_iff {r : CmdResult} {f : Fault} : complete r = .fault f ↔ r = .fault f := by
  cases r <;> simp

theorem performRsenc_eq_fault {s : State} {f : Fault} (h : performRsenc s = .fault f) :
    s.cfg.supported = true ∧ f = .unwrittenRead := by
  obtain ⟨-, e⟩ | ⟨hv, -, e⟩ | ⟨-, data, -, e⟩ := performRsenc_cases s <;> rw [e] at h <;> cases h
  exact ⟨hv, rfl⟩

theorem performLayout_ne_fault (s : State) (f : Fault) : performLayout s ≠ .fault f := by
  obtain ⟨-, e⟩ | ⟨-, e⟩ := performLayout_cases s <;> rw [e] <;> simp

theorem performPlace_eq_fault {s : State} {f : Fault} (h : performPlace s = .fault f) :
    s.cfg.supported = true ∧ f = .unwrittenRead := by
  obtain ⟨-, e⟩ | ⟨hv, -, e⟩ | ⟨hv, g, -, ⟨-, e⟩ | ⟨-, -, e⟩ | ⟨-, cw, -, e⟩⟩ := performPlace_cases s <;>
    rw [e] at h <;> cases h
  all_goals exact ⟨hv, rfl⟩

theorem performApplymask_eq_fault {m : BitVec 3} {s : State} {f : Fault} (h : performApplymask m s = .fault f) :
    s.cfg.supported = true ∧ f = .unwrittenRead := by
  obtain ⟨-, e⟩ | ⟨hv, -, e⟩ | ⟨-, g, f, -, -, e⟩ := performApplymask_cases m s <;> rw [e] at h <;> cases h
  exact ⟨hv, rfl⟩

theorem performScore_eq_fault {s : State} {f : Fault} (h : performScore s = .fault f) :
    s.cfg.supported = true ∧ f = .unwrittenRead := by
  obtain ⟨-, e⟩ | ⟨hv, -, e⟩ | ⟨-, g, -, e⟩ := performScore_cases s <;> rw [e] at h <;> cases h
  exact ⟨hv, rfl⟩

theorem performWrfmt_ne_fault (m : BitVec 3) (s : State) (f : Fault) : performWrfmt m s ≠ .fault f := by
  obtain ⟨-, e⟩ | ⟨-, e⟩ := performWrfmt_cases m s <;> rw [e] <;> simp

theorem performWrver_ne_fault (s : State) (f : Fault) : performWrver s ≠ .fault f := by
  obtain ⟨-, e⟩ | ⟨-, e⟩ := performWrver_cases s <;> rw [e] <;> simp

theorem performMasksel_eq_fault {s : State} {f : Fault} (h : performMasksel s = .fault f) :
    s.cfg.supported = true ∧ f = .unwrittenRead := by
  obtain ⟨-, e⟩ | ⟨hv, -, e⟩ | ⟨-, g, f, -, -, e⟩ := performMasksel_cases s <;> rw [e] at h <;> cases h
  exact ⟨hv, rfl⟩

/-- A fault of GENERATE is a fault of one of its stages (R115). -/
theorem performGenerate_eq_fault {s : State} {f : Fault} (h : performGenerate s = .fault f) :
    s.cfg.supported = true ∧ f = .unwrittenRead := by
  obtain ⟨-, e⟩ | ⟨hv, e⟩ := performGenerate_cases s <;> rw [e] at h
  · cases h
  · refine ⟨hv, ?_⟩
    simp only [andThen_eq_fault_iff] at h
    obtain ((h | ⟨u, -, h⟩) | ⟨u, -, h⟩) | ⟨u, -, h⟩ := h
    · exact (performRsenc_eq_fault h).2
    · exact absurd h (performLayout_ne_fault u f)
    · exact (performPlace_eq_fault h).2
    · exact (performMasksel_eq_fault h).2

/-- The result each command performs (R111), before its end is written into STATUS. -/
def performInstr (i : Instr) (s : State) : CmdResult :=
  match i with
  | .nop => .done s
  | .setcfg ver ecl => .done (s.setCfg ⟨ver, ecl⟩)
  | .rsenc => performRsenc s
  | .layout => performLayout s
  | .place => performPlace s
  | .applymask msk => performApplymask msk s
  | .score => performScore s
  | .wrfmt msk => performWrfmt msk s
  | .wrver => performWrver s
  | .masksel => performMasksel s
  | .generate => performGenerate s
  | .clrstat => .done (s.setStatus s.status.dropCleared)

theorem exec_eq_complete (i : Instr) (s : State) : exec i s = complete (performInstr i s) := by
  cases i <;> rfl

theorem exec_eq_fault_iff {i : Instr} {s : State} {f : Fault} : exec i s = .fault f ↔ performInstr i s = .fault f := by
  rw [exec_eq_complete, complete_eq_fault_iff]

/-- Settles O10: the fault of a command is the fault of its result. -/
theorem commandsFaultOnlyOnUnwrittenReads : Obligations.CommandsFaultOnlyOnUnwrittenReads := by
  refine fun i s => ⟨fun x => exec_eq_complete i s ▸ complete_ne_refused _ x, fun f h => ?_⟩
  have claim {p : Prop} (hi : p) (hf : s.cfg.supported = true ∧ f = .unwrittenRead) :
      f = .unwrittenRead ∧ 1 ≤ s.cfg.ver.toNat ∧ s.cfg.ver.toNat ≤ 40 ∧ p :=
    ⟨hf.2, (supported_range hf.1).1, (supported_range hf.1).2, hi⟩
  rw [exec_eq_fault_iff] at h
  cases i with
  | nop => cases h
  | setcfg v e => cases h
  | clrstat => cases h
  | layout => exact absurd h (performLayout_ne_fault s f)
  | wrfmt m => exact absurd h (performWrfmt_ne_fault m s f)
  | wrver => exact absurd h (performWrver_ne_fault s f)
  | rsenc => exact claim (by simp) (performRsenc_eq_fault h)
  | place => exact claim (by simp) (performPlace_eq_fault h)
  | applymask m => exact claim (by simp) (performApplymask_eq_fault h)
  | score => exact claim (by simp) (performScore_eq_fault h)
  | masksel => exact claim (by simp) (performMasksel_eq_fault h)
  | generate => exact claim (by simp) (performGenerate_eq_fault h)

/-! ## A command that needs an element never written faults (R63) -/

theorem Memory.readSpan_eq_none {α : Type} {m : Memory α} {k n i : Nat} (hi : i < n)
    (h : Memory.read m (k + i) = none) : Memory.readSpan m k n = none :=
  Option.not_isSome_iff_eq_none.1 fun hs => (Memory.readSpan_isSome_iff m k n).1 hs i hi h

theorem readSquare_eq_none {m : Memory Bool} {size r c : Nat} (hr : r < size) (hc : c < size)
    (h : Memory.read m (cellKey r c) = none) : readSquare m size = none :=
  Option.not_isSome_iff_eq_none.1 fun hs => (readSquare_isSome_iff m size).1 hs r c hr hc h

/-- A square grid, as the table of its cells. -/
theorem Grid.eq_table_of_isSquare {g : Grid} {size : Nat} (h : g.isSquare size) :
    g = (List.range size).map fun r => (List.range size).map (g.cell r) := by
  refine Grid.ext_of_isSquare h ⟨by simp, by simp⟩ fun r c hr hc => ?_
  simp [Grid.cell, hr, hc]

/-- The count CheckCapacity makes row by row (R194) is the count over the cells of the square. -/
theorem freeCells_eq_dataCellsIn {g : Grid} {size : Nat} (h : g.isSquare size) :
    freeCells g = dataCellsIn g (squareCells size) := by
  conv_lhs => rw [Grid.eq_table_of_isSquare h]
  simp [freeCells, dataCellsIn, squareCells, List.countP_flatMap, Function.comp_def]

section
variable {s : State} (hv : s.cfg.supported = true)
include hv

theorem performRsenc_of_unwritten (hd : Memory.readSpan s.din 0 s.dataCount = none) :
    performRsenc s = .fault .unwrittenRead := by
  obtain ⟨h, -⟩ | ⟨-, -, h⟩ | ⟨-, data, h, -⟩ := performRsenc_cases s
  · simp [hv] at h
  · exact h
  · simp [hd] at h

/-- GENERATE faults where its first stage does (R115). -/
theorem performGenerate_of_unwritten (hd : Memory.readSpan s.din 0 s.dataCount = none) :
    performGenerate s = .fault .unwrittenRead := by
  obtain ⟨h, -⟩ | ⟨-, h⟩ := performGenerate_cases s
  · simp [hv] at h
  · rw [h, performRsenc_of_unwritten hv hd, andThen_fault, andThen_fault, andThen_fault]

theorem performScore_of_unwritten (hm : readSquare s.modArr s.side = none) :
    performScore s = .fault .unwrittenRead := by
  obtain ⟨h, -⟩ | ⟨-, -, h⟩ | ⟨-, g, h, -⟩ := performScore_cases s
  · simp [hv] at h
  · exact h
  · simp [hm] at h

theorem performMasksel_of_unwritten (hmf : readSquare s.modArr s.side = none ∨ readSquare s.funArr s.side = none) :
    performMasksel s = .fault .unwrittenRead := by
  obtain ⟨h, -⟩ | ⟨-, -, h⟩ | ⟨-, g, f, hg, hf, -⟩ := performMasksel_cases s
  · simp [hv] at h
  · exact h
  · simp [hg, hf] at hmf

theorem performApplymask_of_unwritten (m : BitVec 3)
    (hmf : readSquare s.modArr s.side = none ∨ readSquare s.funArr s.side = none) :
    performApplymask m s = .fault .unwrittenRead := by
  obtain ⟨h, -⟩ | ⟨-, -, h⟩ | ⟨-, g, f, hg, hf, -⟩ := performApplymask_cases m s
  · simp [hv] at h
  · exact h
  · simp [hg, hf] at hmf

/-- PLACE reads FUN first, then, where it finds room for the codewords, CWB (R192, R194, log 7). -/
theorem performPlace_of_unwritten
    (h : readSquare s.funArr s.side = none ∨ ∃ f, readSquare s.funArr s.side = some f ∧ 8 * s.total ≤ freeCells f ∧
      Memory.readSpan s.cwb 0 s.total = none) : performPlace s = .fault .unwrittenRead := by
  obtain ⟨hu, -⟩ | ⟨-, -, he⟩ | ⟨-, f, hf, ⟨hroom, -⟩ | ⟨-, -, he⟩ | ⟨-, cw, hcw, -⟩⟩ := performPlace_cases s
  · simp [hv] at hu
  · exact he
  · simp [hf] at h
    omega
  · exact he
  · simp [hf, hcw] at h

end

/-- Settles O17: an element never written leaves no list or square to read. -/
theorem unwrittenElementsFault : Obligations.UnwrittenElementsFault := by
  intro s hv
  refine ⟨?_, ?_, ?_, ?_⟩
  · rintro ⟨k, hk, hnone⟩
    have hd : Memory.readSpan s.din 0 s.dataCount = none := Memory.readSpan_eq_none hk (by rwa [Nat.zero_add])
    exact ⟨exec_eq_fault_iff.2 (performRsenc_of_unwritten hv hd),
      exec_eq_fault_iff.2 (performGenerate_of_unwritten hv hd)⟩
  · rintro ⟨r, c, hr, hc, hnone⟩
    have hm : readSquare s.modArr s.side = none := readSquare_eq_none hr hc hnone
    exact ⟨exec_eq_fault_iff.2 (performScore_of_unwritten hv hm),
      exec_eq_fault_iff.2 (performMasksel_of_unwritten hv (.inl hm)),
      fun m => exec_eq_fault_iff.2 (performApplymask_of_unwritten hv m (.inl hm))⟩
  · rintro ⟨r, c, hr, hc, hnone⟩
    have hf : readSquare s.funArr s.side = none := readSquare_eq_none hr hc hnone
    exact ⟨exec_eq_fault_iff.2 (performPlace_of_unwritten hv (.inl hf)),
      exec_eq_fault_iff.2 (performMasksel_of_unwritten hv (.inr hf)),
      fun m => exec_eq_fault_iff.2 (performApplymask_of_unwritten hv m (.inr hf))⟩
  · rintro f hf hroom ⟨k, hk, hnone⟩
    have hcwb : Memory.readSpan s.cwb 0 s.total = none := Memory.readSpan_eq_none hk (by rwa [Nat.zero_add])
    refine exec_eq_fault_iff.2 (performPlace_of_unwritten hv (.inr ⟨f, readSquare_of_holdsGrid hf, ?_, hcwb⟩))
    rwa [freeCells_eq_dataCellsIn hf.1]

end Sys2Proof.Machine
end

section
/-! PROOFS (20_memory.md R50 to R60): the host port while BUSY = 0. What one access does is said once, as a step; then
what each part of the address map gives and takes. -/

namespace Sys2Proof.Machine

/-! ## One access as a step -/

/-- No answer of the port depends on what the host does next (log 1). -/
@[simp] theorem portRead_setInputs (s : State) (l : List HostEvent) (addr : HostAddr) :
    portRead (s.setInputs l) addr = portRead s addr := rfl

section
variable {s : State} {addr : HostAddr} {n : AccessWidth} {v : BitVec 64} {rest : List HostEvent}

/-- A read has no effect but its answer, also while BUSY = 1 (R60). -/
theorem step_of_read_pure {t : State} (hi : s.inputs = .access (.read addr n) :: rest) (h : step s = .next t) :
    ∃ r, t = (s.setInputs rest).setReply r := by
  rw [step_of_access hi] at h
  obtain ⟨-, -, e⟩ | ⟨-, ⟨addr', n', -, ⟨-, e⟩ | ⟨-, -, e⟩ | ⟨-, r, -, e⟩⟩ | ⟨addr', n', v, ha, -⟩⟩ :=
    hostAccess_cases (.read addr n) (s.setInputs rest)
  · rw [e] at h; cases h
  · rw [e] at h; cases h; exact ⟨_, rfl⟩
  · rw [e] at h; cases h
  · rw [e] at h; cases h; exact ⟨r, rfl⟩
  · cases ha

variable (hb : s.status.busy = false)
include hb

theorem step_of_read_illegal (hi : s.inputs = .access (.read addr n) :: rest) (hl : legalAccess addr n = false) :
    step s = .next ((s.setInputs rest).setReply (.accessError addr)) := by
  rw [step_of_access hi]
  simp [hostAccess, hb, hl]

theorem step_of_write_illegal (hi : s.inputs = .access (.write addr n v) :: rest)
    (hl : legalAccess addr n = false) : step s = .next ((s.setInputs rest).setReply (.accessError addr)) := by
  rw [step_of_access hi]
  simp [hostAccess, hb, hl]

theorem step_of_read (hi : s.inputs = .access (.read addr n) :: rest) (hl : legalAccess addr n = true)
    {r : PortReply} (hr : portRead s addr = some r) : step s = .next ((s.setInputs rest).setReply r) := by
  rw [step_of_access hi]
  simp [hostAccess, hb, hl, hr]

theorem step_of_read_unwritten (hi : s.inputs = .access (.read addr n) :: rest) (hl : legalAccess addr n = true)
    (hr : portRead s addr = none) : step s = .fault .unwrittenRead := by
  rw [step_of_access hi]
  simp [hostAccess, hb, hl, hr]

theorem step_of_write (hi : s.inputs = .access (.write addr n v) :: rest) (hl : legalAccess addr n = true) :
    step s = .next ((portWrite (s.setInputs rest) addr v).setReply .ack) := by
  rw [step_of_access hi]
  simp [hostAccess, hb, hl]

end

/-! ## Legal accesses (R52 to R54) -/

theorem legalAccess_four {addr : HostAddr} (h : addr.toNat < 0x1000) (h4 : addr.toNat % 4 = 0) :
    legalAccess addr .four = true := by
  simp [legalAccess, h, h4]

theorem legalAccess_one {addr : HostAddr} (h : 0x1000 ≤ addr.toNat) : legalAccess addr .one = true := by
  simp [legalAccess, Nat.not_lt.2 h]

theorem legalAccess_eq_false {addr : HostAddr} {n : AccessWidth}
    (h : addr.toNat < 0x1000 ∧ n ≠ .four ∨ addr.toNat < 0x1000 ∧ n = .four ∧ addr.toNat % 4 ≠ 0 ∨
      0x1000 ≤ addr.toNat ∧ n ≠ .one) : legalAccess addr n = false := by
  obtain ⟨hlow, hn⟩ | ⟨hlow, -, h4⟩ | ⟨hhigh, hn⟩ := h
  · simp [legalAccess, hlow, hn]
  · simp [legalAccess, hlow, h4]
  · simp [legalAccess, Nat.not_lt.2 hhigh, hn]

/-- Settles O48: the three kinds of access are the illegal ones, and the port refuses each. -/
theorem illegalAccessChangesNothing : Obligations.IllegalAccessChangesNothing := by
  intro s addr n v rest hb h
  exact ⟨fun hi => step_of_read_illegal hb hi (legalAccess_eq_false h),
    fun hi => step_of_write_illegal hb hi (legalAccess_eq_false h)⟩

/-! ## The address map (R51) -/

theorem regionOf_register {addr : HostAddr} (h : addr.toNat < 0x1000) : regionOf addr = .register addr.toNat := by
  simp [regionOf, h]

theorem regionOf_reserved {addr : HostAddr}
    (h : 0x1B8C ≤ addr.toNat ∧ addr.toNat < 0x2000 ∨ 0x2E7A ≤ addr.toNat ∧ addr.toNat < 0x4000 ∨
      0x5098 ≤ addr.toNat ∧ addr.toNat < 0x6000 ∨ 0x7098 ≤ addr.toNat) : regionOf addr = .reserved := by
  unfold regionOf
  dsimp only
  split_ifs <;> grind

theorem regionOf_din {addr : HostAddr} {i : Nat} (ha : addr.toNat = 0x1000 + i) (hi : i ≤ 2955) :
    regionOf addr = .din i := by
  simp (disch := omega) only [regionOf, if_neg, if_pos, ha, Nat.add_sub_cancel_left]

theorem regionOf_cwb {addr : HostAddr} {i : Nat} (ha : addr.toNat = 0x2000 + i) (hi : i ≤ 3705) :
    regionOf addr = .cwb i := by
  simp (disch := omega) only [regionOf, if_neg, if_pos, ha, Nat.add_sub_cancel_left]

theorem regionOf_modByte {addr : HostAddr} {r k : Nat} (ha : addr.toNat = 0x4000 + 24 * r + k) (hr : r ≤ 176)
    (hk : k ≤ 23) : regionOf addr = .modByte r k := by
  have hrow : (addr.toNat - 0x4000) / 24 = r := by omega
  have hbyte : (addr.toNat - 0x4000) % 24 = k := by omega
  simp (disch := omega) only [regionOf, if_neg, if_pos, hrow, hbyte]

theorem regionOf_funByte {addr : HostAddr} {r k : Nat} (ha : addr.toNat = 0x6000 + 24 * r + k) (hr : r ≤ 176)
    (hk : k ≤ 23) : regionOf addr = .funByte r k := by
  have hrow : (addr.toNat - 0x6000) / 24 = r := by omega
  have hbyte : (addr.toNat - 0x6000) % 24 = k := by omega
  simp (disch := omega) only [regionOf, if_neg, if_pos, hrow, hbyte]

/-! ## The registers (R51, R55, R60) -/

theorem portRead_register {addr : HostAddr} (h : addr.toNat < 0x1000) (s : State) :
    portRead s addr = some (.word (readRegister s addr.toNat)) := by
  simp [portRead, regionOf_register h]

/-- Of the registers only CMD takes a write (R60). -/
theorem portWrite_register {addr : HostAddr} (h : addr.toNat < 0x1000) (h0 : addr.toNat ≠ 0) (s : State)
    (v : BitVec 64) : portWrite s addr v = s := by
  simp [portWrite, regionOf_register h, h0]

theorem readRegister_reserved (s : State) {a : Nat} (h : a = 0x1C ∨ 0x54 ≤ a) : readRegister s a = 0#32 := by
  unfold readRegister
  split
  case h_20 => rfl
  all_goals omega

theorem portRead_reserved {addr : HostAddr} (h : regionOf addr = .reserved) (s : State) :
    portRead s addr = some (.byte 0#8) := by
  simp [portRead, h]

theorem portWrite_reserved {addr : HostAddr} (h : regionOf addr = .reserved) (s : State) (v : BitVec 64) :
    portWrite s addr v = s := by
  simp [portWrite, h]

section
variable {s : State} {addr : HostAddr} {v : BitVec 64} {rest : List HostEvent} (hb : s.status.busy = false)
include hb

theorem step_of_read_register (hi : s.inputs = .access (.read addr .four) :: rest) (h : addr.toNat < 0x1000)
    (h4 : addr.toNat % 4 = 0) {w : Word} (hw : readRegister s addr.toNat = w) :
    step s = .next ((s.setInputs rest).setReply (.word w)) :=
  step_of_read hb hi (legalAccess_four h h4) (by rw [portRead_register h, hw])

theorem step_of_write_register (hi : s.inputs = .access (.write addr .four v) :: rest) (h : addr.toNat < 0x1000)
    (h4 : addr.toNat % 4 = 0) (h0 : addr.toNat ≠ 0) : step s = .next ((s.setInputs rest).setReply .ack) := by
  rw [step_of_write hb hi (legalAccess_four h h4), portWrite_register h h0]

end

/-- Settles O49: the reserved words of the register window, then the reserved bytes above it. -/
theorem reservedAddressesReadZero : Obligations.ReservedAddressesReadZero := by
  refine fun s addr v rest hb => ⟨fun ⟨h4, h⟩ => ?_, fun h => ?_⟩
  · have hlow : addr.toNat < 0x1000 := by omega
    exact ⟨fun hi => step_of_read_register hb hi hlow h4 (readRegister_reserved s (h.imp_right And.left)),
      fun hi => step_of_write_register hb hi hlow h4 (by omega)⟩
  · have hl : legalAccess addr .one = true := legalAccess_one (by omega)
    refine ⟨fun hi => step_of_read hb hi hl (portRead_reserved (regionOf_reserved h) s), fun hi => ?_⟩
    rw [step_of_write hb hi hl, portWrite_reserved (regionOf_reserved h)]
    rfl

/-- Settles O50: the registers but CMD ignore a write; a CMD read gives the word of an unnamed register; a read's only
effect is its answer. -/
theorem registerWritesIgnoredAndReadsPure : Obligations.RegisterWritesIgnoredAndReadsPure := by
  refine ⟨fun s addr v rest hb hmem hi => ?_, fun s rest hb hi => ?_, fun s t addr n rest hi h => ?_⟩
  · have hreg : ∀ a ∈ [0x04, 0x08, 0x0C, 0x10, 0x14, 0x18, 0x20, 0x24, 0x28, 0x2C, 0x30, 0x34, 0x38, 0x3C,
        0x40, 0x44, 0x48, 0x4C, 0x50], a < 0x1000 ∧ a % 4 = 0 ∧ a ≠ 0 := by decide
    obtain ⟨hlow, h4, h0⟩ := hreg _ hmem
    exact step_of_write_register hb hi hlow h4 h0
  · exact step_of_read_register hb hi (by decide) (by decide) rfl
  · obtain ⟨r, rfl⟩ := step_of_read_pure hi h
    rfl

/-- The zero bits above MASK make its word (R24). -/
theorem readRegister_maskid (s : State) : readRegister s 0x0C = s.maskid.setWidth 32 := by
  apply BitVec.eq_of_toNat_eq
  have hlt := s.maskid.isLt
  change BitVec.toNat (w := 29 + 3) (0#29 ++ s.maskid) = _
  rw [toNat_append_eq_add, BitVec.toNat_setWidth, BitVec.toNat_ofNat]
  omega

/-- Settles O51: the map, one address after another. -/
theorem registerReadMap : Obligations.RegisterReadMap := by
  intro s rest addr w hb hmem hi
  have hread : addr.toNat < 0x1000 ∧ addr.toNat % 4 = 0 ∧ readRegister s addr.toNat = w := by
    fin_cases hmem
    on_goal 3 => exact ⟨by decide, by decide, readRegister_maskid s⟩
    all_goals exact ⟨by decide, by decide, rfl⟩
  obtain ⟨hlow, h4, hw⟩ := hread
  exact step_of_read_register hb hi hlow h4 hw

/-! ## What a window gives and takes (R56 to R59) -/

theorem portRead_din {addr : HostAddr} {i : Nat} (h : regionOf addr = .din i) (s : State) :
    portRead s addr = (Memory.read s.din i).map .byte := by
  simp [portRead, h]

theorem portRead_cwb {addr : HostAddr} {i : Nat} (h : regionOf addr = .cwb i) (s : State) :
    portRead s addr = (Memory.read s.cwb i).map .byte := by
  simp [portRead, h]

theorem portRead_modByte {addr : HostAddr} {r k : Nat} (h : regionOf addr = .modByte r k) (s : State) :
    portRead s addr = (readWindow s.modArr r k).map .byte := by
  simp [portRead, h]

theorem portRead_funByte {addr : HostAddr} {r k : Nat} (h : regionOf addr = .funByte r k) (s : State) :
    portRead s addr = (readWindow s.funArr r k).map .byte := by
  simp [portRead, h]

theorem portWrite_din {addr : HostAddr} {i : Nat} (h : regionOf addr = .din i) (s : State) (v : Byte) :
    portWrite s addr (v.setWidth 64) = s.setDin (Memory.write s.din i v) := by
  simp [portWrite, h]

theorem portWrite_cwb {addr : HostAddr} {i : Nat} (h : regionOf addr = .cwb i) (s : State) (v : Byte) :
    portWrite s addr (v.setWidth 64) = s.setCwb (Memory.write s.cwb i v) := by
  simp [portWrite, h]

theorem portWrite_modByte {addr : HostAddr} {r k : Nat} (h : regionOf addr = .modByte r k) (s : State) (v : Byte) :
    portWrite s addr (v.setWidth 64) = s.setMod (writeWindow s.modArr r k v) := by
  simp [portWrite, h]

theorem portWrite_funByte {addr : HostAddr} {r k : Nat} (h : regionOf addr = .funByte r k) (s : State) (v : Byte) :
    portWrite s addr (v.setWidth 64) = s.setFun (writeWindow s.funArr r k v) := by
  simp [portWrite, h]

/-- A byte read at a place that may hold a byte is answered with it, or faults where there is none (R63). -/
theorem step_of_read_byte {s : State} {addr : HostAddr} {rest : List HostEvent} {x : Option Byte}
    (hb : s.status.busy = false) (hi : s.inputs = .access (.read addr .one) :: rest)
    (hl : 0x1000 ≤ addr.toNat) (hx : portRead s addr = x.map .byte) :
    (∀ b, x = some b → step s = .next ((s.setInputs rest).setReply (.byte b))) ∧
      (x = none → step s = .fault .unwrittenRead) :=
  ⟨fun b h => step_of_read hb hi (legalAccess_one hl) (by rw [hx, h]; rfl),
    fun h => step_of_read_unwritten hb hi (legalAccess_one hl) (by rw [hx, h]; rfl)⟩

/-! ## The windows of DIN and CWB (R56, R57) -/

/-- Settles O54: each window's bytes are the elements of its buffer. -/
theorem byteWindows : Obligations.ByteWindows := by
  refine fun s i v rest hb => ⟨fun hle => ?_, fun hle => ?_⟩
  · have ha : (BitVec.ofNat 16 (0x1000 + i)).toNat = 0x1000 + i := by simp; omega
    have hreg := regionOf_din ha hle
    refine ⟨fun hi => ⟨Memory.write s.din i v, ?_, Memory.read_write_same _ _ _,
      fun j hj => Memory.read_write_other v hj⟩, fun hi => ?_⟩
    · rw [step_of_write hb hi (legalAccess_one (by omega)), portWrite_din hreg]
      rfl
    · exact step_of_read_byte hb hi (by omega) (portRead_din hreg s)
  · have ha : (BitVec.ofNat 16 (0x2000 + i)).toNat = 0x2000 + i := by simp; omega
    have hreg := regionOf_cwb ha hle
    refine ⟨fun hi => ⟨Memory.write s.cwb i v, ?_, Memory.read_write_same _ _ _,
      fun j hj => Memory.read_write_other v hj⟩, fun hi => ?_⟩
    · rw [step_of_write hb hi (legalAccess_one (by omega)), portWrite_cwb hreg]
      rfl
    · exact step_of_read_byte hb hi (by omega) (portRead_cwb hreg s)

/-! ## The windows of MOD and FUN, written (R58, R59) -/

/-- A written column of a window byte takes its bit. -/
theorem read_writeWindow_same (m : Memory Bool) (r k : Nat) (v : Byte) {b : Nat} (hb : b < 8)
    (hc : 8 * k + b ≤ 176) :
    Memory.read (writeWindow m r k v) (cellKey r (8 * k + b)) = some (v.getLsbD (7 - b)) := by
  refine Memory.read_writeAll_of_mem m (mem_windowWrites.2 ⟨b, ⟨hb, hc⟩, rfl⟩) fun x hx hkey => ?_
  obtain ⟨b', ⟨-, hc'⟩, rfl⟩ := mem_windowWrites.1 hx
  obtain ⟨-, hcol⟩ := cellKey_inj (by omega) (by omega) hkey
  rw [show b' = b by omega]

/-- Every other cell keeps its value. -/
theorem read_writeWindow_other (m : Memory Bool) {r k : Nat} (v : Byte) {r' c : Nat} (hc : c ≤ 176)
    (h : ¬ (r' = r ∧ 8 * k ≤ c ∧ c < 8 * k + 8)) :
    Memory.read (writeWindow m r k v) (cellKey r' c) = Memory.read m (cellKey r' c) := by
  refine Memory.read_writeAll_of_not_mem m fun x hx hkey => h ?_
  obtain ⟨b, ⟨hb, hc'⟩, rfl⟩ := mem_windowWrites.1 hx
  obtain ⟨hrow, hcol⟩ := cellKey_inj (by omega) (by omega) hkey
  exact ⟨hrow.symm, by omega, by omega⟩

/-- Settles O55: both windows are written alike. -/
theorem gridWindowWrites : Obligations.GridWindowWrites := by
  refine fun s r k v rest hb hr hk => ⟨fun hi => ?_, fun hi => ?_⟩
  · have ha : (BitVec.ofNat 16 (0x4000 + 24 * r + k)).toNat = 0x4000 + 24 * r + k := by simp; omega
    refine ⟨writeWindow s.modArr r k v, ?_, fun b => read_writeWindow_same _ r k v,
      fun r' c => read_writeWindow_other _ v⟩
    rw [step_of_write hb hi (legalAccess_one (by omega)), portWrite_modByte (regionOf_modByte ha hr hk)]
    rfl
  · have ha : (BitVec.ofNat 16 (0x6000 + 24 * r + k)).toNat = 0x6000 + 24 * r + k := by simp; omega
    refine ⟨writeWindow s.funArr r k v, ?_, fun b => read_writeWindow_same _ r k v,
      fun r' c => read_writeWindow_other _ v⟩
    rw [step_of_write hb hi (legalAccess_one (by omega)), portWrite_funByte (regionOf_funByte ha hr hk)]
    rfl

/-! ## The windows of MOD and FUN, read (R58, R59, R63) -/

/-- What a window reads for column `c` of row `r`: light above column 176 (R58), none where the cell was never
written. -/
def windowCell (m : Memory Bool) (r c : Nat) : Option Bool :=
  if c ≤ 176 then Memory.read m (cellKey r c) else some false

theorem windowBits_eq_some_iff {m : Memory Bool} {r c n : Nat} {bs : List Bool} :
    windowBits m r c n = some bs ↔ (List.range' c n).map (windowCell m r) = bs.map some := by
  induction n generalizing c bs with
  | zero => cases bs <;> simp [windowBits]
  | succ n ih =>
    have hstep : windowBits m r c (n + 1) = some bs ↔
        ∃ b bs', windowCell m r c = some b ∧ windowBits m r (c + 1) n = some bs' ∧ b :: bs' = bs := by
      rw [windowBits, ← windowCell]
      cases windowCell m r c <;> cases windowBits m r (c + 1) n <;> simp
    rw [hstep, List.range'_succ, List.map_cons]
    cases bs with
    | nil => simp
    | cons b bs => simp [ih]

/-- The bits read are the row's, from column `c` on. -/
theorem getElem?_of_windowBits {m : Memory Bool} {r c n b : Nat} {bs : List Bool}
    (h : windowBits m r c n = some bs) (hb : b < n) : ∃ x, bs[b]? = some x ∧ windowCell m r (c + b) = some x := by
  have hget := congrArg (·[b]?) (windowBits_eq_some_iff.1 h)
  simpa [hb, eq_comm (a := some _)] using hget.symm

theorem exists_windowBits {m : Memory Bool} {r c n : Nat} (h : ∀ b, b < n → windowCell m r (c + b) ≠ none) :
    ∃ bs, windowBits m r c n = some bs ∧ bs.length = n := by
  refine ⟨(List.range' c n).map fun i => (windowCell m r i).getD false, ?_, by simp⟩
  rw [windowBits_eq_some_iff, List.map_map]
  refine List.map_congr_left fun i hi => ?_
  obtain ⟨b, hb, rfl⟩ := List.mem_range'.1 hi
  rw [Nat.one_mul]
  obtain ⟨x, hx⟩ := Option.ne_none_iff_exists'.1 (h b hb)
  simp [hx]

/-- The last bit of the list is bit 0 of the number. -/
theorem testBit_bitsToNat (bs : List Bool) (i : Nat) : (bitsToNat bs).testBit i = bs.reverse.getD i false := by
  induction bs using List.reverseRecOn generalizing i with
  | nil => simp [bitsToNat]
  | append_singleton bs b ih =>
    have hbit : bitsToNat (bs ++ [b]) = Nat.bit b (bitsToNat bs) := by simp [bitsToNat, Nat.bit_val]
    rw [hbit]
    cases i with
    | zero => simp
    | succ i => simp [Nat.testBit_bit_succ, ih]

/-- The first of eight bits is bit 7 of the byte (R58). -/
theorem getLsbD_ofNat_bitsToNat {bs : List Bool} (h8 : bs.length = 8) {b : Nat} (hb : b < 8) :
    some ((BitVec.ofNat 8 (bitsToNat bs)).getLsbD (7 - b)) = bs[b]? := by
  have hrev : bs.reverse[7 - b]? = bs[b]? := by
    rw [List.getElem?_reverse (by omega), h8]
    congr 1
    omega
  have hget : bs[b]? = some bs[b] := List.getElem?_eq_getElem (by omega)
  rw [BitVec.getLsbD_ofNat, testBit_bitsToNat, List.getD_eq_getElem?_getD, hrev, hget]
  simp [show 7 - b < 8 by omega]

theorem readWindow_of_written {m : Memory Bool} {r k : Nat} (h : ∀ b, b < 8 → windowCell m r (8 * k + b) ≠ none) :
    ∃ w, readWindow m r k = some w ∧ ∀ b, b < 8 → some (w.getLsbD (7 - b)) = windowCell m r (8 * k + b) := by
  obtain ⟨bs, hbs, h8⟩ := exists_windowBits h
  refine ⟨BitVec.ofNat 8 (bitsToNat bs), by rw [readWindow, hbs]; rfl, fun b hb => ?_⟩
  obtain ⟨x, hx, hcell⟩ := getElem?_of_windowBits hbs hb
  rw [getLsbD_ofNat_bitsToNat h8 hb, hx, hcell]

theorem readWindow_of_unwritten {m : Memory Bool} {r k b : Nat} (hb : b < 8)
    (h : windowCell m r (8 * k + b) = none) : readWindow m r k = none := by
  rw [readWindow, Option.map_eq_none_iff]
  refine Option.eq_none_iff_forall_ne_some.2 fun bs hbs => ?_
  obtain ⟨x, -, hx⟩ := getElem?_of_windowBits hbs hb
  rw [h] at hx
  cases hx

/-- A read of a window byte, whichever array it shows: the columns up to 176 in order, or the fault (R58, R63). -/
theorem step_of_read_window {s : State} {addr : HostAddr} {rest : List HostEvent} {m : Memory Bool} {r k : Nat}
    (hb : s.status.busy = false) (hi : s.inputs = .access (.read addr .one) :: rest) (hl : 0x1000 ≤ addr.toNat)
    (hm : portRead s addr = (readWindow m r k).map .byte) :
    ((∀ b, b < 8 → 8 * k + b ≤ 176 → Memory.read m (cellKey r (8 * k + b)) ≠ none) →
      ∃ w, step s = .next ((s.setInputs rest).setReply (.byte w)) ∧
        ∀ b, b < 8 → some (w.getLsbD (7 - b)) = windowCell m r (8 * k + b)) ∧
    ((∃ b, b < 8 ∧ 8 * k + b ≤ 176 ∧ Memory.read m (cellKey r (8 * k + b)) = none) →
      step s = .fault .unwrittenRead) := by
  obtain ⟨hanswer, hfault⟩ := step_of_read_byte hb hi hl hm
  refine ⟨fun h => ?_, fun ⟨b, hb8, hc, hnone⟩ => ?_⟩
  · have hcells : ∀ b, b < 8 → windowCell m r (8 * k + b) ≠ none := fun b hb8 => by
      rw [windowCell]
      split_ifs with hc
      · exact h b hb8 hc
      · simp
    obtain ⟨w, hw, hbits⟩ := readWindow_of_written hcells
    exact ⟨w, hanswer w hw, hbits⟩
  · exact hfault (readWindow_of_unwritten hb8 (by rw [windowCell, if_pos hc, hnone]))

/-- Settles O56: both windows read alike. -/
theorem gridWindowReads : Obligations.GridWindowReads := by
  refine fun s r k rest hb hr hk => ⟨fun hi => ?_, fun hi => ?_⟩
  · have ha : (BitVec.ofNat 16 (0x4000 + 24 * r + k)).toNat = 0x4000 + 24 * r + k := by simp; omega
    exact step_of_read_window hb hi (by omega) (portRead_modByte (regionOf_modByte ha hr hk) s)
  · have ha : (BitVec.ofNat 16 (0x6000 + 24 * r + k)).toNat = 0x6000 + 24 * r + k := by simp; omega
    exact step_of_read_window hb hi (by omega) (portRead_funByte (regionOf_funByte ha hr hk) s)

end Sys2Proof.Machine
end

section
/-! PROOFS (30_encoding.md R80 to R97): a row of the decode table is selected by its opcode and by zeros in the bits
that opcode does not use, said once for all twelve rows; the table, the round trips and the illegal words follow.
Then FORCEMASK (R90) and the words of the tables. -/

namespace Sys2Proof

/-! ## What selects a row (R85, R86) -/

/-- Bit `k` is one that a command of opcode `op` does not use (R85). -/
def isUnusedBit (op : BitVec 4) (k : Nat) : Bool :=
  decide (k = 7 ∨ 16 ≤ k ∨ (op ≠ 0x1#4 ∧ 8 ≤ k ∧ k < 16) ∨ (op ≠ 0x5#4 ∧ op ≠ 0x7#4 ∧ 4 ≤ k ∧ k < 7))

/-- A word has a 0 in every bit its opcode does not use. -/
def UnusedBitsZero (w : Word) : Prop := ∀ k, isUnusedBit (fieldOp w) k = true → w.getLsbD k = false

theorem getLsbD_fieldOp (w : Word) (k : Nat) : (fieldOp w).getLsbD k = (decide (k < 4) && w.getLsbD k) := by
  rw [fieldOp, BitVec.getLsbD_extractLsb', Nat.zero_add]

/-- A row's mask has a 1 at the opcode and at each unused bit; its pattern has zeros above the opcode. -/
theorem decodeTable_bits : ∀ r ∈ decodeTable, ∀ k < 32,
    r.mask.getLsbD k = (decide (k < 4) || isUnusedBit (fieldOp r.pattern) k) ∧
      r.pattern.getLsbD k = (decide (k < 4) && (fieldOp r.pattern).getLsbD k) := by
  decide

theorem DecodeRow.selects_eq_true_iff (r : DecodeRow) (w : Word) :
    r.selects w = true ↔ w &&& r.mask = r.pattern := beq_iff_eq

/-- What selecting a row comes to, bit by bit: the opcode of the row, and 0 in the unused bits (R85, R86). -/
theorem selects_iff {r : DecodeRow} (hr : r ∈ decodeTable) (w : Word) :
    r.selects w = true ↔ fieldOp w = fieldOp r.pattern ∧ UnusedBitsZero w := by
  have hbits := decodeTable_bits r hr
  rw [r.selects_eq_true_iff]
  constructor
  · intro h
    have hand (k : Nat) : (w.getLsbD k && r.mask.getLsbD k) = r.pattern.getLsbD k := by rw [← h, BitVec.getLsbD_and]
    have hop : fieldOp w = fieldOp r.pattern := BitVec.eq_of_getLsbD_eq fun k hk => by
      have hbit := hand k
      rw [(hbits k (by omega)).1] at hbit
      simpa [getLsbD_fieldOp, -BitVec.getLsbD_eq_getElem, hk] using hbit
    refine ⟨hop, fun k hk => ?_⟩
    have hk4 : ¬ k < 4 := by simp [isUnusedBit] at hk; omega
    by_cases h32 : k < 32
    · simpa [hbits k h32, hk4, ← hop, hk] using hand k
    · exact BitVec.getLsbD_of_ge w k (by omega)
  · rintro ⟨hop, hzero⟩
    refine BitVec.eq_of_getLsbD_eq fun k hk => ?_
    rw [BitVec.getLsbD_and, (hbits k hk).1, (hbits k hk).2, ← hop, getLsbD_fieldOp]
    by_cases hk4 : k < 4
    · simp [hk4]
    · by_cases hu : isUnusedBit (fieldOp w) k = true
      · simp [hk4, hzero k hu]
      · simp [hk4, hu]

/-! ## The rows by their opcodes (R81) -/

theorem decodeTable_opcodes :
    decodeTable.map (fun r => fieldOp r.pattern) = (List.range 12).map (BitVec.ofNat 4) := by decide

theorem decodeTable_opcodes_nodup : (decodeTable.map fun r => fieldOp r.pattern).Nodup := by
  rw [decodeTable_opcodes]
  decide

/-- No word selects two rows. -/
theorem row_unique {a b : DecodeRow} (ha : a ∈ decodeTable) (hb : b ∈ decodeTable) {w : Word}
    (hwa : a.selects w = true) (hwb : b.selects w = true) : a = b :=
  List.inj_on_of_nodup_map decodeTable_opcodes_nodup ha hb
    (((selects_iff ha w).1 hwa).1.symm.trans ((selects_iff hb w).1 hwb).1)

/-- A word selects a row exactly when its opcode is one of 0x0 to 0xB and its unused bits are 0. -/
theorem exists_selects_iff (w : Word) :
    (∃ r ∈ decodeTable, r.selects w = true) ↔ (fieldOp w).toNat < 0xC ∧ UnusedBitsZero w := by
  have hop : (∃ r ∈ decodeTable, fieldOp r.pattern = fieldOp w) ↔ (fieldOp w).toNat < 0xC := by
    rw [← List.mem_map (f := fun r : DecodeRow => fieldOp r.pattern), decodeTable_opcodes]
    simp only [List.mem_map, List.mem_range]
    constructor
    · rintro ⟨n, hn, h⟩
      rw [← h, BitVec.toNat_ofNat]
      omega
    · exact fun h => ⟨_, h, by simp⟩
  rw [← hop]
  constructor
  · rintro ⟨r, hr, h⟩
    obtain ⟨hw, hzero⟩ := (selects_iff hr w).1 h
    exact ⟨⟨r, hr, hw.symm⟩, hzero⟩
  · rintro ⟨⟨r, hr, hw⟩, hzero⟩
    exact ⟨r, hr, (selects_iff hr w).2 ⟨hw.symm, hzero⟩⟩

/-! ## Decoding (R87) -/

theorem decode_of_selects {r : DecodeRow} (hr : r ∈ decodeTable) {w : Word} (h : r.selects w = true) :
    decode w = .ok (r.build w) := by
  have hfound : (decodeTable.find? fun r => r.selects w).isSome = true := List.find?_isSome.2 ⟨r, hr, h⟩
  obtain ⟨q, hq⟩ := Option.isSome_iff_exists.1 hfound
  have hw : q.selects w = true := List.find?_some (p := fun r : DecodeRow => r.selects w) hq
  obtain rfl : q = r := row_unique (List.mem_of_find?_eq_some hq) hr hw h
  rw [decode, hq]

theorem decode_eq_error_of_not_selects {w : Word} (h : ¬ ∃ r ∈ decodeTable, r.selects w = true) :
    ∃ x, decode w = .error x := by
  have hnone : decodeTable.find? (·.selects w) = none := List.find?_eq_none.2 fun r hr hw => h ⟨r, hr, hw⟩
  rw [decode, hnone]
  exact ⟨_, rfl⟩

theorem decode_eq_ok_iff {w : Word} {i : Instr} :
    decode w = .ok i ↔ ∃ r ∈ decodeTable, r.selects w = true ∧ r.build w = i := by
  constructor
  · intro h
    by_cases hex : ∃ r ∈ decodeTable, r.selects w = true
    · obtain ⟨r, hr, hw⟩ := hex
      rw [decode_of_selects hr hw] at h
      exact ⟨r, hr, hw, Except.ok.inj h⟩
    · obtain ⟨x, hx⟩ := decode_eq_error_of_not_selects hex
      rw [hx] at h
      cases h
  · rintro ⟨r, hr, hw, rfl⟩
    exact decode_of_selects hr hw

/-- Settles O3: rows differ in their opcodes, and a word has one. -/
theorem decodeTableRowsDisjoint : Obligations.DecodeTableRowsDisjoint := by
  refine ⟨rfl, fun r w _ => r.selects_eq_true_iff w, ?_, fun w r hr => decode_of_selects hr, fun w h => ?_⟩
  · refine (List.pairwise_map.1 decodeTable_opcodes_nodup).imp_of_mem fun ha hb hne w ⟨hwa, hwb⟩ => ?_
    exact hne (by rw [row_unique ha hb hwa hwb])
  · exact decode_eq_error_of_not_selects fun ⟨r, hr, hw⟩ => by simp [h r hr] at hw

/-! ## The fields of a word (R80) -/

theorem assemble_toNat (op : BitVec 4) (msk : BitVec 3) (ver : BitVec 6) (ecl : BitVec 2) :
    (assemble op msk ver ecl).toNat = 2 ^ 14 * ecl.toNat + 2 ^ 8 * ver.toNat + 2 ^ 4 * msk.toNat + op.toNat := by
  unfold assemble
  change BitVec.toNat (w := 16 + 2 + 6 + 1 + 3 + 4) _ = _
  simp only [Machine.toNat_append_eq_add, BitVec.toNat_ofNat]
  omega

section
variable (op : BitVec 4) (msk : BitVec 3) (ver : BitVec 6) (ecl : BitVec 2)

@[simp] theorem fieldOp_assemble : fieldOp (assemble op msk ver ecl) = op :=
  Machine.extractLsb'_eq_of_div_mod (by rw [assemble_toNat]; omega)

@[simp] theorem fieldMsk_assemble : fieldMsk (assemble op msk ver ecl) = msk :=
  Machine.extractLsb'_eq_of_div_mod (by rw [assemble_toNat]; omega)

@[simp] theorem fieldVer_assemble : fieldVer (assemble op msk ver ecl) = ver :=
  Machine.extractLsb'_eq_of_div_mod (by rw [assemble_toNat]; omega)

@[simp] theorem fieldEcl_assemble : fieldEcl (assemble op msk ver ecl) = ecl :=
  Machine.extractLsb'_eq_of_div_mod (by rw [assemble_toNat]; omega)

end

@[simp] theorem EcLevel.ofCode_code (e : EcLevel) : EcLevel.ofCode e.code = e := by cases e <;> rfl

theorem EcLevel.code_ofCode (c : BitVec 2) : (EcLevel.ofCode c).code = c := by revert c; decide

theorem extractLsb'_eq_zero_iff {w : Word} {i n : Nat} :
    w.extractLsb' i n = 0#n ↔ ∀ k, i ≤ k → k < i + n → w.getLsbD k = false := by
  constructor
  · intro h k hik hk
    have hbit : (w.extractLsb' i n).getLsbD (k - i) = w.getLsbD k := by
      rw [BitVec.getLsbD_extractLsb', Nat.add_sub_cancel' hik, decide_eq_true (by omega), Bool.true_and]
    rw [← hbit, h, BitVec.getLsbD_zero]
  · refine fun h => BitVec.eq_of_getLsbD_eq fun k hk => ?_
    rw [BitVec.getLsbD_extractLsb', h (i + k) (by omega) (by omega), BitVec.getLsbD_zero, Bool.and_false]

/-! ## Decoding the encoding -/

/-- The bits a command does not use are those its opcode does not use (R81, R85). -/
theorem unusedBitsZero_encode {i : Instr} (h : Laws.UnusedBits.Statement i) : UnusedBitsZero (encode i) := by
  obtain ⟨-, h7, h16, h8, h4⟩ := h
  intro k hk
  simp only [isUnusedBit, decide_eq_true_eq] at hk
  rcases hk with rfl | hk | ⟨hop, hk⟩ | ⟨hop5, hop7, hk⟩
  · exact h7
  · by_cases h32 : k < 32
    · exact extractLsb'_eq_zero_iff.1 h16 k hk h32
    · exact BitVec.getLsbD_of_ge _ k (by omega)
  · refine extractLsb'_eq_zero_iff.1 (h8 ?_) k hk.1 hk.2
    rintro v e rfl
    exact hop (fieldOp_assemble ..)
  · refine extractLsb'_eq_zero_iff.1 (h4 ?_ ?_) k hk.1 hk.2
    · rintro m rfl
      exact hop5 (fieldOp_assemble ..)
    · rintro m rfl
      exact hop7 (fieldOp_assemble ..)

theorem decode_encode_of_row {i : Instr} {r : DecodeRow} (n : Nat) (hr : decodeTable[n]? = some r)
    (hop : fieldOp (encode i) = fieldOp r.pattern) (hbuild : r.build (encode i) = i)
    (hzero : Laws.UnusedBits.Statement i) : decode (encode i) = .ok i :=
  decode_eq_ok_iff.2 ⟨r, List.mem_of_getElem? hr,
    (selects_iff (List.mem_of_getElem? hr) _).2 ⟨hop, unusedBitsZero_encode hzero⟩, hbuild⟩

/-- Settles O1: each command's word has the opcode of its row, zeros in the unused bits, and its operands in their
fields. -/
theorem decodeOfEncodedInstr : Obligations.DecodeOfEncodedInstr := by
  intro i
  cases i with
  | nop => exact decode_encode_of_row 0 rfl rfl rfl Laws.UnusedBits.nop
  | setcfg v e =>
    exact decode_encode_of_row 1 rfl (fieldOp_assemble ..) (by simp [encode]) (Laws.UnusedBits.setcfg v e)
  | rsenc => exact decode_encode_of_row 2 rfl rfl rfl Laws.UnusedBits.rsenc
  | layout => exact decode_encode_of_row 3 rfl rfl rfl Laws.UnusedBits.layout
  | place => exact decode_encode_of_row 4 rfl rfl rfl Laws.UnusedBits.place
  | applymask m =>
    exact decode_encode_of_row 5 rfl (fieldOp_assemble ..) (by simp [encode]) (Laws.UnusedBits.applymask m)
  | score => exact decode_encode_of_row 6 rfl rfl rfl Laws.UnusedBits.score
  | wrfmt m =>
    exact decode_encode_of_row 7 rfl (fieldOp_assemble ..) (by simp [encode]) (Laws.UnusedBits.wrfmt m)
  | wrver => exact decode_encode_of_row 8 rfl rfl rfl Laws.UnusedBits.wrver
  | masksel => exact decode_encode_of_row 9 rfl rfl rfl Laws.UnusedBits.masksel
  | generate => exact decode_encode_of_row 10 rfl rfl rfl Laws.UnusedBits.generate
  | clrstat => exact decode_encode_of_row 11 rfl rfl rfl Laws.UnusedBits.clrstat

/-! ## Encoding what was decoded -/

theorem assemble_fields {w : Word} (hzero : UnusedBitsZero w) :
    assemble (fieldOp w) (fieldMsk w) (fieldVer w) (fieldEcl w) = w := by
  have h7 : w.extractLsb' 7 1 = 0#1 :=
    extractLsb'_eq_zero_iff.2 fun k _ _ => hzero k (by simp [isUnusedBit]; omega)
  have h16 : w.extractLsb' 16 16 = 0#16 :=
    extractLsb'_eq_zero_iff.2 fun k _ _ => hzero k (by simp [isUnusedBit]; omega)
  rw [← BitVec.toNat_inj, BitVec.extractLsb'_toNat, Nat.shiftRight_eq_div_pow, BitVec.toNat_ofNat] at h7 h16
  rw [← BitVec.toNat_inj, assemble_toNat]
  simp only [fieldOp, fieldMsk, fieldVer, fieldEcl, BitVec.extractLsb'_toNat, Nat.shiftRight_eq_div_pow]
  omega

/-- The word of the command a row builds: the row's opcode, the operand fields it uses, zeros elsewhere. -/
theorem encode_build (w : Word) : ∀ r ∈ decodeTable, encode (r.build w) =
    assemble (fieldOp r.pattern) (bif isUnusedBit (fieldOp r.pattern) 4 then 0 else fieldMsk w)
      (bif isUnusedBit (fieldOp r.pattern) 8 then 0 else fieldVer w)
      (bif isUnusedBit (fieldOp r.pattern) 14 then 0 else fieldEcl w) := by
  simp only [decodeTable, List.forall_mem_cons]
  refine ⟨rfl, ?_, rfl, rfl, rfl, rfl, rfl, rfl, rfl, rfl, rfl, rfl, by simp⟩
  exact congrArg (assemble 0x1#4 0 (fieldVer w)) (EcLevel.code_ofCode _)

/-- An operand field, MSK, VER or ECL, is used whole or not at all (R82 to R85). -/
theorem isUnusedBit_fields : ∀ op : BitVec 4,
    (∀ k < 3, isUnusedBit op (4 + k) = isUnusedBit op 4) ∧ (∀ k < 6, isUnusedBit op (8 + k) = isUnusedBit op 8) ∧
      ∀ k < 2, isUnusedBit op (14 + k) = isUnusedBit op 14 := by
  decide

/-- Where the command does not use an operand field, the field is 0 already. -/
theorem operandField_eq {w : Word} {i n : Nat} (hzero : UnusedBitsZero w)
    (hwhole : ∀ k < n, isUnusedBit (fieldOp w) (i + k) = isUnusedBit (fieldOp w) i) :
    (bif isUnusedBit (fieldOp w) i then 0 else w.extractLsb' i n) = w.extractLsb' i n := by
  cases hu : isUnusedBit (fieldOp w) i with
  | false => rfl
  | true =>
    refine (extractLsb'_eq_zero_iff.2 fun k hik hk => hzero k ?_).symm
    rw [← hu, ← hwhole (k - i) (by omega), Nat.add_sub_cancel' hik]

/-- Settles O2: the word is put together from the row's opcode, the operand fields and zeros. -/
theorem encodeOfDecodedWord : Obligations.EncodeOfDecodedWord := by
  intro w i h
  obtain ⟨r, hr, hsel, rfl⟩ := decode_eq_ok_iff.1 h
  obtain ⟨hop, hzero⟩ := (selects_iff hr w).1 hsel
  obtain ⟨hmsk, hver, hecl⟩ := isUnusedBit_fields (fieldOp w)
  calc encode (r.build w)
    _ = assemble (fieldOp w) (fieldMsk w) (fieldVer w) (fieldEcl w) := by
      rw [encode_build w r hr, ← hop, fieldMsk, fieldVer, fieldEcl,
        operandField_eq hzero hmsk, operandField_eq hzero hver, operandField_eq hzero hecl]
    _ = w := assemble_fields hzero

/-! ## Illegal words (R85, R88) -/

/-- A reserved opcode, or a 1 in a bit the command does not use, as the five kinds of R85 and R88. -/
def HasIllegalBits (w : Word) : Prop :=
  0xC ≤ (fieldOp w).toNat ∨ w.getLsbD 7 = true ∨ (∃ k, 16 ≤ k ∧ k < 32 ∧ w.getLsbD k = true) ∨
    (fieldOp w ≠ 0x1#4 ∧ ∃ k, 8 ≤ k ∧ k < 16 ∧ w.getLsbD k = true) ∨
    (fieldOp w ≠ 0x5#4 ∧ fieldOp w ≠ 0x7#4 ∧ ∃ k, 4 ≤ k ∧ k < 7 ∧ w.getLsbD k = true)

theorem hasIllegalBits_iff (w : Word) : HasIllegalBits w ↔ ¬ ∃ r ∈ decodeTable, r.selects w = true := by
  have hunused : ¬ UnusedBitsZero w ↔ ∃ k, k < 32 ∧ isUnusedBit (fieldOp w) k = true ∧ w.getLsbD k = true := by
    simp only [UnusedBitsZero, not_forall, Bool.not_eq_false, exists_prop]
    exact exists_congr fun k => ⟨fun h => ⟨BitVec.lt_of_getLsbD h.2, h⟩, And.right⟩
  rw [exists_selects_iff, not_and_or, Nat.not_lt, hunused, HasIllegalBits]
  refine or_congr_right ⟨?_, ?_⟩
  · rintro (h | ⟨k, hk, hk', h⟩ | ⟨hop, k, hk, hk', h⟩ | ⟨hop, hop', k, hk, hk', h⟩)
    · exact ⟨7, by decide, by simp [isUnusedBit], h⟩
    · exact ⟨k, hk', by simp [isUnusedBit, hk], h⟩
    · exact ⟨k, by omega, by simp [isUnusedBit, hop, hk, hk'], h⟩
    · exact ⟨k, by omega, by simp [isUnusedBit, hop, hop', hk, hk'], h⟩
  · rintro ⟨k, hk32, hk, h⟩
    simp only [isUnusedBit, decide_eq_true_eq] at hk
    rcases hk with rfl | hk | ⟨hop, hk, hk'⟩ | ⟨hop, hop', hk, hk'⟩
    · exact .inl h
    · exact .inr (.inl ⟨k, hk, hk32, h⟩)
    · exact .inr (.inr (.inl ⟨hop, k, hk, hk', h⟩))
    · exact .inr (.inr (.inr ⟨hop, hop', k, hk, hk', h⟩))

/-! ## The words written out (R86) -/

/-- Settles O4: decoding evaluates. -/
theorem writtenOutWordsDecode : Obligations.WrittenOutWordsDecode := by
  unfold Obligations.WrittenOutWordsDecode
  decide

end Sys2Proof

namespace Sys2Proof.Machine

/-! ## The engine's step of an illegal word (R254) -/

/-- Settles O5: an illegal word selects no row and a legal one does; either way the step is the engine's. -/
theorem illegalWordPerformsNothing : Obligations.IllegalWordPerformsNothing := by
  intro s hbusy
  have hturn (rest : List HostEvent) (hi : s.inputs = .engineTurn :: rest) : step s = engineStep (s.setInputs rest) :=
    (step_of_engineTurn hi).trans (engineTurn_of_busy hbusy)
  have hlast (hi : s.inputs = []) : step s = engineStep s := (step_of_no_inputs hi).trans (engineTurn_of_busy hbusy)
  refine ⟨fun (h : HasIllegalBits s.pendcmd) => ?_, fun (h : ¬ HasIllegalBits s.pendcmd) => ?_⟩
  · obtain ⟨x, hx⟩ := decode_eq_error_of_not_selects ((hasIllegalBits_iff _).1 h)
    exact ⟨fun rest hi => (hturn rest hi).trans (engineStep_of_illegal (s := s.setInputs rest) hx),
      fun hi => (hlast hi).trans (engineStep_of_illegal hx)⟩
  · obtain ⟨r, hr, hsel⟩ := not_not.1 (mt (hasIllegalBits_iff _).2 h)
    have hdec := decode_of_selects hr hsel
    exact ⟨_, hdec, fun rest hi => (hturn rest hi).trans (engineStep_of_decode (s := s.setInputs rest) hdec),
      fun hi => (hlast hi).trans (engineStep_of_decode hdec)⟩

/-! ## FORCEMASK (R90) -/

theorem performApplymask_done {s : State} {f g : Grid} (m : BitVec 3) (h : s.cfg.supported = true)
    (hg : readSquare s.modArr s.side = some g) (hf : readSquare s.funArr s.side = some f) :
    performApplymask m s = .done (s.setMod (writeSquare s.modArr (masked f g m))) := by
  have hp : performApplymask m s = withRead (readSquare s.modArr s.side) fun g =>
    withRead (readSquare s.funArr s.side) fun f => .done (s.setMod (writeSquare s.modArr (masked f g m))) :=
    withVersion_of_supported h _
  rw [hp, hg, hf, withRead_some, withRead_some]

theorem performWrfmt_done {s : State} (m : BitVec 3) (h : s.cfg.supported = true) :
    performWrfmt m s = .done (s.setMod (writeFormat s.cfg.ver.toNat s.cfg.ecl m s.modArr)) :=
  withVersion_of_supported h _

theorem performWrver_done {s : State} (h : s.cfg.supported = true) :
    performWrver s = .done (s.setMod (writeVersion s.cfg.ver.toNat s.modArr)) :=
  withVersion_of_supported h _

/-- WRFMT after a command that wrote MOD. -/
theorem exec_wrfmt_stage {s : State} (m : BitVec 3) (arr : Memory Bool) (h : s.cfg.supported = true) :
    exec (.wrfmt m) ((s.setMod arr).ended 0#3) =
      .next ((s.setMod (writeFormat s.cfg.ver.toNat s.cfg.ecl m arr)).ended 0#3) :=
  congrArg complete (performWrfmt_done (s := (s.setMod arr).ended 0#3) m h)

/-- WRVER after a command that wrote MOD. -/
theorem exec_wrver_stage {s : State} (arr : Memory Bool) (h : s.cfg.supported = true) :
    exec .wrver ((s.setMod arr).ended 0#3) = .next ((s.setMod (writeVersion s.cfg.ver.toNat arr)).ended 0#3) :=
  congrArg complete (performWrver_done (s := (s.setMod arr).ended 0#3) h)

/-- Settles O43: MASKSEL writes into MOD what the three commands write with its mask. -/
theorem forcemaskGivesMaskselGrid : Obligations.ForcemaskGivesMaskselGrid := by
  intro s t h herr
  obtain ⟨u, hu, rfl⟩ | ⟨u, e, -, rfl⟩ := (complete_eq_next_iff (performMasksel s) t).1 h
  · obtain ⟨-, hp⟩ | ⟨-, -, hp⟩ | ⟨hv, g, f, hg, hf, hp⟩ := performMasksel_cases s
    · simp [hp] at hu
    · simp [hp] at hu
    · obtain rfl : selected s f g = u := CmdResult.done.inj (hp.symm.trans hu)
      exact ⟨_, _, _, congrArg complete (performApplymask_done _ hv hg hf), exec_wrfmt_stage _ _ hv,
        exec_wrver_stage _ hv, rfl, rfl, rfl, rfl⟩
  · exact absurd herr e.code_ne_zero

/-! ## The format and version words (R96, R97) -/

/-- Settles O38: the BCH checks of R94 and R95 evaluate. -/
theorem formatAndVersionWords : Obligations.FormatAndVersionWords := by
  unfold Obligations.FormatAndVersionWords
  decide

end Sys2Proof.Machine
end

section
/-! PROOFS (40_control.md R110 to R114): a CMD write, the engine's step and the end of every command. -/

namespace Sys2Proof.Machine

/-! ## A CMD write (R110) -/

theorem offerCommand_of_idle {s : State} (w : Word) (h : s.status.busy = false) :
    offerCommand w s = acceptCommand w s := by
  simp [offerCommand, h]

theorem offerCommand_of_busy {s : State} (w : Word) (h : s.status.busy = true) :
    offerCommand w s = s.setStatus ⟨true, s.status.done, s.status.err, true⟩ := by
  simp [offerCommand, Status.dropped, h]

theorem portWrite_cmd (s : State) (v : BitVec 64) : portWrite s 0x0000#16 v = offerCommand (v.setWidth 32) s := by
  simp [portWrite, regionOf_register]

/-- A CMD write is no busy hazard (R286): the word is offered whether BUSY is 0 or 1. -/
theorem step_of_write_cmd {s : State} {w : Word} {rest : List HostEvent}
    (hi : s.inputs = .access (.write 0x0000#16 .four (w.setWidth 64)) :: rest) :
    step s = .next ((offerCommand w (s.setInputs rest)).setReply .ack) := by
  have hw : (w.setWidth 64).setWidth 32 = w := BitVec.setWidth_setWidth_of_le w (by decide)
  rw [step_of_access hi]
  simp [hostAccess, HostAccess.allowedWhileBusy, legalAccess, portWrite_cmd, hw]

/-- Settles O7: the word is offered, and BUSY decides what becomes of it. -/
theorem commandWriteAcceptedOrDropped : Obligations.CommandWriteAcceptedOrDropped := by
  refine fun s w rest hi => ⟨fun hb => ?_, fun hb => ?_⟩ <;> rw [step_of_write_cmd hi]
  · rw [offerCommand_of_idle w (s := s.setInputs rest) hb]
    rfl
  · rw [offerCommand_of_busy w (s := s.setInputs rest) hb]
    rfl

/-! ## The engine's step and the end of a command (R111) -/

/-- The word that is placed stands in PENDCMD, and the engine's turn is next (log 12). -/
theorem step_withFetchWord {s : State} {w : Word} {i : Instr} (h : decode w = .ok i) :
    step (s.withFetchWord 32 w.toNat) = exec i ((s.setPendcmd w).setStatus s.status.accepted) := by
  have hw : BitVec.ofNat 32 (w.toNat % 2 ^ 32) = w := by
    rw [Nat.mod_eq_of_lt w.isLt, BitVec.ofNat_toNat, BitVec.setWidth_eq]
  have hs : s.withFetchWord 32 w.toNat = (acceptCommand w s).setInputs (.engineTurn :: s.inputs) := by
    rw [State.withFetchWord, placeCommand, hw]
  rw [hs]
  exact engineStep_of_decode (s := acceptCommand w s) h

/-- Settles O6: with BUSY = 1 the turn is the engine's step, with BUSY = 0 it is nothing. -/
theorem stepRunsDecodedCommand : Obligations.StepRunsDecodedCommand := by
  refine ⟨fun s i rest hb hd => ⟨fun hi => ?_, fun hi => ?_⟩, fun s rest hb => ⟨fun hi => ?_, fun hi => ?_⟩,
    fun s w i hd => step_withFetchWord hd⟩
  · rw [step_of_no_inputs hi, engineTurn_of_busy hb, engineStep_of_decode hd]
  · rw [step_of_engineTurn hi, engineTurn_of_busy (s := s.setInputs rest) hb,
      engineStep_of_decode (s := s.setInputs rest) hd]
    rfl
  · rw [step_of_engineTurn hi, engineTurn_of_idle (s := s.setInputs rest) hb]
    rfl
  · rw [step_of_no_inputs hi, engineTurn_of_idle hb]

/-- Settles O8: each command's effect is written out, and its end sets BUSY, DONE and ERR. -/
theorem everyCommandEndsDone : Obligations.EveryCommandEndsDone := by
  intro i s t h
  obtain ⟨u, c, hu, hc, rfl⟩ := exec_effect h
  refine ⟨rfl, rfl, hc, ?_⟩
  cases i
  case nop | setcfg | clrstat => cases hu; simp
  case rsenc | place | applymask | wrfmt | wrver => obtain ⟨m, rfl, -⟩ := hu; simp
  case layout => obtain ⟨m, f, rfl, -⟩ := hu; simp
  case score => obtain ⟨n1, n2, n3, n4, total, rfl⟩ := hu; simp
  case masksel => obtain ⟨m, p, k, rfl, -⟩ := hu; simp
  case generate => obtain ⟨cwb, m, f, p, k, rfl, -⟩ := hu; simp

/-- Settles O12: the engine steps, an illegal word ends, and a command that does not end has faulted (R63). -/
theorem acceptedCommandIsOverAfterOneStep : Obligations.AcceptedCommandIsOverAfterOneStep := by
  intro s hb hi
  rw [step_of_no_inputs hi, engineTurn_of_busy hb]
  cases hd : decode s.pendcmd with
  | error x => exact .inl ⟨_, engineStep_of_illegal hd, rfl, rfl⟩
  | ok i =>
    rw [engineStep_of_decode hd]
    obtain ⟨hrefused, hfault⟩ := commandsFaultOnlyOnUnwrittenReads i s
    cases he : exec i s with
    | next t =>
      obtain ⟨hbusy, hdone, -⟩ := everyCommandEndsDone i s t he
      exact .inl ⟨t, rfl, hbusy, hdone⟩
    | fault f => exact .inr (congrArg _ (hfault f he).1)
    | refused x => exact absurd he (hrefused x)

/-- Settles O13: none of the three reads anything, so each is its end. -/
theorem controlCommandsComplete : Obligations.ControlCommandsComplete := fun _ => ⟨rfl, fun _ _ => rfl, rfl⟩

end Sys2Proof.Machine
end

section
/-! PROOFS (42_matrix_builder.md R171): the layout of each version leaves room for its codewords. Its function cells lie
in rectangles whose sizes add up to no more than what the codewords leave of the square. -/

namespace Sys2Proof.Machine

/-- The square of rows and columns within 2 of an alignment centre, but for row and column 6. -/
def alignBlock (p : Nat × Nat) : Finset (Nat × Nat) :=
  (Finset.Icc (p.1 - 2) (p.1 + 2)).erase 6 ×ˢ (Finset.Icc (p.2 - 2) (p.2 + 2)).erase 6

/-- Rectangles of cells that cover the function cells of the layout of version `v`: the corners, what lies of row and of
column 6 between them, the version blocks, the alignment patterns. -/
def functionCover (v size : Nat) : Finset (Nat × Nat) :=
  (Finset.range 9 ×ˢ Finset.range 9 ∪ Finset.range 9 ×ˢ Finset.Ico (size - 8) size ∪
    Finset.Ico (size - 8) size ×ˢ Finset.range 9) ∪
  ({6} ×ˢ Finset.Ico 9 (size - 8) ∪ Finset.Ico 9 (size - 8) ×ˢ {6}) ∪
  (if 7 ≤ v then Finset.range 6 ×ˢ Finset.Ico (size - 11) (size - 8) ∪
    Finset.Ico (size - 11) (size - 8) ×ˢ Finset.range 6 else ∅) ∪
  (alignCentres v).toFinset.biUnion alignBlock

theorem mem_functionCover {v r c : Nat} (hv : 1 ≤ v ∧ v ≤ 40) (hr : r < symbolSize v) (hc : c < symbolSize v)
    (h : (layoutCell v r c).1 = true) : (r, c) ∈ functionCover v (symbolSize v) := by
  have hs := symbolSize_range hv
  rw [layoutCell_fst hv hr hc] at h
  generalize symbolSize v = S at *
  by_cases ha : nearAlign v r c = true ∧ r ≠ 6 ∧ c ≠ 6
  · obtain ⟨ha, hr6, hc6⟩ := ha
    obtain ⟨p, hp, hnear⟩ := List.any_eq_true.1 ha
    have hb : (r, c) ∈ alignBlock p := by
      have := cheb_le_iff.1 (of_decide_eq_true hnear)
      simp only [alignBlock, Finset.mem_product, Finset.mem_erase, Finset.mem_Icc]
      omega
    exact Finset.mem_union_right _ (Finset.mem_biUnion.2 ⟨p, List.mem_toFinset.2 hp, hb⟩)
  · refine Finset.mem_union_left _ ?_
    have h' : inCorner S r c = true ∨ r = 6 ∨ c = 6 ∨ inVersionBlock v S r c = true := by
      simp only [Bool.or_eq_true, decide_eq_true_eq] at h
      tauto
    simp only [inCorner, inVersionBlock, Bool.or_eq_true, Bool.and_eq_true, decide_eq_true_eq] at h'
    split <;> simp only [Finset.mem_union, Finset.mem_product, Finset.mem_range, Finset.mem_Ico, Finset.mem_singleton,
      Finset.notMem_empty, or_false] <;> omega

theorem card_alignBlock_side_le (a : Nat) :
    ((Finset.Icc (a - 2) (a + 2)).erase 6).card ≤ if a = 6 then 4 else 5 := by
  split
  case isTrue h => subst h; decide
  case isFalse h =>
    refine (Finset.card_erase_le).trans ?_
    rw [Nat.card_Icc]
    omega

/-- The cells of an alignment pattern outside row and column 6: 25, or 20 where the pattern lies on one of these. -/
def alignWeight (p : Nat × Nat) : Nat := (if p.1 = 6 then 4 else 5) * (if p.2 = 6 then 4 else 5)

theorem card_biUnion_toFinset_le {α β : Type} [DecidableEq α] [DecidableEq β] (l : List α) (f : α → Finset β) :
    (l.toFinset.biUnion f).card ≤ (l.map fun a => (f a).card).sum := by
  induction l with
  | nil => simp
  | cons a l ih =>
    rw [List.toFinset_cons, Finset.biUnion_insert, List.map_cons, List.sum_cons]
    exact (Finset.card_union_le _ _).trans (Nat.add_le_add_left ih _)

/-- What the rectangles of `functionCover` add up to, those of the alignment patterns counted one by one. -/
def coverCount (v size : Nat) : Nat :=
  225 + 2 * (size - 17) + (if 7 ≤ v then 36 else 0) + ((alignCentres v).map alignWeight).sum

theorem card_functionCover_le {v size : Nat} (hs : 21 ≤ size) :
    (functionCover v size).card ≤ coverCount v size := by
  have halign : ((alignCentres v).toFinset.biUnion alignBlock).card ≤ ((alignCentres v).map alignWeight).sum := by
    refine (card_biUnion_toFinset_le _ _).trans (List.sum_le_sum fun p _ => ?_)
    rw [alignBlock, Finset.card_product]
    exact Nat.mul_le_mul (card_alignBlock_side_le _) (card_alignBlock_side_le _)
  unfold functionCover coverCount
  refine (Finset.card_union_le _ _).trans (add_le_add ?_ halign)
  refine (Finset.card_union_le _ _).trans (add_le_add ?_ ?_)
  · refine (Finset.card_union_le _ _).trans (add_le_add ?_ ?_)
    · refine (Finset.card_union_le _ _).trans (add_le_add (Finset.card_union_le _ _) le_rfl) |>.trans ?_
      simp only [Finset.card_product, Finset.card_range, Nat.card_Ico]
      omega
    · refine (Finset.card_union_le _ _).trans ?_
      simp only [Finset.card_product, Finset.card_singleton, Nat.card_Ico]
      omega
  · split
    · refine (Finset.card_union_le _ _).trans ?_
      simp only [Finset.card_product, Finset.card_range, Nat.card_Ico]
      omega
    · exact le_rfl

/-- R138, R171: outside the rectangles each version has room for its codewords. -/
theorem coverCount_room : ∀ k < 40, 8 * totalCodewords (k + 1) + coverCount (k + 1) (symbolSize (k + 1)) ≤
    symbolSize (k + 1) * symbolSize (k + 1) := by decide

/-- The cells of the square are those outside `U` and at most as many as `U` has. -/
theorem le_dataCellsIn {f : Grid} {size : Nat} {U : Finset (Nat × Nat)}
    (h : ∀ r c, r < size → c < size → f.cell r c = true → (r, c) ∈ U) :
    size * size ≤ dataCellsIn f (squareCells size) + U.card := by
  have hsq : squareCells size = List.range size ×ˢ List.range size := rfl
  have hfun : ((squareCells size).filter fun p => f.cell p.1 p.2).length ≤ U.card := by
    have hnodup : (squareCells size).Nodup := hsq ▸ List.nodup_range.product List.nodup_range
    rw [← List.toFinset_card_of_nodup (hnodup.filter _)]
    refine Finset.card_le_card fun ⟨r, c⟩ hp => ?_
    simp only [hsq, List.mem_toFinset, List.mem_filter, List.mem_product, List.mem_range] at hp
    exact h r c hp.1.1 hp.1.2 hp.2
  have hlen : (squareCells size).length = size * size := by
    rw [hsq, List.length_product, List.length_range]
  have hsplit := List.length_eq_countP_add_countP (fun p : Nat × Nat => f.cell p.1 p.2) (l := squareCells size)
  rw [← List.countP_eq_length_filter] at hfun
  simp only [dataCellsIn, Bool.not_eq_true, Bool.decide_eq_false] at hsplit ⊢
  omega

/-- R171, R253: the layout of each version leaves room for its codewords, so the capacity check of PLACE passes. -/
theorem functionMap_room {v : Nat} (hv : 1 ≤ v ∧ v ≤ 40) : 8 * totalCodewords v ≤ freeCells (functionMap v) := by
  have hsq := functionMap_isSquare v
  have hcells : symbolSize v * symbolSize v ≤
      dataCellsIn (functionMap v) (squareCells (symbolSize v)) + (functionCover v (symbolSize v)).card :=
    le_dataCellsIn fun r c hr hc h => mem_functionCover hv hr hc (by rwa [functionMap_cell hr hc] at h)
  have hcover := card_functionCover_le (v := v) (symbolSize_range hv).1
  have hroom := coverCount_room (v - 1) (by omega)
  rw [Nat.sub_add_cancel hv.1] at hroom
  rw [freeCells_eq_dataCellsIn hsq]
  omega

/-- T(V) is the same for the four levels (R138). -/
theorem totalCount_blockTab (v : Nat) (e : EcLevel) : (blockTab v e).totalCount = totalCodewords v := by
  have hrows : (blockRows e).map BlockRow.totalCount = (blockRows .L).map BlockRow.totalCount := by
    cases e <;> decide
  have htab (e : EcLevel) : (blockTab v e).totalCount =
      ((blockRows e).map BlockRow.totalCount).getD (v - 1) (BlockRow.totalCount ⟨0, 0, 0, 0, 0⟩) := by
    rw [List.getD_map, blockTab]
  rw [totalCodewords, htab e, htab .L, hrows]

end Sys2Proof.Machine
end

section
/-! PROOFS (40_control.md R115): GENERATE ends with the version error, faults on DIN, or leaves one state, which is
written out; its statements are read off that state. -/

namespace Sys2Proof.Machine

/-! ## GENERATE: which way it ends (R115) -/

/-- What GENERATE leaves, its STATUS still to be set: the codewords of `data`, the layout, and the choice of MASKSEL over
the grid `g` of the first three stages. -/
def generated (s : State) (data : List Byte) (g : Grid) : State :=
  { s with
    cwb := Memory.overlay (Memory.ofList 0 (codewordSeq s.block data)) s.cwb
    modArr := selectedMod s.cfg.ver.toNat s.cfg.ecl (functionMap s.cfg.ver.toNat) g (placedLayout s data)
    funArr := layoutFun s.cfg.ver.toNat
    maskid := chosenMask s.side (functionMap s.cfg.ver.toNat) g
    pen := penRegs (candidatePenalties s.side (functionMap s.cfg.ver.toNat) g) }

theorem selected_beforeMasksel (s : State) (data : List Byte) (g : Grid) :
    selected (beforeMasksel s data) (functionMap s.cfg.ver.toNat) g = generated s data g := by cases s; rfl

/-- With a supported version, GENERATE needs nothing but DIN: its stages never end with an error. -/
theorem performGenerate_eq_generated {s : State} {data : List Byte} (hv : s.cfg.supported = true)
    (hl : data.length = s.dataCount) (hd : holdsList s.din data) :
    ∃ g, readSquare (placedLayout s data) s.side = some g ∧ performGenerate s = .done (generated s data g) := by
  obtain ⟨g, hg, hdone⟩ :=
    performGenerate_done hv hl hd (totalCount_blockTab _ _) (functionMap_room (supported_range hv))
  exact ⟨g, hg, hdone.trans (congrArg _ (selected_beforeMasksel s data g))⟩

theorem performGenerate_eq_unsupported {s : State} (hv : s.cfg.supported = false) :
    performGenerate s = .error s .unsupportedVersion := withVersion_of_unsupported hv _

/-- What is read of a buffer from its first element on is what it holds. -/
theorem holdsList_of_readSpan {α : Type} {m : Memory α} {n : Nat} {vs : List α}
    (h : Memory.readSpan m 0 n = some vs) : vs.length = n ∧ holdsList m vs := by
  obtain ⟨hl, hread⟩ := (Memory.readSpan_eq_some_iff m 0 n vs).1 h
  exact ⟨hl, fun k hk => by simpa using hread k (by omega)⟩

/-- GENERATE ends with the version error, or with the symbol of the data in DIN. -/
theorem exec_generate_cases {s t : State} (h : exec .generate s = .next t) :
    (s.cfg.supported = false ∧ t = s.ended 1#3) ∨
    (s.cfg.supported = true ∧ ∃ data g, data.length = s.dataCount ∧ holdsList s.din data ∧
      readSquare (placedLayout s data) s.side = some g ∧ t = (generated s data g).ended 0#3) := by
  replace h : complete (performGenerate s) = .next t := h
  cases hv : s.cfg.supported with
  | false =>
    rw [performGenerate_eq_unsupported hv] at h
    exact .inl ⟨rfl, (Host.Outcome.next.inj h).symm⟩
  | true =>
    cases hspan : Memory.readSpan s.din 0 s.dataCount with
    | none =>
      rw [performGenerate_of_unwritten hv hspan] at h
      cases h
    | some data =>
      obtain ⟨hl, hd⟩ := holdsList_of_readSpan hspan
      obtain ⟨g, hg, hdone⟩ := performGenerate_eq_generated hv hl hd
      rw [hdone] at h
      exact .inr ⟨rfl, data, g, hl, hd, hg, (Host.Outcome.next.inj h).symm⟩

/-! ## What GENERATE leaves in CWB and MOD -/

theorem Memory.read_overlay_ne_none {α : Type} {m : Memory α} {k : Nat} (a : Memory α)
    (h : Memory.read m k ≠ none) : Memory.read (Memory.overlay a m) k ≠ none := by
  rw [Memory.read_overlay]
  simp [h]

theorem Memory.read_writeAll_ne_none {α : Type} {m : Memory α} {k : Nat} (ws : List (Nat × α))
    (h : Memory.read m k ≠ none) : Memory.read (Memory.writeAll m ws) k ≠ none := by
  induction ws generalizing m with
  | nil => exact h
  | cons w ws ih => exact ih (Memory.read_overlay_ne_none _ h)

/-- MASKSEL leaves written every cell that is (R221). -/
theorem selectedMod_ne_none {arr : Memory Bool} {k : Nat} (v : Nat) (e : EcLevel) (f g : Grid)
    (h : Memory.read arr k ≠ none) : Memory.read (selectedMod v e f g arr) k ≠ none := by
  have hfmt := Memory.read_writeAll_ne_none (fmtWrites (symbolSize v) (fmtWord e (chosenMask (symbolSize v) f g)))
    (Memory.read_overlay_ne_none (rowCells 0 (masked f g (chosenMask (symbolSize v) f g))) h)
  unfold selectedMod writeVersion
  split
  · exact Memory.read_writeAll_ne_none _ hfmt
  · exact hfmt

theorem codewordSeq_length_total {s : State} {data : List Byte} (hl : data.length = s.dataCount) :
    (codewordSeq s.block data).length = s.total :=
  (codewordSeq_length (blockTab_bounds _ _).1 hl).trans (totalCount_blockTab _ _)

section
variable {s : State} {data : List Byte} {k : Nat} (hl : data.length = s.dataCount) (g : Grid)
include hl

theorem read_generated_cwb_lt (hk : k < s.total) :
    Memory.read (generated s data g).cwb k = (codewordSeq s.block data)[k]? :=
  holdsList_ofList _ s.cwb k (by rwa [codewordSeq_length_total hl])

theorem read_generated_cwb_ge (hk : s.total ≤ k) :
    Memory.read (generated s data g).cwb k = Memory.read s.cwb k := by
  have hnone : (codewordSeq s.block data)[k]? = none :=
    List.getElem?_eq_none (by rwa [codewordSeq_length_total hl])
  rw [generated, Memory.read_overlay, Memory.read_ofList, if_pos (Nat.zero_le k), Nat.sub_zero, hnone, Option.none_or]

end

/-- Settles O45: the layout has room, so that the four stages end; MOD is whole from LAYOUT on. -/
theorem generateCompletes : Obligations.GenerateCompletes := by
  intro s data hv hl hd
  obtain ⟨g, -, hdone⟩ := performGenerate_eq_generated hv hl hd
  exact ⟨_, _, _, _, congrArg complete hdone, fun k hk => read_generated_cwb_lt hl g hk,
    fun k hk => read_generated_cwb_ge hl g hk,
    fun r c hr hc => selectedMod_ne_none _ _ _ _ (placedLayout_written s data hr hc)⟩

/-! ## GENERATE twice, and GENERATE in two states -/

theorem Memory.overlay_overlay_self {α : Type} {bound : Nat} {a m : Memory α} (ha : Memory.wf bound a = true)
    (hm : Memory.wf bound m = true) : Memory.overlay a (Memory.overlay a m) = Memory.overlay a m := by
  refine Memory.wf_ext (Memory.wf_overlay ha (Memory.wf_overlay ha hm)) (Memory.wf_overlay ha hm) fun k => ?_
  rw [Memory.read_overlay, Memory.read_overlay, ← Option.or_assoc, Option.or_self]

/-- Settles O46: the second time the codewords are written over themselves, and all else is made anew from CFG and
DIN. -/
theorem generateIsIdempotent : Obligations.GenerateIsIdempotent := by
  intro s t hwf h
  obtain ⟨hv, rfl⟩ | ⟨hv, data, g, hl, hd, hg, rfl⟩ := exec_generate_cases h
  · exact congrArg complete (performGenerate_eq_unsupported (s := s.ended 1#3) hv)
  · obtain ⟨g', hg', hdone⟩ := performGenerate_eq_generated (s := (generated s data g).ended 0#3) hv hl hd
    obtain rfl : g = g' := Option.some.inj (hg.symm.trans hg')
    have hseq : Memory.wf Config.cwbBytes (Memory.ofList 0 (codewordSeq s.block data)) = true := by
      refine Memory.wf_ofList ?_
      rw [codewordSeq_length_total hl]
      exact (blockTab_bounds _ _).2.2
    have hcwb := Memory.overlay_overlay_self hseq (memWf_iff.1 hwf).2.1
    calc exec .generate ((generated s data g).ended 0#3)
      _ = .next ((generated ((generated s data g).ended 0#3) data g).ended 0#3) := congrArg complete hdone
      _ = .next (((generated s data g).ended 0#3).setCwb (Memory.overlay (Memory.ofList 0 (codewordSeq s.block data))
            (Memory.overlay (Memory.ofList 0 (codewordSeq s.block data)) s.cwb))) := by cases s; rfl
      _ = .next ((generated s data g).ended 0#3) := by rw [hcwb]; rfl

theorem placedLayout_congr {s s' : State} (h : s.cfg = s'.cfg) (data : List Byte) :
    placedLayout s data = placedLayout s' data := by
  simp only [placedLayout, State.side, State.total, State.block, h]

/-- Settles O47: both states get the symbol of the same data under the same CFG. -/
theorem generateReadsOnlyCfgAndDin : Obligations.GenerateReadsOnlyCfgAndDin := by
  intro s s' t t' hcfg hv hdin h h'
  obtain ⟨hv', -⟩ | ⟨-, data, g, hl, hd, hg, rfl⟩ := exec_generate_cases h
  · simp [hv] at hv'
  · have hl' : data.length = s'.dataCount := by rw [hl]; simp only [State.dataCount, hcfg]
    have hd' : holdsList s'.din data := fun k hk => (hdin k (hl ▸ hk)).symm.trans (hd k hk)
    obtain ⟨g', hg', hdone⟩ := performGenerate_eq_generated (hcfg ▸ hv) hl' hd'
    have hside : s.side = s'.side := by simp only [State.side, hcfg]
    obtain rfl : g = g' := by
      rw [placedLayout_congr hcfg, hside] at hg
      exact Option.some.inj (hg.symm.trans hg')
    obtain rfl : (generated s' data g).ended 0#3 = t' := Host.Outcome.next.inj ((congrArg complete hdone).symm.trans h')
    have hblock : s.block = s'.block := by simp only [State.block, hcfg]
    have htotal : s.total = s'.total := by simp only [State.total, hcfg]
    refine ⟨?_, ?_, ?_, ?_, rfl, fun k hk => ?_⟩
    · simp [generated, hcfg, placedLayout_congr hcfg]
    · simp [generated, hcfg]
    · simp [generated, hcfg, hside]
    · simp [generated, hcfg, hside]
    · calc Memory.read (generated s data g).cwb k
        _ = (codewordSeq s.block data)[k]? := read_generated_cwb_lt hl g hk
        _ = Memory.read (generated s' data g).cwb k := by
          rw [hblock, read_generated_cwb_lt hl' g (htotal ▸ hk)]

/-! ## GENERATE as its four stages (R115) -/

section
variable {s : State} {data : List Byte} (hv : s.cfg.supported = true)
include hv

/-- LAYOUT after RSENC. -/
theorem exec_layout_stage (cwb : Memory Byte) : exec .layout ((s.setCwb cwb).ended 0#3) =
    .next ((((s.setCwb cwb).setMod (layoutMod s.cfg.ver.toNat)).setFun (layoutFun s.cfg.ver.toNat)).ended 0#3) :=
  congrArg complete (performLayout_done (s := (s.setCwb cwb).ended 0#3) hv)

/-- PLACE after LAYOUT: its capacity check passes. -/
theorem exec_place_stage {cwb : Memory Byte} (hl : data.length = s.dataCount)
    (hcwb : cwb = Memory.overlay (Memory.ofList 0 (codewordSeq s.block data)) s.cwb) : exec .place
      ((((s.setCwb cwb).setMod (layoutMod s.cfg.ver.toNat)).setFun (layoutFun s.cfg.ver.toNat)).ended 0#3) =
    .next ((beforeMasksel s data).ended 0#3) := by
  have hdone := performPlace_stage (s := s.ended 0#3) (lm := layoutMod s.cfg.ver.toNat) hv
    (readSquare_layoutFun (side_range hv).2) (functionMap_room (supported_range hv)) (codewordSeq_length_total hl)
    (hcwb ▸ holdsList_ofList _ s.cwb)
  rw [beforeMasksel, placedLayout, ← hcwb]
  exact congrArg complete hdone

/-- MASKSEL after PLACE. -/
theorem exec_masksel_stage {g : Grid} (hg : readSquare (placedLayout s data) s.side = some g) :
    exec .masksel ((beforeMasksel s data).ended 0#3) = .next ((generated s data g).ended 0#3) := by
  have hdone : performMasksel ((beforeMasksel s data).ended 0#3) = _ :=
    performMasksel_done (by simpa [beforeMasksel] using hv) (by simpa [beforeMasksel] using hg)
      (by simpa [beforeMasksel, State.side] using readSquare_layoutFun (side_range hv).2)
  calc exec .masksel ((beforeMasksel s data).ended 0#3)
    _ = .next ((selected ((beforeMasksel s data).ended 0#3) (functionMap s.cfg.ver.toNat) g).ended 0#3) :=
      congrArg complete hdone
    _ = .next ((generated s data g).ended 0#3) := by cases s; rfl

end

/-- Settles O44: RSENC without an error has read the data, and then each stage's next state is determined; that of
MASKSEL is what GENERATE leaves. -/
theorem generateIsTheFourStages : Obligations.GenerateIsTheFourStages := by
  intro s a b c ha herr hb hc _
  replace ha : complete (performRsenc s) = .next a := ha
  obtain ⟨-, hp⟩ | ⟨-, -, hp⟩ | ⟨hv, data, hspan, hp⟩ := performRsenc_cases s <;> rw [hp] at ha <;> cases ha
  · cases herr
  · obtain ⟨hl, hd⟩ := holdsList_of_readSpan hspan
    obtain ⟨g, hg, hdone⟩ := performGenerate_eq_generated hv hl hd
    obtain rfl := Host.Outcome.next.inj ((exec_layout_stage hv _).symm.trans hb)
    obtain rfl := Host.Outcome.next.inj ((exec_place_stage hv hl rfl).symm.trans hc)
    exact (congrArg complete hdone).trans (exec_masksel_stage hv hg).symm

end Sys2Proof.Machine
end

section
/-! PROOFS (41_rs_encoder.md R130 to R133): the tables EXP and LOG, and the laws of multiplication in GF(256). -/

namespace Sys2Proof.Machine

/-! ## The tables EXP and LOG (R131, R132) -/

theorem gfLog_gfExp : ∀ i < 255, gfLog (gfExp i) = i := by decide +kernel

theorem gfExp_gfLog : ∀ a : Byte, a ≠ 0#8 → gfLog a < 255 ∧ gfExp (gfLog a) = a := by decide +kernel

theorem gfExp_ne_zero : ∀ i < 255, gfExp i ≠ 0#8 := by decide +kernel

theorem gfExp_succ_toNat : ∀ i < 254, (gfExp (i + 1)).toNat =
    if 2 * (gfExp i).toNat ≥ 256 then (2 * (gfExp i).toNat) ^^^ 0x11D else 2 * (gfExp i).toNat := by
  decide +kernel

/-- Settles O18: the entries are compared one by one; LOG[a] is unique because LOG undoes EXP. -/
theorem expAndLogTables : Obligations.ExpAndLogTables := by
  refine ⟨rfl, rfl, gfExp_succ_toNat, fun a ha => ?_⟩
  obtain ⟨hlt, hexp⟩ := gfExp_gfLog a ha
  exact ⟨hlt, hexp, fun i hi h => by rw [← h, gfLog_gfExp i hi]⟩

/-! ## Multiplication by logarithms (R133) -/

/-- Every element but zero is one of the 255 powers of alpha. -/
theorem gf_eq_zero_or_gfExp (a : Byte) : a = 0#8 ∨ ∃ i < 255, a = gfExp i := by
  by_cases ha : a = 0#8
  · exact .inl ha
  · obtain ⟨hlt, hexp⟩ := gfExp_gfLog a ha
    exact .inr ⟨gfLog a, hlt, hexp.symm⟩

@[simp] theorem gfMul_zero (a : Byte) : gfMul a 0#8 = 0#8 := by simp [gfMul]

@[simp] theorem zero_gfMul (a : Byte) : gfMul 0#8 a = 0#8 := by simp [gfMul]

/-- Powers of alpha are multiplied by adding their exponents. -/
theorem gfMul_gfExp_gfExp {i j : Nat} (hi : i < 255) (hj : j < 255) :
    gfMul (gfExp i) (gfExp j) = gfExp ((i + j) % 255) := by
  simp [gfMul, gfExp_ne_zero, gfLog_gfExp, hi, hj]

theorem gfMul_comm (a b : Byte) : gfMul a b = gfMul b a := by
  simp only [gfMul, or_comm, Nat.add_comm]

theorem gfMul_assoc (a b c : Byte) : gfMul (gfMul a b) c = gfMul a (gfMul b c) := by
  obtain rfl | ⟨i, hi, rfl⟩ := gf_eq_zero_or_gfExp a
  · simp
  obtain rfl | ⟨j, hj, rfl⟩ := gf_eq_zero_or_gfExp b
  · simp
  obtain rfl | ⟨k, hk, rfl⟩ := gf_eq_zero_or_gfExp c
  · simp
  have hmod (n : Nat) : n % 255 < 255 := Nat.mod_lt n (by decide)
  rw [gfMul_gfExp_gfExp hi hj, gfMul_gfExp_gfExp hj hk, gfMul_gfExp_gfExp (hmod _) hk,
    gfMul_gfExp_gfExp hi (hmod _), Nat.mod_add_mod, Nat.add_mod_mod, Nat.add_assoc]

theorem one_gfMul (a : Byte) : gfMul 1#8 a = a := by
  obtain rfl | ⟨i, hi, rfl⟩ := gf_eq_zero_or_gfExp a
  · simp
  · have h : gfMul (gfExp 0) (gfExp i) = gfExp ((0 + i) % 255) := gfMul_gfExp_gfExp (by decide) hi
    rwa [Nat.zero_add, Nat.mod_eq_of_lt hi] at h

/-! ## Multiplication distributes over addition (R133)

Doubling is a shift and a reduction, which is linear bit by bit; multiplication by alpha^i is doubling i times. -/

/-- Doubling: a shift, reduced by 0x11D where a bit falls out (R131). -/
def gfDouble (a : Byte) : Byte := a <<< 1 ^^^ if a.msb then 0x1D#8 else 0#8

theorem gfMul_two : ∀ a : Byte, gfMul 2#8 a = gfDouble a := by decide +kernel

theorem gfDouble_gfAdd (a b : Byte) : gfDouble (gfAdd a b) = gfAdd (gfDouble a) (gfDouble b) := by
  have hred (p q : Bool) : (if p ^^ q then 0x1D#8 else 0#8) =
      (if p then 0x1D#8 else 0#8) ^^^ if q then 0x1D#8 else 0#8 := by revert p q; decide
  unfold gfDouble gfAdd
  rw [BitVec.shiftLeft_xor_distrib, BitVec.msb_xor, hred]
  ac_rfl

/-- The next power of alpha, as a factor, doubles the product. -/
theorem gfExp_succ_gfMul {i : Nat} (hi : i + 1 < 255) (a : Byte) :
    gfMul (gfExp (i + 1)) a = gfDouble (gfMul (gfExp i) a) := by
  have h : gfMul (gfExp 1) (gfExp i) = gfExp ((1 + i) % 255) := gfMul_gfExp_gfExp (by decide) (by omega)
  rw [Nat.mod_eq_of_lt (by omega), Nat.add_comm] at h
  rw [← h, gfMul_assoc]
  exact gfMul_two _

theorem gfMul_gfAdd (a b c : Byte) : gfMul a (gfAdd b c) = gfAdd (gfMul a b) (gfMul a c) := by
  obtain rfl | ⟨i, hi, rfl⟩ := gf_eq_zero_or_gfExp a
  · simp [gfAdd]
  induction i with
  | zero => exact (one_gfMul _).trans (congrArg₂ gfAdd (one_gfMul b) (one_gfMul c)).symm
  | succ i ih =>
    rw [gfExp_succ_gfMul hi, gfExp_succ_gfMul hi, gfExp_succ_gfMul hi, ih (by omega), gfDouble_gfAdd]

/-- Settles O19: all products are sums of exponents; distributivity is by repeated doubling. -/
theorem gfMultiplicationLaws : Obligations.GfMultiplicationLaws :=
  ⟨fun _ _ => rfl, gfMul_comm, gfMul_assoc, gfMul_gfAdd, one_gfMul⟩

end Sys2Proof.Machine
end

section
/-! PROOFS (41_rs_encoder.md R134, R136): RS_EC is linear, and gives the remainder of the block by the generator
polynomial. -/

namespace Sys2Proof.Machine

/-! ## Addition (R130), one codeword at a time and in lists -/

@[simp] theorem gfAdd_self (a : Byte) : gfAdd a a = 0#8 := BitVec.xor_self

@[simp] theorem gfAdd_zero (a : Byte) : gfAdd a 0#8 = a := BitVec.xor_zero

@[simp] theorem zero_gfAdd (a : Byte) : gfAdd 0#8 a = a := BitVec.zero_xor

theorem gfAdd_comm (a b : Byte) : gfAdd a b = gfAdd b a := BitVec.xor_comm a b

theorem gfAdd_assoc (a b c : Byte) : gfAdd (gfAdd a b) c = gfAdd a (gfAdd b c) := BitVec.xor_assoc a b c

theorem gfAdd_gfAdd_gfAdd_comm (a b c d : Byte) :
    gfAdd (gfAdd a b) (gfAdd c d) = gfAdd (gfAdd a c) (gfAdd b d) := by
  unfold gfAdd
  ac_rfl

theorem gfAdd_gfMul (a b c : Byte) : gfMul (gfAdd a b) c = gfAdd (gfMul a c) (gfMul b c) := by
  rw [gfMul_comm, gfMul_gfAdd, gfMul_comm c a, gfMul_comm c b]

theorem zipWith_gfAdd_self (p : List Byte) : List.zipWith gfAdd p p = List.replicate p.length 0#8 := by
  induction p with
  | nil => rfl
  | cons a p ih => rw [List.zipWith_cons_cons, ih, gfAdd_self]; rfl

theorem zipWith_gfAdd_zipWith_gfAdd_comm : ∀ p q u v : List Byte,
    List.zipWith gfAdd (List.zipWith gfAdd p q) (List.zipWith gfAdd u v) =
      List.zipWith gfAdd (List.zipWith gfAdd p u) (List.zipWith gfAdd q v)
  | a :: p, b :: q, c :: u, d :: v =>
    congrArg₂ List.cons (gfAdd_gfAdd_gfAdd_comm a b c d) (zipWith_gfAdd_zipWith_gfAdd_comm p q u v)
  | [], _, _, _ | _, [], _, _ | _, _, [], _ | _, _, _, [] => by simp

theorem map_gfMul_gfAdd (g : List Byte) (a b : Byte) : g.map (fun c => gfMul c (gfAdd a b)) =
    List.zipWith gfAdd (g.map fun c => gfMul c a) (g.map fun c => gfMul c b) := by
  induction g with
  | nil => rfl
  | cons c g ih => rw [List.map_cons, ih, gfMul_gfAdd]; rfl

/-! ## RS_EC is linear (R136) -/

theorem rsEc_length (d : List Byte) (n : Nat) : (rsEc d n).length = n := by
  have hg : (genPoly n).tail.length = n := by simp [genPoly_length]
  rw [rsEc, rsFold_length _ _ (by simp [hg]), hg]

/-- A step shifts the register and adds the coefficients times the feedback. -/
theorem rsStep_eq (g r : List Byte) (d : Byte) : rsStep g r d =
    List.zipWith gfAdd (r.tail ++ [0#8]) (g.map fun c => gfMul c (gfAdd d (r.headD 0#8))) :=
  List.zipWith_map_right.symm

theorem rsStep_gfAdd (g : List Byte) {r r' : List Byte} (a b : Byte) (h : r.length = r'.length) :
    rsStep g (List.zipWith gfAdd r r') (gfAdd a b) = List.zipWith gfAdd (rsStep g r a) (rsStep g r' b) := by
  have hhead : (List.zipWith gfAdd r r').headD 0#8 = gfAdd (r.headD 0#8) (r'.headD 0#8) :=
    match r, r', h with
    | [], [], _ => rfl
    | _ :: _, _ :: _, _ => rfl
  have htail : (List.zipWith gfAdd r r').tail ++ [0#8] =
      List.zipWith gfAdd (r.tail ++ [0#8]) (r'.tail ++ [0#8]) := by
    rw [List.zipWith_append (by simp [h]), List.tail_zipWith]
    rfl
  rw [rsStep_eq, rsStep_eq, rsStep_eq, hhead, htail, gfAdd_gfAdd_gfAdd_comm, map_gfMul_gfAdd,
    zipWith_gfAdd_zipWith_gfAdd_comm]

theorem rsFold_gfAdd {g a b r r' : List Byte} (h : a.length = b.length) (hr : r.length = g.length)
    (hr' : r'.length = g.length) : (List.zipWith gfAdd a b).foldl (rsStep g) (List.zipWith gfAdd r r') =
      List.zipWith gfAdd (a.foldl (rsStep g) r) (b.foldl (rsStep g) r') := by
  induction a generalizing b r r' with
  | nil => rw [List.eq_nil_of_length_eq_zero h.symm]; rfl
  | cons x a ih =>
    cases b with
    | nil => cases h
    | cons y b =>
      rw [List.zipWith_cons_cons, List.foldl_cons, rsStep_gfAdd g x y (hr.trans hr'.symm)]
      exact ih (Nat.succ.inj h) (rsStep_length x hr) (rsStep_length y hr')

theorem rsEc_gfAdd {a b : List Byte} (n : Nat) (h : a.length = b.length) :
    rsEc (List.zipWith gfAdd a b) n = List.zipWith gfAdd (rsEc a n) (rsEc b n) := by
  have hz : List.replicate n 0#8 = List.zipWith gfAdd (List.replicate n 0#8) (List.replicate n 0#8) := by simp
  rw [rsEc, hz]
  exact rsFold_gfAdd h (by simp [genPoly_length]) (by simp [genPoly_length])

/-- Settles O20: a zero block is the sum of itself and itself, and so are its EC codewords. -/
theorem rsEcLinear : Obligations.RsEcLinear := by
  refine ⟨rsEc_length, fun a b n h => rsEc_gfAdd n h, fun k n => ?_⟩
  have h := rsEc_gfAdd n (rfl : (List.replicate k 0#8).length = _)
  rwa [zipWith_gfAdd_self, zipWith_gfAdd_self, List.length_replicate, rsEc_length] at h

/-! ## The value of a polynomial (R136) -/

/-- `gfEval` from a value reached before: Horner's rule on the coefficients still to come. -/
def gfEvalFrom (x acc : Byte) (p : List Byte) : Byte := p.foldl (fun acc c => gfAdd (gfMul acc x) c) acc

theorem gfEval_eq (p : List Byte) (x : Byte) : gfEval p x = gfEvalFrom x 0#8 p := rfl

theorem gfEvalFrom_cons (x acc c : Byte) (p : List Byte) :
    gfEvalFrom x acc (c :: p) = gfEvalFrom x (gfAdd (gfMul acc x) c) p := rfl

theorem gfEval_append (p q : List Byte) (x : Byte) : gfEval (p ++ q) x = gfEvalFrom x (gfEval p x) q :=
  List.foldl_append

theorem gfEval_concat_zero (p : List Byte) (x : Byte) : gfEval (p ++ [0#8]) x = gfMul (gfEval p x) x := by
  rw [gfEval_append]
  exact gfAdd_zero _

theorem gfEval_replicate_zero (n : Nat) (x : Byte) : gfEval (List.replicate n 0#8) x = 0#8 := by
  induction n with
  | zero => rfl
  | succ n ih => rw [List.replicate_succ', gfEval_concat_zero, ih, zero_gfMul]

theorem gfEvalFrom_gfAdd {p q : List Byte} (x a b : Byte) (h : p.length = q.length) :
    gfEvalFrom x (gfAdd a b) (List.zipWith gfAdd p q) = gfAdd (gfEvalFrom x a p) (gfEvalFrom x b q) := by
  induction p generalizing q a b with
  | nil => rw [List.eq_nil_of_length_eq_zero h.symm]; rfl
  | cons c p ih =>
    cases q with
    | nil => cases h
    | cons d q =>
      rw [List.zipWith_cons_cons, gfEvalFrom_cons, gfAdd_gfMul, gfAdd_gfAdd_gfAdd_comm]
      exact ih _ _ (Nat.succ.inj h)

theorem gfEvalFrom_map_gfMul (p : List Byte) (x a f : Byte) :
    gfEvalFrom x (gfMul a f) (p.map fun c => gfMul c f) = gfMul (gfEvalFrom x a p) f := by
  induction p generalizing a with
  | nil => rfl
  | cons c p ih =>
    rw [List.map_cons, gfEvalFrom_cons, gfMul_assoc, gfMul_comm f x, ← gfMul_assoc, ← gfAdd_gfMul]
    exact ih _

/-! ## The roots of the generator polynomial (R134) -/

/-- G(x) times (x + root), as a value. -/
theorem gfEval_mulLinear (root x : Byte) (g : List Byte) :
    gfEval (mulLinear root g) x = gfAdd (gfMul (gfEval g x) x) (gfMul (gfEval g x) root) := by
  have hlen : (g ++ [0#8]).length = (0#8 :: g.map fun a => gfMul a root).length := by simp
  have hmap : gfEvalFrom x 0#8 (0#8 :: g.map fun a => gfMul a root) = gfMul (gfEval g x) root := by
    rw [gfEvalFrom_cons, gfEval_eq, ← gfEvalFrom_map_gfMul]
    simp
  calc gfEval (mulLinear root g) x
    _ = gfEvalFrom x (gfAdd 0#8 0#8) (List.zipWith gfAdd (g ++ [0#8]) (0#8 :: g.map fun a => gfMul a root)) := rfl
    _ = gfAdd (gfEval (g ++ [0#8]) x) (gfMul (gfEval g x) root) := by rw [gfEvalFrom_gfAdd x _ _ hlen, hmap]; rfl
    _ = gfAdd (gfMul (gfEval g x) x) (gfMul (gfEval g x) root) := by rw [gfEval_concat_zero]

theorem gfEval_genPoly_root {n i : Nat} (hi : i < n) : gfEval (genPoly n) (gfExp i) = 0#8 := by
  induction n with
  | zero => cases hi
  | succ n ih =>
    rw [genPoly, gfEval_mulLinear]
    obtain hin | rfl := Nat.lt_succ_iff_lt_or_eq.1 hi
    · simp [ih hin]
    · exact gfAdd_self _

theorem mulLinear_head {root : Byte} {g : List Byte} (h : ∃ t, g = 1#8 :: t) :
    ∃ t, mulLinear root g = 1#8 :: t := by
  obtain ⟨t, rfl⟩ := h
  exact ⟨_, rfl⟩

theorem genPoly_eq_cons (n : Nat) : genPoly n = 1#8 :: (genPoly n).tail := by
  have h : ∃ t, genPoly n = 1#8 :: t := by
    induction n with
    | zero => exact ⟨[], rfl⟩
    | succ n ih => exact mulLinear_head ih
  obtain ⟨t, h⟩ := h
  rw [h]
  rfl

/-! ## A block and its remainder vanish at the roots (R136) -/

/-- What a step makes of the block so far and the register is what was there, shifted, and a multiple of the generator
polynomial: so a root of both is a root of it. -/
theorem gfEval_rsStep {x : Byte} {g p r : List Byte} (d : Byte) (hroot : gfEval (1#8 :: g) x = 0#8)
    (hr : r.length = g.length) (hne : 0 < g.length) (hp : gfEval (p ++ r) x = 0#8) :
    gfEval (p ++ [d] ++ rsStep g r d) x = 0#8 := by
  obtain ⟨r0, r, rfl⟩ := List.exists_cons_of_length_pos (hr ▸ hne)
  obtain ⟨f, hf⟩ : ∃ f, gfAdd d r0 = f := ⟨_, rfl⟩
  have hd : d = gfAdd r0 (gfMul 1#8 f) := by
    rw [one_gfMul, ← hf, gfAdd_comm d, ← gfAdd_assoc, gfAdd_self, zero_gfAdd]
  have hstep : d :: rsStep g (r0 :: r) d =
      List.zipWith gfAdd (r0 :: r ++ [0#8]) ((1#8 :: g).map fun c => gfMul c f) := by
    rw [rsStep_eq, List.headD_cons, hf]
    exact congrArg (· :: _) hd
  calc gfEval (p ++ [d] ++ rsStep g (r0 :: r) d) x
    _ = gfEvalFrom x (gfAdd (gfEval p x) (gfMul 0#8 f)) (d :: rsStep g (r0 :: r) d) := by
      rw [List.append_assoc, List.singleton_append, gfEval_append, zero_gfMul, gfAdd_zero]
    _ = gfAdd (gfEval (p ++ (r0 :: r) ++ [0#8]) x) (gfMul (gfEval (1#8 :: g) x) f) := by
      rw [hstep, gfEvalFrom_gfAdd _ _ _ (by simpa using hr), gfEvalFrom_map_gfMul, List.append_assoc, gfEval_append]
      rfl
    _ = 0#8 := by rw [gfEval_concat_zero, hp, hroot]; simp

theorem gfEval_rsFold {x : Byte} {g : List Byte} (hroot : gfEval (1#8 :: g) x = 0#8) (hne : 0 < g.length)
    (d p r : List Byte) (hr : r.length = g.length) (hp : gfEval (p ++ r) x = 0#8) :
    gfEval (p ++ d ++ d.foldl (rsStep g) r) x = 0#8 := by
  induction d generalizing p r with
  | nil => simpa using hp
  | cons a d ih =>
    have := ih (p ++ [a]) _ (rsStep_length a hr) (gfEval_rsStep a hroot hr hne hp)
    simpa using this

/-- Settles O21: the register starts at zero, and every codeword that enters it keeps the roots. -/
theorem codeBlockVanishesAtRoots : Obligations.CodeBlockVanishesAtRoots := by
  intro d n i _ hi
  have hroot := gfEval_genPoly_root hi
  rw [genPoly_eq_cons] at hroot
  have hlen : (genPoly n).tail.length = n := by simp [genPoly_length]
  exact gfEval_rsFold hroot (by omega) d [] _ (by simp [hlen]) (gfEval_replicate_zero n _)

end Sys2Proof.Machine
end

section
/-! PROOFS (41_rs_encoder.md R139 to R141): where each codeword stands in the interleaved sequence, and what RSENC
leaves. -/

namespace Sys2Proof.Machine

/-! ## The blocks (R139) -/

theorem splitBlocks_length (ks : List Nat) (d : List Byte) : (splitBlocks ks d).length = ks.length := by
  induction ks generalizing d with
  | nil => rfl
  | cons k ks ih => rw [splitBlocks, List.length_cons, ih, List.length_cons]

/-- Block `j` of a split starts where the blocks before it end. -/
theorem splitBlocks_getElem? (ks : List Nat) (d : List Byte) {j k : Nat} (h : ks[j]? = some k) :
    (splitBlocks ks d)[j]? = some ((d.drop (ks.take j).sum).take k) := by
  induction ks generalizing d j with
  | nil => cases h
  | cons k0 ks ih =>
    cases j with
    | zero =>
      obtain rfl := Option.some.inj h
      rfl
    | succ j =>
      rw [splitBlocks, List.getElem?_cons_succ, ih _ h, List.drop_drop]
      rfl

theorem blockSizes_length (b : BlockRow) : b.blockSizes.length = b.nb1 + b.nb2 := by simp [BlockRow.blockSizes]

theorem blockSizes_getElem? {b : BlockRow} {j : Nat} (hj : j < b.nb1 + b.nb2) :
    b.blockSizes[j]? = some (b.blockSize j) := by
  unfold BlockRow.blockSizes BlockRow.blockSize
  split
  case isTrue h => rw [List.getElem?_append_left (by simpa), List.getElem?_replicate_of_lt h]
  case isFalse h =>
    have hlt : j - (List.replicate b.nb1 b.k1).length < b.nb2 := by rw [List.length_replicate]; omega
    rw [List.getElem?_append_right (by simpa using h), List.getElem?_replicate_of_lt hlt]

theorem sum_take_blockSizes {b : BlockRow} {j : Nat} (hj : j ≤ b.nb1 + b.nb2) :
    (b.blockSizes.take j).sum = b.blockStart j := by
  unfold BlockRow.blockSizes BlockRow.blockStart
  rw [List.take_append, List.sum_append, List.take_replicate, List.take_replicate, List.sum_replicate,
    List.sum_replicate, List.length_replicate, smul_eq_mul, smul_eq_mul]
  split
  case isTrue h => simp [h]
  case isFalse h => rw [Nat.min_eq_right (by omega), Nat.min_eq_left (by omega)]

/-- Block `j` of the data. -/
def BlockRow.blockData (b : BlockRow) (data : List Byte) (j : Nat) : List Byte :=
  (data.drop (b.blockStart j)).take (b.blockSize j)

theorem splitBlocks_blockSizes (b : BlockRow) (data : List Byte) :
    splitBlocks b.blockSizes data = (List.range (b.nb1 + b.nb2)).map (b.blockData data) := by
  refine List.ext_getElem (by simp [splitBlocks_length, blockSizes_length]) fun j hj _ => ?_
  rw [splitBlocks_length, blockSizes_length] at hj
  have h := splitBlocks_getElem? b.blockSizes data (blockSizes_getElem? hj)
  rw [sum_take_blockSizes hj.le] at h
  rw [(List.getElem?_eq_some_iff.1 h).2, List.getElem_map, List.getElem_range, BlockRow.blockData]

/-- The blocks are as long as the data allows: all of it is cut up. -/
theorem blockData_length {b : BlockRow} {data : List Byte} (hd : data.length = b.dataCount) {j : Nat}
    (hj : j < b.nb1 + b.nb2) : (b.blockData data j).length = b.blockSize j := by
  have hlens := splitBlocks_lengths b.blockSizes data (by rw [blockSizes_sum, hd])
  have h := congrArg (·[j]?) hlens
  rw [splitBlocks_blockSizes] at h
  simpa [blockSizes_getElem? hj, hj] using h

/-- Codeword `i` of a block is counted from where the block starts. -/
theorem blockData_getElem? {b : BlockRow} {j i : Nat} (data : List Byte) (hi : i < b.blockSize j) :
    (b.blockData data j)[i]? = data[b.blockStart j + i]? := by
  rw [BlockRow.blockData, List.getElem?_take_of_lt hi, List.getElem?_drop]

/-! ## Interleaving (R140) -/

/-- Where every block of a list has a codeword `i`, these follow each other in block order. -/
theorem filterMap_getElem?_getElem? {blocks : List (List Byte)} {i : Nat} (h : ∀ b ∈ blocks, i < b.length) (j : Nat) :
    (blocks.filterMap fun b => b[i]?)[j]? = blocks[j]?.bind (·[i]?) := by
  induction blocks generalizing j with
  | nil => rfl
  | cons b blocks ih =>
    have hb := List.getElem?_eq_getElem (h b List.mem_cons_self)
    rw [List.filterMap_cons_some (f := fun b => b[i]?) hb]
    cases j with
    | zero => exact hb.symm
    | succ j => exact ih (fun c hc => h c (List.mem_cons_of_mem b hc)) j

theorem interleave_eq_append {n i : Nat} (hi : i < n) (blocks : List (List Byte)) :
    ∃ rest, interleave n blocks = interleave i blocks ++ ((blocks.filterMap fun b => b[i]?) ++ rest) := by
  induction n with
  | zero => cases hi
  | succ n ih =>
    rw [interleave_succ]
    obtain hin | rfl := Nat.lt_succ_iff_lt_or_eq.1 hi
    · obtain ⟨rest, h⟩ := ih hin
      exact ⟨rest ++ blocks.filterMap fun b => b[n]?, by simp [h]⟩
    · exact ⟨[], by simp⟩

/-- Before the codewords `i` of the blocks stand `i` codewords of each, when no block is shorter. Blocks that end there
have no codeword `i`, and those that follow move up. -/
theorem interleave_append_getElem? {short long : List (List Byte)} {n i : Nat} (hi : i < n)
    (hshort : ∀ b ∈ short, b.length = i) (hlong : ∀ b ∈ long, i < b.length) {j : Nat} (hj : j < long.length) :
    (interleave n (short ++ long))[i * (short.length + long.length) + j]? = long[j][i]? := by
  obtain ⟨rest, h⟩ := interleave_eq_append hi (short ++ long)
  have hlen : (interleave i (short ++ long)).length = i * (short.length + long.length) := by
    have hmin : ∀ b ∈ short ++ long, min i b.length = i := fun b hb => by
      obtain hb | hb := List.mem_append.1 hb
      · rw [hshort b hb, Nat.min_self]
      · exact Nat.min_eq_left (hlong b hb).le
    rw [interleave_length, List.map_congr_left hmin, List.map_const', List.sum_replicate, smul_eq_mul, Nat.mul_comm,
      List.length_append]
  have hnone : short.filterMap (fun b => b[i]?) = [] :=
    List.filterMap_eq_nil_iff.2 fun b hb => List.getElem?_eq_none (hshort b hb).le
  have hat : (long.filterMap fun b => b[i]?)[j]? = long[j][i]? := by
    rw [filterMap_getElem?_getElem? hlong, List.getElem?_eq_getElem hj, Option.bind_some]
  have hlt : j < (long.filterMap fun b => b[i]?).length := by
    rw [List.getElem?_eq_getElem (hlong _ (List.getElem_mem hj))] at hat
    exact (List.getElem?_eq_some_iff.1 hat).1
  rw [h, ← hlen, List.getElem?_append_right (Nat.le_add_right _ _), Nat.add_sub_cancel_left, List.filterMap_append,
    hnone, List.nil_append, List.getElem?_append_left hlt, hat]

/-- The same for numbered blocks, of which those from number `m` on have a codeword `i`. -/
theorem interleave_map_getElem? {block : Nat → List Byte} {n nb m i j : Nat} (hi : i < n)
    (hshort : ∀ k < m, (block k).length = i) (hlong : ∀ k, m ≤ k → k < nb → i < (block k).length) (hmj : m ≤ j)
    (hj : j < nb) : (interleave n ((List.range nb).map block))[i * nb + (j - m)]? = (block j)[i]? := by
  obtain ⟨t, rfl⟩ := Nat.exists_eq_add_of_le (hmj.trans hj.le)
  have hsplit : (List.range (m + t)).map block =
      (List.range m).map block ++ (List.range t).map fun k => block (m + k) := by
    rw [List.range_add, List.map_append, List.map_map]
    rfl
  have h := interleave_append_getElem? (short := (List.range m).map block)
    (long := (List.range t).map fun k => block (m + k)) hi (by simpa using hshort)
    (by simpa using fun k hk => hlong (m + k) (by omega) (by omega)) (j := j - m)
    (by rw [List.length_map, List.length_range]; omega)
  simpa [hsplit, Nat.add_sub_cancel' hmj] using h

/-! ## The sequence of a symbol -/

/-- K2 is K1 + 1 where there is a second group (R137). -/
theorem blockTab_k2 (v : Nat) (e : EcLevel) (h : 0 < (blockTab v e).nb2) :
    (blockTab v e).k2 = (blockTab v e).k1 + 1 := by
  revert h
  exact blockTab_of_forall v (P := fun b => 0 < b.nb2 → b.k2 = b.k1 + 1) (by cases e <;> decide) (by decide)

/-- The data codewords of the sequence, then its EC codewords (R140). -/
theorem codewordSeq_eq (b : BlockRow) (data : List Byte) : codewordSeq b data =
    interleave b.maxBlock ((List.range (b.nb1 + b.nb2)).map (b.blockData data)) ++
      interleave b.ecb ((List.range (b.nb1 + b.nb2)).map fun j => rsEc (b.blockData data j) b.ecb) := by
  rw [codewordSeq, splitBlocks_blockSizes, List.map_map]
  rfl

section
variable {b : BlockRow} {data : List Byte} (hd : data.length = b.dataCount)
include hd

theorem interleave_blockData_length (hk : 0 < b.nb2 → b.k1 ≤ b.k2) :
    (interleave b.maxBlock ((List.range (b.nb1 + b.nb2)).map (b.blockData data))).length = data.length := by
  have hlens := splitBlocks_lengths b.blockSizes data (by rw [blockSizes_sum, hd])
  rw [splitBlocks_blockSizes] at hlens
  have hmax : ∀ d ∈ (List.range (b.nb1 + b.nb2)).map (b.blockData data), d.length ≤ b.maxBlock := fun d hd =>
    blockSizes_le_maxBlock hk (hlens ▸ List.mem_map_of_mem hd)
  rw [interleave_length, sum_map_min hmax, hlens, blockSizes_sum, hd]

/-- Codeword `i` of block `j`, where the blocks from number `m` on have one and those before end there. -/
theorem codewordSeq_getElem?_data {i j m : Nat} (hi : i < b.maxBlock) (hshort : ∀ k < m, b.blockSize k = i)
    (hlong : ∀ k, m ≤ k → k < b.nb1 + b.nb2 → i < b.blockSize k) (hmj : m ≤ j) (hj : j < b.nb1 + b.nb2) :
    (codewordSeq b data)[i * (b.nb1 + b.nb2) + (j - m)]? = data[b.blockStart j + i]? := by
  have hlen {k : Nat} (hk : k < b.nb1 + b.nb2) := blockData_length hd hk
  have h := interleave_map_getElem? (block := b.blockData data) hi
    (fun k hk => by rw [hlen (by omega), hshort k hk]) (fun k hmk hk => by rw [hlen hk]; exact hlong k hmk hk) hmj hj
  have hlt : i < (b.blockData data j).length := by rw [hlen hj]; exact hlong j hmj hj
  have hbound := (List.getElem?_eq_some_iff.1 (h.trans (List.getElem?_eq_getElem hlt))).1
  rw [codewordSeq_eq, List.getElem?_append_left hbound, h, blockData_getElem? data (hlong j hmj hj)]

/-- Below K1 every block has a codeword. -/
theorem codewordSeq_getElem?_below_k1 {i j : Nat} (hk : 0 < b.nb2 → b.k1 ≤ b.k2) (hj : j < b.nb1 + b.nb2)
    (hi : i < b.k1) : (codewordSeq b data)[i * (b.nb1 + b.nb2) + j]? = data[b.blockStart j + i]? := by
  refine codewordSeq_getElem?_data (m := 0) hd ?_ (by simp) (fun k _ hkn => ?_) (Nat.zero_le j) hj
  · unfold BlockRow.maxBlock
    split <;> omega
  · unfold BlockRow.blockSize
    split <;> omega

/-- At K1 the blocks of the second group have their last codeword, and those of the first group, which come before them,
have ended. -/
theorem codewordSeq_getElem?_k1 {j : Nat} (hk : 0 < b.nb2 → b.k2 = b.k1 + 1) (hj1 : b.nb1 ≤ j)
    (hj : j < b.nb1 + b.nb2) :
    (codewordSeq b data)[b.k1 * (b.nb1 + b.nb2) + (j - b.nb1)]? = data[b.blockStart j + b.k1]? := by
  have hk2 := hk (by omega)
  refine codewordSeq_getElem?_data hd ?_ (fun k h => if_pos h) (fun k h _ => ?_) hj1 hj
  · rw [BlockRow.maxBlock, if_pos (by omega)]
    omega
  · rw [BlockRow.blockSize, if_neg (by omega)]
    omega

theorem codewordSeq_getElem?_ec {i j : Nat} (hk : 0 < b.nb2 → b.k1 ≤ b.k2) (hj : j < b.nb1 + b.nb2) (hi : i < b.ecb) :
    (codewordSeq b data)[data.length + i * (b.nb1 + b.nb2) + j]? = (rsEc (b.blockData data j) b.ecb)[i]? := by
  have h := interleave_map_getElem? (block := fun j => rsEc (b.blockData data j) b.ecb) (m := 0) hi (by simp)
    (fun k _ _ => by rwa [rsEc_length]) (Nat.zero_le j) hj
  rw [codewordSeq_eq, Nat.add_assoc, ← interleave_blockData_length hd hk,
    List.getElem?_append_right (Nat.le_add_right _ _), Nat.add_sub_cancel_left]
  exact h

end

/-- Settles O22: the rows of the block table have K2 = K1 + 1. -/
theorem interleavedCodewordPositions : Obligations.InterleavedCodewordPositions := by
  intro v e data _ _ hl b nb seq
  have hk : 0 < b.nb2 → b.k1 ≤ b.k2 := (blockTab_bounds v e).1
  exact ⟨(codewordSeq_length hk hl).trans (totalCount_blockTab v e),
    fun j i hj hi => codewordSeq_getElem?_below_k1 hl hk hj hi,
    fun j hj1 hj => codewordSeq_getElem?_k1 hl (blockTab_k2 v e) hj1 hj,
    fun j i hj hi => codewordSeq_getElem?_ec hl hk hj hi⟩

/-! ## RSENC (R141) -/

/-- Settles O23: RSENC leaves in CWB what GENERATE leaves there. -/
theorem rsencCompletes : Obligations.RsencCompletes := by
  intro s data hv hl hd
  have hread (k : Nat) (hk : k < s.total) := read_generated_cwb_lt hl [] hk
  refine ⟨_, congrArg complete (performRsenc_done hv hl hd), hread, fun k hk hnone => ?_,
    fun k hk => read_generated_cwb_ge hl [] hk⟩
  have hlen := List.getElem?_eq_none_iff.1 ((hread k hk).symm.trans hnone)
  rw [codewordSeq_length_total hl] at hlen
  omega

end Sys2Proof.Machine
end

section
/-! PROOFS (42_matrix_builder.md R171): the rectangles of `functionCover` lie apart and hold function cells only, so the
cells they leave are exactly the data cells, and their number is the closed form. -/

namespace Sys2Proof.Machine

/-! ## The alignment patterns (R164, R165) -/

/-- A position is 6 or S - 7 or lies well between them, and two positions lie apart. -/
theorem alignPos_spaced : ∀ k < 40, (alignPos (k + 1)).Nodup ∧
    (∀ a ∈ alignPos (k + 1), a = 6 ∨ a = symbolSize (k + 1) - 7 ∨ (14 ≤ a ∧ a + 14 ≤ symbolSize (k + 1))) ∧
      ∀ a ∈ alignPos (k + 1), ∀ b ∈ alignPos (k + 1), a = b ∨ a + 4 < b ∨ b + 4 < a := by decide

theorem alignPos_of_version {v : Nat} (hv : 1 ≤ v ∧ v ≤ 40) : (alignPos v).Nodup ∧
    (∀ a ∈ alignPos v, a = 6 ∨ a = symbolSize v - 7 ∨ (14 ≤ a ∧ a + 14 ≤ symbolSize v)) ∧
      ∀ a ∈ alignPos v, ∀ b ∈ alignPos v, a = b ∨ a + 4 < b ∨ b + 4 < a := by
  have h := alignPos_spaced (v - 1) (by omega)
  rwa [Nat.sub_add_cancel hv.1] at h

theorem mem_alignCentres {v a b : Nat} : (a, b) ∈ alignCentres v ↔ (a ∈ alignPos v ∧ b ∈ alignPos v) ∧
    ¬ (a = 6 ∧ b = 6) ∧ ¬ (a = 6 ∧ b = symbolSize v - 7) ∧ ¬ (a = symbolSize v - 7 ∧ b = 6) := by
  refine List.mem_filter.trans (and_congr List.pair_mem_product ?_)
  simp [and_assoc]

theorem alignCentres_nodup {v : Nat} (hv : 1 ≤ v ∧ v ≤ 40) : (alignCentres v).Nodup := by
  have hpos := (alignPos_of_version hv).1
  exact (hpos.product hpos).filter _

theorem mem_alignBlock {a b r c : Nat} : (r, c) ∈ alignBlock (a, b) ↔
    (r ≠ 6 ∧ a - 2 ≤ r ∧ r ≤ a + 2) ∧ (c ≠ 6 ∧ b - 2 ≤ c ∧ c ≤ b + 2) := by
  simp [alignBlock]

/-- Alignment patterns do not overlap. -/
theorem alignBlock_disjoint {v : Nat} (hv : 1 ≤ v ∧ v ≤ 40) : ∀ p ∈ (alignCentres v).toFinset,
    ∀ q ∈ (alignCentres v).toFinset, p ≠ q → Disjoint (alignBlock p) (alignBlock q) := by
  rintro ⟨a, b⟩ hp ⟨a', b'⟩ hq hne
  obtain ⟨-, -, hgap⟩ := alignPos_of_version hv
  obtain ⟨⟨ha, hb⟩, -⟩ := mem_alignCentres.1 (List.mem_toFinset.1 hp)
  obtain ⟨⟨ha', hb'⟩, -⟩ := mem_alignCentres.1 (List.mem_toFinset.1 hq)
  have hrow := hgap a ha a' ha'
  have hcol := hgap b hb b' hb'
  rw [Finset.disjoint_left]
  rintro ⟨r, c⟩ h h'
  rw [mem_alignBlock] at h h'
  obtain ⟨⟨-, hr⟩, -, hc⟩ := h
  obtain ⟨⟨-, hr'⟩, -, hc'⟩ := h'
  exact hne (Prod.ext (by simp only; omega) (by simp only; omega))

theorem card_alignBlock_side {a : Nat} (h : a = 6 ∨ 14 ≤ a) :
    ((Finset.Icc (a - 2) (a + 2)).erase 6).card = if a = 6 then 4 else 5 := by
  obtain rfl | h := h
  · rfl
  · rw [Finset.erase_eq_of_notMem (by rw [Finset.mem_Icc]; omega), Nat.card_Icc, if_neg (by omega)]
    omega

theorem card_alignBlocks {v : Nat} (hv : 1 ≤ v ∧ v ≤ 40) :
    ((alignCentres v).toFinset.biUnion alignBlock).card = ((alignCentres v).map alignWeight).sum := by
  rw [Finset.card_biUnion (alignBlock_disjoint hv), ← List.sum_toFinset _ (alignCentres_nodup hv)]
  refine Finset.sum_congr rfl fun ⟨a, b⟩ hp => ?_
  obtain ⟨⟨ha, hb⟩, -⟩ := mem_alignCentres.1 (List.mem_toFinset.1 hp)
  obtain ⟨-, hrange, -⟩ := alignPos_of_version hv
  have hs := symbolSize_range hv
  have ha' := hrange a ha
  have hb' := hrange b hb
  rw [alignBlock, Finset.card_product, card_alignBlock_side (by omega), card_alignBlock_side (by omega), alignWeight]

/-- Alignment patterns, row and column 6 left out, lie in the symbol, in no corner and in no version block. -/
theorem mem_alignBlocks {v r c : Nat} (hv : 1 ≤ v ∧ v ≤ 40)
    (h : (r, c) ∈ (alignCentres v).toFinset.biUnion alignBlock) : nearAlign v r c = true ∧
      (r < symbolSize v ∧ c < symbolSize v ∧ r ≠ 6 ∧ c ≠ 6) ∧ inCorner (symbolSize v) r c = false ∧
        inVersionBlock v (symbolSize v) r c = false := by
  obtain ⟨⟨a, b⟩, hp, hrc⟩ := Finset.mem_biUnion.1 h
  have hcentre := List.mem_toFinset.1 hp
  obtain ⟨⟨ha, hb⟩, hne⟩ := mem_alignCentres.1 hcentre
  obtain ⟨-, hrange, -⟩ := alignPos_of_version hv
  obtain ⟨⟨hr6, hr⟩, hc6, hc⟩ := mem_alignBlock.1 hrc
  have hs := symbolSize_range hv
  have ha' := hrange a ha
  have hb' := hrange b hb
  refine ⟨List.any_eq_true.2 ⟨(a, b), hcentre, decide_eq_true (cheb_le_iff.2 (by omega))⟩, by omega, ?_, ?_⟩
  · rw [← Bool.not_eq_true]
    simp only [inCorner, Bool.or_eq_true, Bool.and_eq_true, decide_eq_true_eq]
    omega
  · rw [← Bool.not_eq_true]
    simp only [inVersionBlock, Bool.or_eq_true, Bool.and_eq_true, decide_eq_true_eq]
    omega

/-! ## The other rectangles -/

def cornerCells (size : Nat) : Finset (Nat × Nat) :=
  Finset.range 9 ×ˢ Finset.range 9 ∪ Finset.range 9 ×ˢ Finset.Ico (size - 8) size ∪
    Finset.Ico (size - 8) size ×ˢ Finset.range 9

/-- Row and column 6 between the corners. -/
def timingCells (size : Nat) : Finset (Nat × Nat) :=
  {6} ×ˢ Finset.Ico 9 (size - 8) ∪ Finset.Ico 9 (size - 8) ×ˢ {6}

def versionCells (v size : Nat) : Finset (Nat × Nat) :=
  if 7 ≤ v then Finset.range 6 ×ˢ Finset.Ico (size - 11) (size - 8) ∪
    Finset.Ico (size - 11) (size - 8) ×ˢ Finset.range 6 else ∅

theorem functionCover_eq (v size : Nat) : functionCover v size =
    cornerCells size ∪ timingCells size ∪ versionCells v size ∪ (alignCentres v).toFinset.biUnion alignBlock := rfl

section
variable {v size r c : Nat} (hs : 21 ≤ size)

theorem disjoint_of_cells {A B : Finset (Nat × Nat)} (h : ∀ r c, (r, c) ∈ A → (r, c) ∉ B) : Disjoint A B :=
  Finset.disjoint_left.2 fun ⟨r, c⟩ => h r c

theorem mem_timingCells : (r, c) ∈ timingCells size ↔
    (r = 6 ∧ 9 ≤ c ∧ c < size - 8) ∨ (c = 6 ∧ 9 ≤ r ∧ r < size - 8) := by
  simp only [timingCells, Finset.mem_union, Finset.mem_product, Finset.mem_singleton, Finset.mem_Ico]
  omega

include hs

theorem mem_cornerCells : (r, c) ∈ cornerCells size ↔ inCorner size r c = true ∧ r < size ∧ c < size := by
  simp only [cornerCells, inCorner, Finset.mem_union, Finset.mem_product, Finset.mem_range, Finset.mem_Ico,
    Bool.or_eq_true, Bool.and_eq_true, decide_eq_true_eq]
  omega

theorem mem_versionCells : (r, c) ∈ versionCells v size ↔ inVersionBlock v size r c = true := by
  by_cases h7 : 7 ≤ v
  · simp only [versionCells, inVersionBlock, if_pos h7, decide_eq_true h7, Bool.true_and, Finset.mem_union,
      Finset.mem_product, Finset.mem_range, Finset.mem_Ico, Bool.or_eq_true, Bool.and_eq_true, decide_eq_true_eq]
    omega
  · simp [versionCells, inVersionBlock, h7]

theorem card_cornerCells : (cornerCells size).card = 225 := by
  rw [cornerCells, Finset.card_union_of_disjoint, Finset.card_union_of_disjoint]
  · simp only [Finset.card_product, Finset.card_range, Nat.card_Ico]
    omega
  all_goals
    refine disjoint_of_cells fun r c => ?_
    simp only [Finset.mem_union, Finset.mem_product, Finset.mem_range, Finset.mem_Ico]
    omega

theorem card_timingCells : (timingCells size).card = 2 * (size - 17) := by
  rw [timingCells, Finset.card_union_of_disjoint]
  · simp only [Finset.card_product, Finset.card_singleton, Nat.card_Ico]
    omega
  · refine disjoint_of_cells fun r c => ?_
    simp only [Finset.mem_product, Finset.mem_singleton, Finset.mem_Ico]
    omega

theorem card_versionCells (v : Nat) : (versionCells v size).card = if 7 ≤ v then 36 else 0 := by
  unfold versionCells
  split
  · rw [Finset.card_union_of_disjoint]
    · simp only [Finset.card_product, Finset.card_range, Nat.card_Ico]
      omega
    · refine disjoint_of_cells fun r c => ?_
      simp only [Finset.mem_product, Finset.mem_range, Finset.mem_Ico]
      omega
  · rfl

theorem inCorner_eq_false_of_inVersionBlock (h : inVersionBlock v size r c = true) : inCorner size r c = false := by
  rw [← Bool.not_eq_true]
  simp only [inVersionBlock, inCorner, Bool.or_eq_true, Bool.and_eq_true, decide_eq_true_eq] at h ⊢
  omega

end

/-! ## The number of function cells (R171) -/

/-- The rectangles do not overlap. -/
theorem card_functionCover {v : Nat} (hv : 1 ≤ v ∧ v ≤ 40) :
    (functionCover v (symbolSize v)).card = coverCount v (symbolSize v) := by
  obtain ⟨hs, -⟩ := symbolSize_range hv
  have htiming : Disjoint (cornerCells (symbolSize v)) (timingCells (symbolSize v)) :=
    disjoint_of_cells fun r c hcorner htiming => by
      rw [mem_cornerCells hs] at hcorner
      rw [mem_timingCells] at htiming
      simp only [inCorner, Bool.or_eq_true, Bool.and_eq_true, decide_eq_true_eq] at hcorner
      omega
  have hversion : Disjoint (cornerCells (symbolSize v) ∪ timingCells (symbolSize v)) (versionCells v (symbolSize v)) :=
    disjoint_of_cells fun r c h hversion => by
      rw [mem_versionCells hs] at hversion
      rw [Finset.mem_union, mem_cornerCells hs, mem_timingCells] at h
      obtain ⟨hcorner, -⟩ | htiming := h
      · simp [inCorner_eq_false_of_inVersionBlock hs hversion] at hcorner
      · simp only [inVersionBlock, Bool.or_eq_true, Bool.and_eq_true, decide_eq_true_eq] at hversion
        omega
  have halign : Disjoint (cornerCells (symbolSize v) ∪ timingCells (symbolSize v) ∪ versionCells v (symbolSize v))
      ((alignCentres v).toFinset.biUnion alignBlock) :=
    disjoint_of_cells fun r c h hblock => by
      obtain ⟨-, ⟨-, -, hr6, hc6⟩, hcorner, hver⟩ := mem_alignBlocks hv hblock
      rw [Finset.mem_union, Finset.mem_union, mem_cornerCells hs, mem_timingCells, mem_versionCells hs,
        hcorner, hver] at h
      simp [hr6, hc6] at h
  rw [functionCover_eq, Finset.card_union_of_disjoint halign, Finset.card_union_of_disjoint hversion,
    Finset.card_union_of_disjoint htiming, card_alignBlocks hv, card_cornerCells hs, card_timingCells hs,
    card_versionCells hs, coverCount]

/-- The rectangles hold function cells of the symbol only. -/
theorem layoutCell_of_mem_functionCover {v r c : Nat} (hv : 1 ≤ v ∧ v ≤ 40)
    (h : (r, c) ∈ functionCover v (symbolSize v)) :
    r < symbolSize v ∧ c < symbolSize v ∧ (layoutCell v r c).1 = true := by
  obtain ⟨hs, -⟩ := symbolSize_range hv
  suffices hregion : (r < symbolSize v ∧ c < symbolSize v) ∧ (inCorner (symbolSize v) r c = true ∨ r = 6 ∨ c = 6 ∨
      inVersionBlock v (symbolSize v) r c = true ∨ nearAlign v r c = true) by
    obtain ⟨⟨hr, hc⟩, hregion⟩ := hregion
    refine ⟨hr, hc, ?_⟩
    rw [layoutCell_fst hv hr hc]
    simpa [or_assoc] using hregion
  simp only [functionCover_eq, Finset.mem_union, mem_cornerCells hs, mem_timingCells, mem_versionCells hs] at h
  obtain ((hcorner | htiming) | hversion) | halign := h
  · exact ⟨hcorner.2, .inl hcorner.1⟩
  · omega
  · refine ⟨?_, by simp [hversion]⟩
    simp only [inVersionBlock, Bool.or_eq_true, Bool.and_eq_true, decide_eq_true_eq] at hversion
    omega
  · obtain ⟨hnear, ⟨hr, hc, -⟩, -⟩ := mem_alignBlocks hv halign
    exact ⟨⟨hr, hc⟩, by simp [hnear]⟩

/-- Function cells of the square are no data cells. -/
theorem dataCellsIn_add_card_le {f : Grid} {size : Nat} {U : Finset (Nat × Nat)}
    (h : ∀ r c, (r, c) ∈ U → r < size ∧ c < size ∧ f.cell r c = true) :
    dataCellsIn f (squareCells size) + U.card ≤ size * size := by
  have hsq : squareCells size = List.range size ×ˢ List.range size := rfl
  have hfun : U.card ≤ ((squareCells size).filter fun p => f.cell p.1 p.2).length := by
    refine (Finset.card_le_card fun ⟨r, c⟩ hp => ?_).trans (List.toFinset_card_le _)
    obtain ⟨hr, hc, hcell⟩ := h r c hp
    simp [hsq, hr, hc, hcell]
  have hlen : (squareCells size).length = size * size := by rw [hsq, List.length_product, List.length_range]
  have hsplit := List.length_eq_countP_add_countP (fun p : Nat × Nat => f.cell p.1 p.2) (l := squareCells size)
  rw [← List.countP_eq_length_filter] at hfun
  simp only [dataCellsIn, Bool.not_eq_true, Bool.decide_eq_false] at hsplit ⊢
  omega

/-- DATACELLS(V) is what the rectangles leave of the square, and T(V) its whole eighth (R138, R171). -/
theorem dataCells_rows : ∀ k < 40, dataCells (k + 1) + coverCount (k + 1) (symbolSize (k + 1)) =
    symbolSize (k + 1) * symbolSize (k + 1) ∧ dataCells (k + 1) / 8 = totalCodewords (k + 1) := by decide

theorem dataCells_of_version {v : Nat} (hv : 1 ≤ v ∧ v ≤ 40) : dataCells v + coverCount v (symbolSize v) =
    symbolSize v * symbolSize v ∧ dataCells v / 8 = totalCodewords v := by
  have h := dataCells_rows (v - 1) (by omega)
  rwa [Nat.sub_add_cancel hv.1] at h

/-- The function map leaves DATACELLS(V) data cells. -/
theorem dataCellsIn_functionMap {v : Nat} (hv : 1 ≤ v ∧ v ≤ 40) :
    dataCellsIn (functionMap v) (squareCells (symbolSize v)) = dataCells v := by
  have hge : symbolSize v * symbolSize v ≤
      dataCellsIn (functionMap v) (squareCells (symbolSize v)) + (functionCover v (symbolSize v)).card :=
    le_dataCellsIn fun r c hr hc h => mem_functionCover hv hr hc (by rwa [functionMap_cell hr hc] at h)
  have hle : dataCellsIn (functionMap v) (squareCells (symbolSize v)) + (functionCover v (symbolSize v)).card ≤
      symbolSize v * symbolSize v := dataCellsIn_add_card_le fun r c h => by
    obtain ⟨hr, hc, hcell⟩ := layoutCell_of_mem_functionCover hv h
    exact ⟨hr, hc, by rwa [functionMap_cell hr hc]⟩
  rw [card_functionCover hv] at hge hle
  obtain ⟨hcount, -⟩ := dataCells_of_version hv
  omega

/-- Settles O26: the rows are compared one by one, and the count is that of the function map. -/
theorem layoutDataCellsMatchCapacity : Obligations.LayoutDataCellsMatchCapacity := by
  refine ⟨rfl, fun v h1 h40 => ?_⟩
  have hv : 1 ≤ v ∧ v ≤ 40 := ⟨h1, h40⟩
  have hread := readSquare_layoutFun (symbolSize_range hv).2
  exact ⟨⟨functionMap v, (readSquare_eq_some_iff _ _ _).1 hread, dataCellsIn_functionMap hv⟩, rfl,
    (dataCells_of_version hv).2,
    fun e => ⟨totalCount_blockTab v e, rfl, (totalCount_blockTab v e).symm⟩⟩

end Sys2Proof.Machine
end

section
/-! PROOFS (42_matrix_builder.md R161 to R170): the layout region by region. Finder patterns and separators come first
in the cascade of R169; the alignment patterns lie apart from them, from the format cells, the dark module and the
version blocks, and agree with the timing patterns they overlap. -/

namespace Sys2Proof.Machine

/-! ## LAYOUT (R170) -/

/-- Settles O24: every cell is read back from the two tabulated arrays. -/
theorem layoutCompletes : Obligations.LayoutCompletes := by
  intro s hv
  refine ⟨layoutMod s.cfg.ver.toNat, layoutFun s.cfg.ver.toNat, congrArg complete (performLayout_done hv),
    fun r c hr hc => ⟨?_, ?_⟩⟩
  · rw [read_layoutMod hr hc, layoutKey_cellKey hc, apply_ite Prod.snd]
    rfl
  · rw [read_layoutFun hr hc, layoutKey_cellKey hc, apply_ite Prod.fst]
    rfl

/-! ## Finder patterns and separators (R161, R162) -/

theorem find?_eq_some_of_unique {α : Type} {l : List α} {P : α → Bool} {a : α} (ha : a ∈ l) (hP : P a = true)
    (hunique : ∀ b ∈ l, P b = true → b = a) : l.find? P = some a := by
  cases h : l.find? P with
  | none => exact absurd hP (List.find?_eq_none.1 h a ha)
  | some b => rw [hunique b (List.mem_of_find?_eq_some h) (List.find?_some h)]

/-- The finder centres lie more than 8 apart. -/
theorem finderCentre_unique {size r c : Nat} (hs : 21 ≤ size) {p q : Nat × Nat} (hp : p ∈ finderCentres size)
    (hq : q ∈ finderCentres size) (hcp : cheb r c p.1 p.2 ≤ 4) (hcq : cheb r c q.1 q.2 ≤ 4) : q = p := by
  rw [cheb_le_iff] at hcp hcq
  simp only [finderCentres, List.mem_cons, List.not_mem_nil, or_false] at hp hq
  obtain rfl | rfl | rfl := hp <;> obtain rfl | rfl | rfl := hq <;> simp only [Prod.mk.injEq] at * <;> omega

theorem finderValue_eq_some {size r c : Nat} (hs : 21 ≤ size) {p : Nat × Nat} (hp : p ∈ finderCentres size)
    (h : cheb r c p.1 p.2 ≤ 3) : finderValue size r c = some (decide (cheb r c p.1 p.2 ≠ 2)) := by
  rw [finderValue, find?_eq_some_of_unique hp (decide_eq_true h), Option.map_some]
  exact fun q hq hcq => finderCentre_unique hs hp hq (by omega) ((of_decide_eq_true hcq).trans (by omega))

theorem finderValue_eq_none {size r c : Nat} (hs : 21 ≤ size) {p : Nat × Nat} (hp : p ∈ finderCentres size)
    (h : cheb r c p.1 p.2 = 4) : finderValue size r c = none := by
  rw [finderValue, Option.map_eq_none_iff, List.find?_eq_none]
  intro q hq hcq
  have hle := of_decide_eq_true hcq
  rw [finderCentre_unique hs hp hq h.le (hle.trans (by omega))] at hle
  omega

/-- A cell at distance up to 3 of a finder centre (R161). -/
theorem layoutCell_finder {v r c : Nat} (hv : 1 ≤ v ∧ v ≤ 40) {p : Nat × Nat} (hp : p ∈ finderCentres (symbolSize v))
    (h : cheb r c p.1 p.2 ≤ 3) : layoutCell v r c = (true, decide (cheb r c p.1 p.2 ≠ 2)) := by
  simp only [layoutCell, finderValue_eq_some (symbolSize_range hv).1 hp h]

/-- A cell at distance 4 of a finder centre (R162). -/
theorem layoutCell_separator {v r c : Nat} (hv : 1 ≤ v ∧ v ≤ 40)
    {p : Nat × Nat} (hp : p ∈ finderCentres (symbolSize v)) (h : cheb r c p.1 p.2 = 4) :
    layoutCell v r c = (true, false) := by
  have hsep : isSeparator (symbolSize v) r c = true := List.any_eq_true.2 ⟨p, hp, beq_iff_eq.2 h⟩
  simp only [layoutCell, finderValue_eq_none (symbolSize_range hv).1 hp h, hsep, if_true]

/-- The cells of the symbol outside the finder patterns and separators. -/
def outsideFinders (size r c : Nat) : Prop :=
  (r < size ∧ c < size) ∧ ¬ ((r ≤ 7 ∧ c ≤ 7) ∨ (r ≤ 7 ∧ size - 8 ≤ c) ∨ (size - 8 ≤ r ∧ c ≤ 7))

theorem outsideFinders_of_far {size r c : Nat} (hs : 21 ≤ size) (hr : r < size) (hc : c < size)
    (h : ∀ r0 c0, (r0, c0) ∈ finderCentres size → 4 < cheb r c r0 c0) : outsideFinders size r c := by
  refine ⟨⟨hr, hc⟩, ?_⟩
  have h1 := h 3 3 (by simp [finderCentres])
  have h2 := h 3 (size - 4) (by simp [finderCentres])
  have h3 := h (size - 4) 3 (by simp [finderCentres])
  rw [← not_le, cheb_le_iff] at h1 h2 h3
  omega

theorem outsideFinders.values {v r c : Nat} (hv : 1 ≤ v ∧ v ≤ 40) (h : outsideFinders (symbolSize v) r c) :
    finderValue (symbolSize v) r c = none ∧ isSeparator (symbolSize v) r c = false := by
  obtain ⟨⟨hr, hc⟩, hout⟩ := h
  rwa [← finder_or_separator (symbolSize_range hv).1 hr hc, not_or, Bool.not_eq_true, Option.isSome_eq_false_iff,
    Option.isNone_iff_eq_none, Bool.not_eq_true] at hout

/-! ## Alignment patterns (R164, R165) -/

/-- The positions are even. -/
theorem alignPos_even_rows : ∀ k < 40, ∀ a ∈ alignPos (k + 1), a % 2 = 0 := by decide

theorem alignPos_even {v a : Nat} (hv : 1 ≤ v ∧ v ≤ 40) (ha : a ∈ alignPos v) : a % 2 = 0 := by
  have h := alignPos_even_rows (v - 1) (by omega)
  rw [Nat.sub_add_cancel hv.1] at h
  exact h a ha

/-- The two coordinates of an alignment centre: both well inside the symbol, or one of them 6 and the other well between
the finder patterns. -/
theorem alignCentre_range {v a b : Nat} (hv : 1 ≤ v ∧ v ≤ 40) (h : (a, b) ∈ alignCentres v) :
    (a % 2 = 0 ∧ b % 2 = 0) ∧ (a + 7 ≤ symbolSize v ∧ b + 7 ≤ symbolSize v) ∧
      ((14 ≤ a ∧ 14 ≤ b) ∨ (a = 6 ∧ 14 ≤ b ∧ b + 14 ≤ symbolSize v) ∨ (b = 6 ∧ 14 ≤ a ∧ a + 14 ≤ symbolSize v)) := by
  obtain ⟨⟨ha, hb⟩, hne⟩ := mem_alignCentres.1 h
  obtain ⟨-, hrange, -⟩ := alignPos_of_version hv
  have hs := symbolSize_range hv
  have hra := hrange a ha
  have hrb := hrange b hb
  exact ⟨⟨alignPos_even hv ha, alignPos_even hv hb⟩, by omega, by omega⟩

theorem alignValue_eq_some {v r c a b : Nat} (hv : 1 ≤ v ∧ v ≤ 40) (h : (a, b) ∈ alignCentres v)
    (hcheb : cheb r c a b ≤ 2) : alignValue v r c = some (decide (cheb r c a b ≠ 1)) := by
  rw [alignValue, find?_eq_some_of_unique h (decide_eq_true hcheb), Option.map_some]
  rintro ⟨a', b'⟩ h' hcheb'
  obtain ⟨⟨ha, hb⟩, -⟩ := mem_alignCentres.1 h
  obtain ⟨⟨ha', hb'⟩, -⟩ := mem_alignCentres.1 h'
  obtain ⟨-, -, hgap⟩ := alignPos_of_version hv
  have hrow := hgap a ha a' ha'
  have hcol := hgap b hb b' hb'
  have hnear := cheb_le_iff.1 hcheb
  have hnear' := cheb_le_iff.1 (of_decide_eq_true hcheb')
  simp only at hnear'
  exact Prod.ext (by simp only; omega) (by simp only; omega)

theorem nearAlign_iff {v r c : Nat} :
    nearAlign v r c = true ↔ ∃ a b, (a, b) ∈ alignCentres v ∧ cheb r c a b ≤ 2 := by
  simp [nearAlign]

theorem alignValue_eq_none {v r c : Nat} (h : nearAlign v r c = false) : alignValue v r c = none := by
  rwa [← alignValue_isSome, Option.isSome_eq_false_iff, Option.isNone_iff_eq_none] at h

/-- Alignment patterns lie in the symbol, in no corner and in no version block. -/
theorem nearAlign_apart {v r c : Nat} (hv : 1 ≤ v ∧ v ≤ 40) (h : nearAlign v r c = true) :
    (r < symbolSize v ∧ c < symbolSize v) ∧ inCorner (symbolSize v) r c = false ∧
      inVersionBlock v (symbolSize v) r c = false := by
  obtain ⟨a, b, hcentre, hcheb⟩ := nearAlign_iff.1 h
  obtain ⟨-, hlt, hrange⟩ := alignCentre_range hv hcentre
  have hs := symbolSize_range hv
  rw [cheb_le_iff] at hcheb
  simp only [← Bool.not_eq_true, inCorner, inVersionBlock, Bool.or_eq_true, Bool.and_eq_true, decide_eq_true_eq]
  omega

theorem nearAlign_eq_false {v r c : Nat} (hv : 1 ≤ v ∧ v ≤ 40)
    (h : inCorner (symbolSize v) r c = true ∨ inVersionBlock v (symbolSize v) r c = true) :
    nearAlign v r c = false := by
  rw [← Bool.not_eq_true]
  intro hnear
  obtain ⟨-, hcorner, hver⟩ := nearAlign_apart hv hnear
  simp [hcorner, hver] at h

theorem layoutCell_of_alignValue {v r c : Nat} {b : Bool} (hv : 1 ≤ v ∧ v ≤ 40)
    (hout : outsideFinders (symbolSize v) r c) (h : alignValue v r c = some b) : layoutCell v r c = (true, b) := by
  obtain ⟨hfinder, hsep⟩ := hout.values hv
  simp [layoutCell, hfinder, hsep, h]

/-- A cell at distance up to 2 of an alignment centre (R165). -/
theorem layoutCell_align {v r c a b : Nat} (hv : 1 ≤ v ∧ v ≤ 40) (h : (a, b) ∈ alignCentres v)
    (hcheb : cheb r c a b ≤ 2) : layoutCell v r c = (true, decide (cheb r c a b ≠ 1)) := by
  obtain ⟨hin, hcorner, -⟩ := nearAlign_apart hv (nearAlign_iff.2 ⟨a, b, h, hcheb⟩)
  refine layoutCell_of_alignValue hv ⟨hin, ?_⟩ (alignValue_eq_some hv h hcheb)
  simp only [inCorner, Bool.or_eq_false_iff, Bool.and_eq_false_iff, decide_eq_false_iff_not] at hcorner
  omega

/-! ## Timing patterns (R163) -/

/-- An alignment pattern on row or column 6 shows the timing pattern there: its centre is even. -/
theorem alignValue_timing {v r c : Nat} {b : Bool} (hv : 1 ≤ v ∧ v ≤ 40) (h6 : r = 6 ∨ c = 6)
    (h : alignValue v r c = some b) : b = decide ((r + c) % 2 = 0) := by
  obtain ⟨a, a', hcentre, hcheb⟩ := nearAlign_iff.1 (by rw [← alignValue_isSome, h]; rfl)
  obtain ⟨⟨heven, heven'⟩, -, hrange⟩ := alignCentre_range hv hcentre
  rw [alignValue_eq_some hv hcentre hcheb, Option.some_inj] at h
  rw [← h, decide_eq_decide]
  unfold cheb absDiff at *
  omega

theorem timingValue_eq_some {size r c : Nat}
    (h : (r = 6 ∧ 8 ≤ c ∧ c ≤ size - 9) ∨ (c = 6 ∧ 8 ≤ r ∧ r ≤ size - 9)) :
    timingValue size r c = some (decide ((r + c) % 2 = 0)) := by
  unfold timingValue
  obtain ⟨rfl, hc⟩ | ⟨rfl, hr⟩ := h
  · have hparity : (6 + c) % 2 = c % 2 := by omega
    rw [if_pos ⟨rfl, hc⟩, beq_eq_decide, hparity]
  · have hparity : (r + 6) % 2 = r % 2 := by omega
    rw [if_neg (by omega), if_pos ⟨rfl, hr⟩, beq_eq_decide, hparity]

/-- A timing cell, on an alignment pattern or not (R163). -/
theorem layoutCell_timing {v r c : Nat} (hv : 1 ≤ v ∧ v ≤ 40)
    (h : (r = 6 ∧ 8 ≤ c ∧ c ≤ symbolSize v - 9) ∨ (c = 6 ∧ 8 ≤ r ∧ r ≤ symbolSize v - 9)) :
    layoutCell v r c = (true, decide ((r + c) % 2 = 0)) := by
  have hs := symbolSize_range hv
  have hout : outsideFinders (symbolSize v) r c := by unfold outsideFinders; omega
  cases halign : alignValue v r c with
  | some b => rw [layoutCell_of_alignValue hv hout halign, alignValue_timing hv (by omega) halign]
  | none =>
    obtain ⟨hfinder, hsep⟩ := hout.values hv
    simp [layoutCell, hfinder, hsep, halign, timingValue_eq_some h]

/-! ## Format cells, dark module, version cells, data cells (R166 to R169) -/

/-- The cells outside the finder, alignment and timing patterns and the separators. -/
def outsidePatterns (v r c : Nat) : Prop :=
  outsideFinders (symbolSize v) r c ∧ nearAlign v r c = false ∧
    ¬ ((r = 6 ∧ 8 ≤ c ∧ c ≤ symbolSize v - 9) ∨ (c = 6 ∧ 8 ≤ r ∧ r ≤ symbolSize v - 9))

/-- What the cascade of R169 leaves for these cells. -/
theorem layoutCell_outsidePatterns {v r c : Nat} (hv : 1 ≤ v ∧ v ≤ 40) (h : outsidePatterns v r c) :
    layoutCell v r c =
      if isFmtCell (symbolSize v) r c then (true, false)
      else if (r, c) = (4 * v + 9, 8) then (true, true)
      else (isVerCell v r c, false) := by
  have hrow : symbolSize v - 8 = 4 * v + 9 := rfl
  obtain ⟨hout, halign, htiming⟩ := h
  obtain ⟨hfinder, hsep⟩ := hout.values hv
  rw [← timingValue_isSome_iff, Bool.not_eq_true, Option.isSome_eq_false_iff, Option.isNone_iff_eq_none] at htiming
  cases hver : isVerCell v r c <;> simp [layoutCell, hfinder, hsep, alignValue_eq_none halign, htiming, hver, hrow]

theorem isFmtCell_iff_mem {size r c : Nat} : isFmtCell size r c = true ↔
    (r, c) ∈ (List.range 15).map fmtCellA ∨ (r, c) ∈ (List.range 15).map (fmtCellB size) := by
  simp only [isFmtCell, List.any_eq_true, Bool.or_eq_true, beq_iff_eq, List.mem_map, and_or_left, exists_or,
    eq_comm (a := (r, c))]

theorem isVerCell_iff_mem {v r c : Nat} : isVerCell v r c = true ↔ 7 ≤ v ∧
    ((r, c) ∈ (List.range 18).map (verCellA (symbolSize v)) ∨
      (r, c) ∈ (List.range 18).map (verCellB (symbolSize v))) := by
  simp only [isVerCell, Bool.and_eq_true, decide_eq_true_eq, List.any_eq_true, Bool.or_eq_true, beq_iff_eq,
    List.mem_map, and_or_left, exists_or, eq_comm (a := (r, c))]

/-- A format cell (R166). -/
theorem layoutCell_format {v r c : Nat} (hv : 1 ≤ v ∧ v ≤ 40) (h : isFmtCell (symbolSize v) r c = true) :
    layoutCell v r c = (true, false) := by
  obtain ⟨hs, -⟩ := symbolSize_range hv
  have hcells := (isFmtCell_iff hs).1 h
  have hcorner : inCorner (symbolSize v) r c = true := by
    simp only [inCorner, Bool.or_eq_true, Bool.and_eq_true, decide_eq_true_eq]
    omega
  have hout : outsidePatterns v r c :=
    ⟨by unfold outsideFinders; omega, nearAlign_eq_false hv (.inl hcorner), by omega⟩
  rw [layoutCell_outsidePatterns hv hout, if_pos h]

/-- The dark module (R167). -/
theorem layoutCell_darkModule {v : Nat} (hv : 1 ≤ v ∧ v ≤ 40) :
    layoutCell v (4 * v + 9) 8 = (true, true) := by
  obtain ⟨hs, -⟩ := symbolSize_range hv
  have hsize : symbolSize v = 4 * v + 17 := rfl
  have hout : outsidePatterns v (4 * v + 9) 8 :=
    ⟨by unfold outsideFinders; omega, nearAlign_eq_false hv (.inl (by simp [inCorner, hsize])), by omega⟩
  rw [layoutCell_outsidePatterns hv hout, if_neg (by rw [isFmtCell_iff hs]; omega), if_pos rfl]

/-- A version cell (R168). -/
theorem layoutCell_version {v r c : Nat} (hv : 1 ≤ v ∧ v ≤ 40) (h : isVerCell v r c = true) :
    layoutCell v r c = (true, false) := by
  obtain ⟨hs, -⟩ := symbolSize_range hv
  have hblock := isVerCell_eq hv ▸ h
  have hsize : symbolSize v = 4 * v + 17 := rfl
  have hcells := hblock
  simp only [inVersionBlock, Bool.and_eq_true, Bool.or_eq_true, decide_eq_true_eq] at hcells
  have hout : outsidePatterns v r c :=
    ⟨by unfold outsideFinders; omega, nearAlign_eq_false hv (.inr hblock), by omega⟩
  rw [layoutCell_outsidePatterns hv hout, if_neg (by rw [isFmtCell_iff hs]; omega),
    if_neg (by rw [Prod.mk.injEq]; omega), h]

/-- A cell in no region is a light data cell (the last line of R169). -/
theorem layoutCell_data {v r c : Nat} (hv : 1 ≤ v ∧ v ≤ 40) (hout : outsidePatterns v r c)
    (hfmt : ¬ isFmtCell (symbolSize v) r c = true) (hdark : (r, c) ≠ (4 * v + 9, 8))
    (hver : ¬ isVerCell v r c = true) : layoutCell v r c = (false, false) := by
  rw [layoutCell_outsidePatterns hv hout, if_neg hfmt, if_neg hdark, Bool.eq_false_of_not_eq_true hver]

theorem fmtCellB_list (v : Nat) : (List.range 15).map (fmtCellB (symbolSize v)) =
    [(8, symbolSize v - 1), (8, symbolSize v - 2), (8, symbolSize v - 3), (8, symbolSize v - 4),
      (8, symbolSize v - 5), (8, symbolSize v - 6), (8, symbolSize v - 7), (8, symbolSize v - 8),
      (symbolSize v - 7, 8), (symbolSize v - 6, 8), (symbolSize v - 5, 8), (symbolSize v - 4, 8),
      (symbolSize v - 3, 8), (symbolSize v - 2, 8), (symbolSize v - 1, 8)] := by
  simp [List.range_succ, fmtCellB, symbolSize]

/-- Settles O25: the forty rows are compared one by one; each region has its lemma. -/
theorem layoutRegionsHaveTheirValues : Obligations.LayoutRegionsHaveTheirValues := by
  refine ⟨by decide, fun v h1 h40 => ?_⟩
  have hv : 1 ≤ v ∧ v ≤ 40 := ⟨h1, h40⟩
  obtain ⟨hs, -⟩ := symbolSize_range hv
  intro size finders fmtA fmtB verA verB
  have hfmtA : (List.range 15).map fmtCellA = fmtA := rfl
  have hfmtB : (List.range 15).map (fmtCellB size) = fmtB := fmtCellB_list v
  have hverA : (List.range 18).map (verCellA size) = verA := rfl
  have hverB : (List.range 18).map (verCellB size) = verB := rfl
  have hfmt (r c : Nat) : isFmtCell size r c = true ↔ (r, c) ∈ fmtA ∨ (r, c) ∈ fmtB := by
    rw [isFmtCell_iff_mem, hfmtA, hfmtB]
  have hver (r c : Nat) : isVerCell v r c = true ↔ 7 ≤ v ∧ ((r, c) ∈ verA ∨ (r, c) ∈ verB) := by
    rw [isVerCell_iff_mem, hverA, hverB]
  have hcentre (a b : Nat) : (a, b) ∈ alignCentres v ↔ (a ∈ alignPos v ∧ b ∈ alignPos v) ∧
      (a, b) ≠ (6, 6) ∧ (a, b) ≠ (6, size - 7) ∧ (a, b) ≠ (size - 7, 6) := by
    simp [mem_alignCentres, size]
  refine ⟨rfl, hfmtA, hfmtB, hverA, hverB, ?finder, ?align, ?timing, ?format, layoutCell_darkModule hv, ?version, ?data⟩
  case finder => exact fun r0 c0 hp r c _ _ => ⟨layoutCell_finder hv hp, layoutCell_separator hv hp⟩
  case align =>
    exact fun a b ha hb h66 h6 h7 r c => layoutCell_align hv ((hcentre a b).2 ⟨⟨ha, hb⟩, h66, h6, h7⟩)
  case timing =>
    intro k hlo hhi
    have hparity : (6 + k) % 2 = k % 2 ∧ (k + 6) % 2 = k % 2 := by omega
    exact ⟨hparity.1 ▸ layoutCell_timing hv (.inl ⟨rfl, hlo, hhi⟩),
      hparity.2 ▸ layoutCell_timing hv (.inr ⟨rfl, hlo, hhi⟩)⟩
  case format => exact fun r c h => layoutCell_format hv ((hfmt r c).2 h)
  case version => exact fun h7 r c h => layoutCell_version hv ((hver r c).2 ⟨h7, h⟩)
  case data =>
    intro r c hr hc hfar halign hrow hcol hnA hnB hnDark hnVer
    have hnear : nearAlign v r c = false := by
      rw [← Bool.not_eq_true, nearAlign_iff]
      rintro ⟨a, b, hab, hcheb⟩
      obtain ⟨⟨ha, hb⟩, h66, h6, h7⟩ := (hcentre a b).1 hab
      exact absurd (halign a b ha hb h66 h6 h7) (by omega)
    refine layoutCell_data hv ⟨outsideFinders_of_far hs hr hc hfar, hnear, not_or.2 ⟨hrow, hcol⟩⟩ ?_ hnDark ?_
    · rw [hfmt]
      exact not_or.2 ⟨hnA, hnB⟩
    · rw [hver]
      exact fun ⟨h7, h⟩ => h.elim (hnVer h7).1 (hnVer h7).2

end Sys2Proof.Machine
end

section
/-! PROOFS (43_data_placer.md R190 to R194): the zigzag as a sequence of column pairs, the writes of PLACE as the cells
of the zigzag count them, and the two ends of PLACE. -/

namespace Sys2Proof.Machine

/-! ## The zigzag as a sequence of column pairs (R190) -/

/-- The right column of a column pair. Past the last pair it is 0, where the loop of R190 ends. -/
def zigzagRight (v pair : Nat) : Nat :=
  if pair ≤ 2 * v + 4 then symbolSize v - 1 - 2 * pair else symbolSize v - 2 - 2 * pair

/-- The row of a step in a column pair: upward in an even pair, downward in an odd one. -/
def zigzagRow (v pair k : Nat) : Nat := if pair % 2 = 0 then symbolSize v - 1 - k else k

/-- The two cells of a step in a column pair. -/
def zigzagStep (v pair k : Nat) : List (Nat × Nat) :=
  [(zigzagRow v pair k, zigzagRight v pair), (zigzagRow v pair k, zigzagRight v pair - 1)]

/-- The direction that R190 takes from the right column alternates from pair to pair, across column 6 too. -/
theorem zigzagRight_direction {v pair : Nat} (h : pair < 2 * v + 8) :
    (zigzagRight v pair + 1) &&& 2 = 0 ↔ pair % 2 = 0 := by
  have hbit : ∀ n : Nat, n &&& 2 = 0 ↔ n / 2 % 2 = 0 := fun n => by
    have hpow : n &&& 2 = (n.testBit 1).toNat * 2 ^ 1 := Nat.and_two_pow n 1
    rw [hpow, Nat.testBit_eq_decide_div_mod_eq]
    rcases Nat.mod_two_eq_zero_or_one (n / 2) with h | h <;> simp [h]
  rw [hbit, zigzagRight, symbolSize]
  split <;> omega

theorem zigzagPair_zigzagRight {v pair : Nat} (h : pair < 2 * v + 8) :
    zigzagPair (symbolSize v) (zigzagRight v pair) = (List.range (symbolSize v)).flatMap (zigzagStep v pair) := by
  simp only [zigzagPair, zigzagRight_direction h]
  rfl

theorem zigzagFrom_six (size fuel : Nat) : zigzagFrom size fuel 6 = zigzagFrom size fuel 5 := by
  cases fuel <;> rfl

/-- One turn of the loop of R190: after pair 2 V + 4 it steps over column 6. -/
theorem zigzagFrom_succ {v pair : Nat} (h : pair < 2 * v + 8) (fuel : Nat) :
    zigzagFrom (symbolSize v) (fuel + 1) (zigzagRight v pair) =
      zigzagPair (symbolSize v) (zigzagRight v pair) ++
        zigzagFrom (symbolSize v) fuel (zigzagRight v (pair + 1)) := by
  have hright : ¬ zigzagRight v pair < 1 ∧ zigzagRight v pair ≠ 6 := by
    unfold zigzagRight symbolSize
    split <;> omega
  have hnext : zigzagFrom (symbolSize v) fuel (zigzagRight v pair - 2) =
      zigzagFrom (symbolSize v) fuel (zigzagRight v (pair + 1)) := by
    unfold zigzagRight
    rcases Nat.lt_trichotomy pair (2 * v + 4) with hlt | rfl | hgt
    · rw [if_pos hlt.le, if_pos (Nat.succ_le_of_lt hlt)]
      rfl
    · have hcols : symbolSize v - 1 - 2 * (2 * v + 4) - 2 = 6 ∧ symbolSize v - 2 - 2 * (2 * v + 4 + 1) = 5 := by
        unfold symbolSize
        omega
      rw [if_pos le_rfl, if_neg (by omega), hcols.1, hcols.2, zigzagFrom_six]
    · rw [if_neg (by omega), if_neg (by omega)]
      rfl
  simp only [zigzagFrom, if_neg hright.1, if_neg hright.2, hnext]

/-- The loop of R190 with `n` column pairs left. -/
theorem zigzagFrom_zigzagRight {v n pair fuel : Nat} (hn : pair + n = 2 * v + 8) (hf : n ≤ fuel) :
    zigzagFrom (symbolSize v) fuel (zigzagRight v pair) =
      (List.range' pair n).flatMap fun p => zigzagPair (symbolSize v) (zigzagRight v p) := by
  induction n generalizing pair fuel with
  | zero =>
    have hend : zigzagRight v pair = 0 := by
      unfold zigzagRight symbolSize
      split <;> omega
    rw [hend]
    cases fuel <;> rfl
  | succ n ih =>
    obtain ⟨fuel, rfl⟩ := Nat.exists_eq_add_of_lt (Nat.lt_of_lt_of_le n.succ_pos hf)
    rw [Nat.zero_add, zigzagFrom_succ (by omega), ih (by omega) (by omega), List.range'_succ, List.flatMap_cons]

theorem zigzag_eq (v : Nat) : zigzag (symbolSize v) =
    (List.range (2 * v + 8)).flatMap fun p => (List.range (symbolSize v)).flatMap (zigzagStep v p) := by
  have hloop : zigzag (symbolSize v) =
      (List.range (2 * v + 8)).flatMap fun p => zigzagPair (symbolSize v) (zigzagRight v p) :=
    List.range_eq_range' ▸ zigzagFrom_zigzagRight (pair := 0) (by omega) (by unfold symbolSize; omega)
  rw [hloop]
  exact List.flatMap_congr fun p hp => zigzagPair_zigzagRight (List.mem_range.1 hp)

/-! ## The places, the length and the cells of the zigzag -/

/-- An entry of a list put together from pieces of one length. -/
theorem flatMap_range_getElem? {α : Type} {f : Nat → List α} {m n i j : Nat} (hlen : ∀ k, (f k).length = m)
    (hi : i < n) (hj : j < m) : ((List.range n).flatMap f)[m * i + j]? = (f i)[j]? := by
  induction n generalizing f i with
  | zero => omega
  | succ n ih =>
    rw [List.range_succ_eq_map, List.flatMap_cons, List.flatMap_map]
    cases i with
    | zero => rw [Nat.mul_zero, Nat.zero_add, List.getElem?_append_left (by rwa [hlen])]
    | succ i =>
      have hindex : m * (i + 1) + j = (f 0).length + (m * i + j) := by rw [hlen]; ring
      rw [hindex, List.getElem?_append_right (Nat.le_add_right _ _), Nat.add_sub_cancel_left]
      exact ih (fun k => hlen (k + 1)) (by omega)

theorem zigzagSteps_length (v pair : Nat) :
    ((List.range (symbolSize v)).flatMap (zigzagStep v pair)).length = 2 * symbolSize v := by
  simp [List.length_flatMap, zigzagStep, Nat.mul_comm]

theorem zigzag_getElem? {v pair k i : Nat} (hp : pair < 2 * v + 8) (hk : k < symbolSize v) (hi : i < 2) :
    (zigzag (symbolSize v))[2 * symbolSize v * pair + (2 * k + i)]? = (zigzagStep v pair k)[i]? := by
  rw [zigzag_eq, flatMap_range_getElem? (zigzagSteps_length v) hp (by omega)]
  exact flatMap_range_getElem? (fun _ => rfl) hk hi

theorem zigzag_length (v : Nat) : (zigzag (symbolSize v)).length = symbolSize v * (symbolSize v - 1) := by
  have hpairs : symbolSize v - 1 = 2 * (2 * v + 8) := by unfold symbolSize; omega
  rw [zigzag_eq, List.length_flatMap]
  simp only [zigzagSteps_length, hpairs, List.map_const', List.sum_replicate, List.length_range, smul_eq_mul]
  ring

/-- The column pairs are all columns but column 6. -/
theorem exists_zigzagRight_iff {v c : Nat} :
    (∃ p < 2 * v + 8, c = zigzagRight v p ∨ c = zigzagRight v p - 1) ↔ c < symbolSize v ∧ c ≠ 6 := by
  unfold zigzagRight symbolSize
  constructor
  · rintro ⟨p, hp, h⟩
    split at h <;> omega
  · rintro ⟨hc, h6⟩
    rcases Nat.lt_or_ge 6 c with hlt | hge
    · refine ⟨(4 * v + 16 - c) / 2, by omega, ?_⟩
      rw [if_pos (by omega)]
      omega
    · refine ⟨(4 * v + 15 - c) / 2, by omega, ?_⟩
      rw [if_neg (by omega)]
      omega

/-- The steps of a column pair are all rows. -/
theorem exists_zigzagRow_iff {v r : Nat} (p : Nat) :
    (∃ k < symbolSize v, r = zigzagRow v p k) ↔ r < symbolSize v := by
  unfold zigzagRow
  split
  · exact ⟨fun ⟨k, hk, h⟩ => by omega, fun h => ⟨symbolSize v - 1 - r, by omega, by omega⟩⟩
  · exact ⟨fun ⟨k, hk, h⟩ => h ▸ hk, fun h => ⟨r, h, rfl⟩⟩

theorem mem_zigzag {v r c : Nat} :
    (r, c) ∈ zigzag (symbolSize v) ↔ r < symbolSize v ∧ c < symbolSize v ∧ c ≠ 6 := by
  have hstep (p k : Nat) : (r, c) ∈ zigzagStep v p k ↔
      r = zigzagRow v p k ∧ (c = zigzagRight v p ∨ c = zigzagRight v p - 1) := by
    simp [zigzagStep, and_or_left]
  rw [zigzag_eq, ← exists_zigzagRight_iff]
  simp only [List.mem_flatMap, List.mem_range, hstep]
  constructor
  · rintro ⟨p, hp, k, hk, hr, hc⟩
    exact ⟨(exists_zigzagRow_iff p).1 ⟨k, hk, hr⟩, p, hp, hc⟩
  · rintro ⟨hr, p, hp, hc⟩
    obtain ⟨k, hk, hr⟩ := (exists_zigzagRow_iff p).2 hr
    exact ⟨p, hp, k, hk, hr, hc⟩

/-- The zigzag has as many places as cells, so it visits none twice. -/
theorem zigzag_nodup (v : Nat) : (zigzag (symbolSize v)).Nodup := by
  have hcells : (zigzag (symbolSize v)).toFinset =
      Finset.range (symbolSize v) ×ˢ (Finset.range (symbolSize v)).erase 6 := by
    ext ⟨r, c⟩
    rw [List.mem_toFinset, mem_zigzag]
    simp [and_comm]
  have h6 : 6 ∈ Finset.range (symbolSize v) := by simp [symbolSize]
  rw [← Multiset.coe_nodup, ← Multiset.toFinset_card_eq_card_iff_nodup]
  change (zigzag (symbolSize v)).toFinset.card = (zigzag (symbolSize v)).length
  rw [hcells, Finset.card_product, Finset.card_erase_of_mem h6, Finset.card_range, zigzag_length]

/-- Settles O27: the zigzag is the sequence of its steps, pair by pair. -/
theorem zigzagVisitsEachCellOnce : Obligations.ZigzagVisitsEachCellOnce := by
  intro v _ _
  exact ⟨fun pair k hp hk => ⟨zigzag_getElem? (i := 0) hp hk (by omega), zigzag_getElem? (i := 1) hp hk (by omega)⟩,
    zigzag_length v, zigzag_nodup v, fun _ _ => mem_zigzag⟩

/-! ## The writes of PLACE (R192, R193) -/

/-- After a stretch of the path, as many bits have been placed as it has data cells, up to the last bit. -/
theorem placeWrites_append (f : Grid) (cw : List Byte) {total n : Nat} (path rest : List (Nat × Nat))
    (hn : n ≤ total) : placeWrites f cw total (path ++ rest) n =
      placeWrites f cw total path n ++ placeWrites f cw total rest (min (n + dataCellsIn f path) total) := by
  induction path generalizing n with
  | nil => simp [placeWrites, dataCellsIn, Nat.min_eq_left hn]
  | cons p ps ih =>
    simp only [List.cons_append, placeWrites]
    cases hp : f.cell p.1 p.2 with
    | true =>
      have hcount : dataCellsIn f (p :: ps) = dataCellsIn f ps := by simp [dataCellsIn, hp]
      rw [if_pos rfl, if_pos rfl, ih hn, hcount]
    | false =>
      have hcount : dataCellsIn f (p :: ps) = dataCellsIn f ps + 1 := by simp [dataCellsIn, hp]
      rw [if_neg Bool.false_ne_true, if_neg Bool.false_ne_true, hcount]
      by_cases hlt : n < total
      · rw [if_pos hlt, if_pos hlt, ih hlt, Nat.succ_add_eq_add_succ, List.cons_append]
      · have hend : n = total := by omega
        rw [if_neg hlt, if_neg hlt, ih hn, Nat.min_eq_right (by omega), Nat.min_eq_right (by omega), List.cons_append]

/-- The write to a data cell with `n` of the bits placed. -/
theorem placeWrites_data {f : Grid} (cw : List Byte) (total n : Nat) {r c : Nat} (path : List (Nat × Nat))
    (hf : f.cell r c = false) : ∃ n', placeWrites f cw total ((r, c) :: path) n =
      (cellKey r c, if n < total then streamBit cw n else false) :: placeWrites f cw total path n' := by
  simp only [placeWrites, hf, Bool.false_eq_true, if_false]
  split
  · exact ⟨n + 1, rfl⟩
  · exact ⟨n, rfl⟩

/-- What PLACE writes to a data cell of the zigzag. -/
theorem read_placedCells {size total r c : Nat} {f : Grid} (cw : List Byte) {pre post : List (Nat × Nat)}
    (hz : zigzag size = pre ++ (r, c) :: post) (hcols : ∀ p ∈ zigzag size, p.2 < 177) (hnodup : (zigzag size).Nodup)
    (hf : f.cell r c = false) : Memory.read (placedCells size total f cw) (cellKey r c) =
      some (if dataCellsIn f pre < 8 * total then streamBit cw (dataCellsIn f pre) else false) := by
  have hpost : (r, c) ∉ post := by
    rw [hz] at hnodup
    exact (List.nodup_cons.1 (List.nodup_append.1 hnodup).2.1).1
  rw [hz] at hcols
  obtain ⟨n', hhere⟩ := placeWrites_data cw (8 * total) (min (0 + dataCellsIn f pre) (8 * total)) post hf
  have hlast : ∀ w ∈ placeWrites f cw (8 * total) post n', w.1 ≠ cellKey r c := by
    intro w hw hkey
    obtain ⟨⟨r', c'⟩, hp, -, hw⟩ := mem_placeWrites hw
    obtain ⟨rfl, rfl⟩ := cellKey_inj (hcols (r', c') (by simp [hp])) (hcols (r, c) (by simp)) (hw.symm.trans hkey)
    exact hpost hp
  rw [placedCells, hz, placeWrites_append f cw pre _ (Nat.zero_le _), hhere, Memory.writeAll_append,
    Memory.writeAll_cons, Memory.read_writeAll_of_not_mem _ hlast, Memory.read_write_same, Nat.zero_add]
  by_cases hroom : dataCellsIn f pre < 8 * total
  · rw [Nat.min_eq_left hroom.le]
  · rw [Nat.min_eq_right (by omega), if_neg (lt_irrefl _), if_neg hroom]

/-- PLACE writes no other cell. -/
theorem read_placedCells_eq_none {size r c : Nat} (total : Nat) {f : Grid} (cw : List Byte) (hc : c < 177)
    (hcols : ∀ p ∈ zigzag size, p.2 < 177) (h : (r, c) ∈ zigzag size → f.cell r c ≠ false) :
    Memory.read (placedCells size total f cw) (cellKey r c) = none := by
  rw [placedCells, Memory.read_writeAll_of_not_mem, Memory.read_nil]
  intro w hw hkey
  obtain ⟨⟨r', c'⟩, hp, hf, hw⟩ := mem_placeWrites hw
  obtain ⟨rfl, rfl⟩ := cellKey_inj (hcols (r', c') hp) hc (hw.symm.trans hkey)
  exact h hp hf

/-! ## The two ends of PLACE (R192, R194) -/

/-- Settles O16: the capacity check comes before CWB is read. -/
theorem placeReportsOverflow : Obligations.PlaceReportsOverflow := by
  intro s f hv hf hroom
  rw [← freeCells_eq_dataCellsIn hf.1] at hroom
  have hread := readSquare_of_holdsGrid hf
  suffices h : performPlace s = .error s .layoutOverflow from congrArg complete h
  obtain ⟨hu, -⟩ | ⟨-, hnone, -⟩ | ⟨-, g, hg, hends⟩ := performPlace_cases s
  · simp [hv] at hu
  · simp [hread] at hnone
  · obtain rfl := Option.some.inj (hread.symm.trans hg)
    obtain ⟨-, h⟩ | ⟨hle, -⟩ | ⟨hle, -⟩ := hends
    · exact h
    · omega
    · omega

/-- Settles O28: MOD reads through the cells PLACE writes. -/
theorem placeCompletes : Obligations.PlaceCompletes := by
  intro s f cw hv hf hroom hl hcw
  rw [← freeCells_eq_dataCellsIn hf.1] at hroom
  have hcols : ∀ p ∈ zigzag s.side, p.2 < 177 := fun p hp =>
    (zigzag_lt (side_range hv).1 hp).2.trans_le (side_range hv).2
  refine ⟨Memory.overlay (placedCells s.side s.total f cw) s.modArr,
    congrArg complete (performPlace_done hv (readSquare_of_holdsGrid hf) hroom hl hcw), ?_, ?_⟩
  · intro r c pre post hz hdata
    rw [Memory.read_overlay, read_placedCells cw hz hcols (zigzag_nodup _) hdata]
    rfl
  · intro r c hc hother
    rw [Memory.read_overlay, read_placedCells_eq_none s.total cw hc hcols, Option.none_or]
    intro hmem hdata
    obtain ⟨hr, hside, h6⟩ := mem_zigzag.1 hmem
    exact hother ⟨hr, hside, h6, hdata⟩

end Sys2Proof.Machine
end

section
/-! PROOFS (44_mask_selector.md R210 to R212): the mask functions, and APPLYMASK once and twice. -/

namespace Sys2Proof.Machine

/-! ## The mask functions (R210) -/

/-- Settles O29: each function is the test of its condition. -/
theorem maskFunctions : Obligations.MaskFunctions := fun _ _ =>
  ⟨beq_iff_eq, beq_iff_eq, beq_iff_eq, beq_iff_eq, beq_iff_eq, beq_iff_eq, beq_iff_eq, beq_iff_eq⟩

/-! ## APPLYMASK (R211, R212) -/

/-- A command that ends after a write of MOD alone. The array is a variable here, so that the end of a command is
unfolded without its writes. -/
theorem exec_of_done_setMod {s : State} {i : Instr} {arr : Memory Bool} (h : performInstr i s = .done (s.setMod arr)) :
    exec i s = .next { s with modArr := arr, status := ⟨false, true, 0#3, s.status.drop⟩ } := by
  rw [exec_eq_complete, h]
  rfl

/-- R211 in the form of the statements: a cell is masked where FUN is 0. -/
theorem masked_cell_decide {size : Nat} {f g : Grid} (hf : f.isSquare size) (hg : g.isSquare size) (m : BitVec 3)
    {r c : Nat} (hr : r < size) (hc : c < size) :
    (masked f g m).cell r c = (g.cell r c ^^ (decide (f.cell r c = false) && maskFn m r c)) := by
  rw [masked_cell hf hg m hr hc, Bool.decide_eq_false]

/-- Settles O30: MOD reads through the masked square. -/
theorem applymaskCompletes : Obligations.ApplymaskCompletes := by
  intro s m g f hv hg hf
  have hside := (side_range hv).2
  have hsq := masked_isSquare hf.1 hg.1 m
  have hdone := performApplymask_done m hv (readSquare_of_holdsGrid hg) (readSquare_of_holdsGrid hf)
  refine ⟨_, exec_of_done_setMod hdone, fun r c hr hc => ?_, fun r c hc hout => ?_⟩
  · rw [read_writeSquare hside hsq _ (hc.trans_le hside), if_pos ⟨hr, hc⟩, masked_cell_decide hf.1 hg.1 m hr hc]
  · rw [read_writeSquare hside hsq _ hc, if_neg hout]

/-- R211: a mask is its own inverse. -/
theorem masked_masked {size : Nat} {f g : Grid} (hf : f.isSquare size) (hg : g.isSquare size) (m : BitVec 3) :
    masked f (masked f g m) m = g := by
  have hsq := masked_isSquare hf hg m
  refine Grid.ext_of_isSquare (masked_isSquare hf hsq m) hg fun r c hr hc => ?_
  rw [masked_cell hf hsq m hr hc, masked_cell hf hg m hr hc, Bool.xor_assoc, Bool.xor_self, Bool.xor_false]

/-- The square that was read, written back over any other, restores the array. -/
theorem writeSquare_writeSquare_of_readSquare {size : Nat} {g g' : Grid} {m : Memory Bool} (hs : size ≤ 177)
    (hm : Memory.wf Config.gridCells m = true) (hg : readSquare m size = some g) (hg' : g'.isSquare size) :
    writeSquare (writeSquare m g') g = m := by
  obtain ⟨hsq, hcells⟩ := (readSquare_eq_some_iff m size g).1 hg
  refine gridArray_ext (wf_writeSquare hs hsq (wf_writeSquare hs hg' hm)) hm fun r c hc => ?_
  rw [read_writeSquare hs hsq _ hc]
  split
  case isTrue h => exact (hcells r c h.1 h.2).symm
  case isFalse h => rw [read_writeSquare hs hg' _ hc, if_neg h]

/-- APPLYMASK after a command that wrote MOD. -/
theorem exec_applymask_stage {s : State} {arr : Memory Bool} {f g : Grid} (m : BitVec 3) (hv : s.cfg.supported = true)
    (hg : readSquare arr s.side = some g) (hf : readSquare s.funArr s.side = some f) :
    exec (.applymask m) ((s.setMod arr).ended 0#3) =
      .next ((s.setMod (writeSquare arr (masked f g m))).ended 0#3) :=
  congrArg complete (performApplymask_done (s := (s.setMod arr).ended 0#3) m hv hg hf)

/-- Settles O31: the second time the masked square is read, and the mask gives back the square of before. -/
theorem applymaskTwiceRestores : Obligations.ApplymaskTwiceRestores := by
  intro s t m hwf h herr
  obtain ⟨-, -, hmod, -⟩ := memWf_iff.1 hwf
  obtain ⟨u, hu, rfl⟩ | ⟨u, e, -, rfl⟩ := (complete_eq_next_iff (performApplymask m s) t).1 h
  · obtain ⟨-, hp⟩ | ⟨-, -, hp⟩ | ⟨hv, g, f, hg, hf, hp⟩ := performApplymask_cases m s
    · simp [hp] at hu
    · simp [hp] at hu
    · obtain rfl := CmdResult.done.inj (hp.symm.trans hu)
      have hside := (side_range hv).2
      have hgsq := ((readSquare_eq_some_iff _ _ g).1 hg).1
      have hfsq := ((readSquare_eq_some_iff _ _ f).1 hf).1
      have hsq := masked_isSquare hfsq hgsq m
      have hsecond := exec_applymask_stage m hv (readSquare_writeSquare hside hsq s.modArr) hf
      rw [masked_masked hfsq hgsq, writeSquare_writeSquare_of_readSquare hside hmod hg hsq] at hsecond
      exact ⟨_, hsecond, rfl, rfl⟩
  · exact absurd herr e.code_ne_zero

end Sys2Proof.Machine
end

section
/-! PROOFS (44_mask_selector.md R213 to R217): the four parts of the penalty, each as what it counts in the square. -/

namespace Sys2Proof.Machine

/-! ## Runs (R214) -/

theorem lineOfRuns_runLengthsFrom (cur : Bool) (len : Nat) (l : List Bool) :
    lineOfRuns cur (runLengthsFrom cur len l) = List.replicate len cur ++ l := by
  induction l generalizing cur len with
  | nil => rfl
  | cons b bs ih =>
    rw [runLengthsFrom]
    split
    case isTrue h => rw [ih, h, List.replicate_succ', List.append_assoc]; rfl
    case isFalse h =>
      rw [lineOfRuns, ← Bool.eq_not.2 h, ih]
      rfl

theorem runLengthsFrom_pos {len : Nat} (hlen : 1 ≤ len) (cur : Bool) (l : List Bool) :
    ∀ k ∈ runLengthsFrom cur len l, 1 ≤ k := by
  induction l generalizing cur len with
  | nil => simpa [runLengthsFrom] using hlen
  | cons b bs ih =>
    rw [runLengthsFrom]
    split
    · exact ih (by omega) cur
    · exact List.forall_mem_cons.2 ⟨hlen, ih le_rfl b⟩

/-- Only the runs of at least 5 cells add to N1. -/
theorem sum_runScore (ks : List Nat) :
    (ks.map runScore).sum = ((ks.filter fun k => decide (5 ≤ k)).map fun k => 3 + (k - 5)).sum := by
  induction ks with
  | nil => rfl
  | cons k ks ih =>
    by_cases h : 5 ≤ k <;> simp [runScore, h, ih]

/-- Settles O32: the runs rebuild the line, and N1 is taken over the rows and the columns. -/
theorem runLengthsAreMaximalRuns : Obligations.RunLengthsAreMaximalRuns :=
  ⟨fun b l => ⟨lineOfRuns_runLengthsFrom b 1 l, runLengthsFrom_pos le_rfl b l⟩, fun size g => by
    simp only [penaltyRuns, sum_runScore]
    rfl⟩

/-! ## Blocks (R215) -/

theorem Grid.getD_length {g : Grid} {size r : Nat} (h : g.isSquare size) (hr : r < size) :
    (g.getD r []).length = size := by
  obtain ⟨row, hrow, hlen⟩ := Grid.isSquare_row h hr
  rw [List.getD, hrow, Option.getD_some, hlen]

theorem equalWindows_eq_countP {n : Nat} {a b : List Bool} (ha : a.length = n + 1) (hb : b.length = n + 1) :
    equalWindows a b = (List.range n).countP fun c => decide (a.getD c false = a.getD (c + 1) false ∧
      a.getD c false = b.getD c false ∧ a.getD c false = b.getD (c + 1) false) := by
  induction n generalizing a b with
  | zero =>
    obtain ⟨x, rfl⟩ := List.length_eq_one_iff.1 ha
    simp [equalWindows]
  | succ n ih =>
    match a, b, ha, hb with
    | x :: y :: as, z :: w :: bs, ha, hb =>
      rw [equalWindows, ih (Nat.succ.inj ha) (Nat.succ.inj hb), List.range_succ_eq_map, List.countP_cons,
        List.countP_map, Nat.add_comm]
      simp [Function.comp_def]

theorem equalBlocks_eq_sum {n : Nat} {g : Grid} (hg : g.length = n + 1) :
    equalBlocks g = ((List.range n).map fun r => equalWindows (g.getD r []) (g.getD (r + 1) [])).sum := by
  induction n generalizing g with
  | zero =>
    obtain ⟨row, rfl⟩ := List.length_eq_one_iff.1 hg
    rfl
  | succ n ih =>
    match g, hg with
    | x :: y :: rows, hg =>
      rw [equalBlocks, ih (Nat.succ.inj hg), List.range_succ_eq_map, List.map_cons, List.map_map, List.sum_cons]
      rfl

/-- Settles O33: the windows are counted row by row. -/
theorem blocksCountEqualWindows : Obligations.BlocksCountEqualWindows := by
  intro size g hs hg
  obtain ⟨n, rfl⟩ := Nat.exists_eq_add_of_le' (Nat.le_of_succ_le hs)
  rw [penaltyBlocks, equalBlocks_eq_sum hg.1, Nat.add_sub_cancel, squareCells, List.countP_flatMap]
  congr 2
  refine List.map_congr_left fun r hr => ?_
  have hr := List.mem_range.1 hr
  rw [equalWindows_eq_countP (Grid.getD_length hg (by omega)) (Grid.getD_length hg (by omega)), Function.comp_apply,
    List.countP_map]
  rfl

/-! ## Finder-like patterns (R216) -/

/-- A pattern stands at the head of a line when the line begins with its cells. -/
theorem isPrefixOf_iff_range_map {k : Nat} {q l : List Bool} (hq : q.length = k) (hl : k ≤ l.length) :
    q.isPrefixOf l = true ↔ (List.range k).map (fun i => l.getD i false) = q := by
  have htake : (List.range k).map (fun i => l.getD i false) = l.take k := by
    refine List.ext_getElem (by simp [hl]) fun i h₁ _ => ?_
    have hi : i < l.length := by rw [List.length_map, List.length_range] at h₁; omega
    simp [hi]
  rw [htake, List.isPrefixOf_iff_prefix, List.prefix_iff_eq_take, hq, eq_comm]

theorem occurrences_eq_countP {k : Nat} {q : List Bool} (hq : q.length = k + 1) (l : List Bool) :
    occurrences q l = (List.range (l.length - k)).countP fun p =>
      decide ((List.range (k + 1)).map (fun i => l.getD (p + i) false) = q) := by
  induction l with
  | nil => simp [occurrences]
  | cons b bs ih =>
    rw [occurrences, ih, List.length_cons]
    rcases Nat.lt_or_ge bs.length k with hlt | hge
    · have hno : ¬ q.isPrefixOf (b :: bs) = true := fun h => by
        have := (List.isPrefixOf_iff_prefix.1 h).length_le
        rw [hq, List.length_cons] at this
        omega
      rw [if_neg hno, Nat.sub_eq_zero_of_le hlt.le, Nat.sub_eq_zero_of_le hlt]
      rfl
    · have hfirst := isPrefixOf_iff_range_map (l := b :: bs) hq (Nat.succ_le_succ hge)
      have hshift (p i : Nat) : (b :: bs).getD (p + 1 + i) false = bs.getD (p + i) false := by
        rw [Nat.add_right_comm, List.getD_cons_succ]
      rw [Nat.succ_sub hge, List.range_succ_eq_map (n := bs.length - k), List.countP_cons, List.countP_map,
        Nat.add_comm]
      simp only [Function.comp_def, hshift, Nat.zero_add, decide_eq_true_eq, hfirst]

theorem Grid.eq_rows (g : Grid) : g = (List.range g.length).map fun r => g.getD r [] :=
  List.ext_getElem (by simp) fun r h _ => by simp [h]

/-- The places of the lines of one direction, as line and first cell, at which 11 cells stand wholly within it. -/
def linePlaces (size : Nat) : List (Nat × Nat) :=
  (List.range size).flatMap fun l => (List.range (size - 10)).map fun p => (l, p)

/-- The patterns of one kind, counted over the rows and over the columns. -/
theorem sum_occurrences_gridLines {size : Nat} {g : Grid} (hg : g.isSquare size) {q : List Bool}
    (hq : q.length = 11) : ((gridLines size g).map (occurrences q)).sum =
      (linePlaces size).countP (fun x => decide ((List.range 11).map (fun i => g.cell x.1 (x.2 + i)) = q)) +
      (linePlaces size).countP (fun x => decide ((List.range 11).map (fun i => g.cell (x.2 + i) x.1) = q)) := by
  have hrows : (g.map (occurrences q)).sum = ((List.range size).map fun l => occurrences q (g.getD l [])).sum := by
    conv_lhs => rw [Grid.eq_rows g, hg.1, List.map_map]
    rfl
  rw [gridLines, List.map_append, List.sum_append, hrows, columns, List.map_map, linePlaces,
    List.countP_flatMap, List.countP_flatMap]
  congr 2 <;> refine List.map_congr_left fun l hl => ?_
  · rw [occurrences_eq_countP hq, Grid.getD_length hg (List.mem_range.1 hl), Function.comp_apply, List.countP_map]
    rfl
  · have hcell (i : Nat) : (g.map fun row => row.getD l false).getD i false = g.cell i l :=
      List.getD_map (l := g) (d := []) (fun row : List Bool => row.getD l false)
    rw [Function.comp_apply, occurrences_eq_countP hq, List.length_map, hg.1, Function.comp_apply, List.countP_map]
    simp only [hcell]
    rfl

/-- Settles O34: each of the two patterns is counted over the rows and over the columns. -/
theorem finderCountsOccurrences : Obligations.FinderCountsOccurrences := by
  intro size g _ hg
  rw [penaltyFinder, sum_occurrences_gridLines hg (q := finderLike1) rfl,
    sum_occurrences_gridLines hg (q := finderLike2) rfl]
  rfl

/-! ## Balance (R217) -/

/-- The quotient rounded up, less 1, is the greatest number of steps of `total` that stay below `off`. -/
theorem ceilDiv_bounds {off total : Nat} (ht : 0 < total) (ho : 0 < off) :
    ((off + total - 1) / total - 1) * total < off ∧ off ≤ ((off + total - 1) / total - 1 + 1) * total := by
  have hq : 0 < (off + total - 1) / total := Nat.div_pos (by omega) ht
  obtain ⟨k, hk⟩ := Nat.exists_eq_add_one_of_ne_zero hq.ne'
  have hmod := Nat.div_add_mod (off + total - 1) total
  have hlt := Nat.mod_lt (off + total - 1) ht
  rw [hk, Nat.mul_comm, Nat.succ_mul] at hmod
  rw [hk, Nat.add_sub_cancel, Nat.succ_mul]
  omega

theorem darkCells_eq_countP {g : Grid} {size : Nat} (h : g.isSquare size) :
    darkCells g = (squareCells size).countP fun p => g.cell p.1 p.2 := by
  conv_lhs => rw [Grid.eq_table_of_isSquare h]
  simp [darkCells, squareCells, List.countP_flatMap, Function.comp_def]

/-- Settles O35: an odd total is never in balance, so the distance from it is not 0. -/
theorem balanceStepsOfDarkProportion : Obligations.BalanceStepsOfDarkProportion := by
  refine ⟨fun dark total hodd hle => ?_, fun size g hg => by rw [penaltyBalance, darkCells_eq_countP hg]⟩
  have hsteps := ceilDiv_bounds (off := (20 * dark - 10 * total) + (10 * total - 20 * dark)) (total := total)
    (by omega) (by omega)
  intro k off
  change k * total < _ ∧ _ ≤ (k + 1) * total at hsteps
  have hk : k ≤ 9 := by
    by_contra hgt
    have := Nat.mul_le_mul_right total (Nat.lt_of_not_le hgt)
    omega
  refine ⟨?_, ?_, hk⟩ <;> rw [Nat.mul_assoc] <;> omega

end Sys2Proof.Machine
end

section
/-! PROOFS (44_mask_selector.md R218): the bounds of the four parts of the penalty, and SCORE. -/

namespace Sys2Proof.Machine

/-! ## The bounds (R218) -/

theorem lineOfRuns_length (b : Bool) (ks : List Nat) : (lineOfRuns b ks).length = ks.sum := by
  induction ks generalizing b with
  | nil => rfl
  | cons k ks ih => rw [lineOfRuns, List.length_append, List.length_replicate, ih, List.sum_cons]

theorem runLengths_sum (l : List Bool) : (runLengths l).sum = l.length := by
  cases l with
  | nil => rfl
  | cons b l => rw [← lineOfRuns_length b, (runLengthsAreMaximalRuns.1 b l).1]

/-- A run that adds anything adds 2 less than its length. -/
theorem sum_runScore_le (ks : List Nat) : (ks.map runScore).sum ≤ ks.sum - 2 := by
  induction ks with
  | nil => exact le_rfl
  | cons k ks ih =>
    have hk : runScore k ≤ k - 2 := by
      unfold runScore
      split <;> omega
    rw [List.map_cons, List.sum_cons, List.sum_cons]
    omega

theorem gridLines_length {size : Nat} {g : Grid} (hg : g.isSquare size) : (gridLines size g).length = 2 * size := by
  simp [gridLines, columns, hg.1, Nat.two_mul]

theorem length_of_mem_gridLines {size : Nat} {g : Grid} (hg : g.isSquare size) :
    ∀ l ∈ gridLines size g, l.length = size := by
  intro l hl
  rcases List.mem_append.1 hl with hrow | hcol
  · exact hg.2 l hrow
  · obtain ⟨c, -, rfl⟩ := List.mem_map.1 hcol
    rw [List.length_map, hg.1]

/-- N1 of a square: on each line the runs add up to its length. -/
theorem penaltyRuns_le {size : Nat} {g : Grid} (hg : g.isSquare size) :
    penaltyRuns size g ≤ 2 * size * (size - 2) := by
  have hline : ∀ x ∈ (gridLines size g).map fun l => ((runLengths l).map runScore).sum, x ≤ size - 2 := by
    rintro _ hx
    obtain ⟨l, hl, rfl⟩ := List.mem_map.1 hx
    rw [← length_of_mem_gridLines hg l hl, ← runLengths_sum]
    exact sum_runScore_le _
  have hsum := List.sum_le_card_nsmul _ _ hline
  rwa [List.length_map, gridLines_length hg] at hsum

theorem squareCells_length (n : Nat) : (squareCells n).length = n * n := by
  simp [squareCells]

/-- N2 of a square: there are no more windows than places for them. -/
theorem penaltyBlocks_le {size : Nat} {g : Grid} (hs : 2 ≤ size) (hg : g.isSquare size) :
    penaltyBlocks g ≤ 3 * ((size - 1) * (size - 1)) := by
  rw [blocksCountEqualWindows size g hs hg, ← squareCells_length]
  exact Nat.mul_le_mul_left 3 List.countP_le_length

/-- N3 of a square: there are no more patterns of a kind than places for them. -/
theorem penaltyFinder_le {size : Nat} {g : Grid} (hg : g.isSquare size) :
    penaltyFinder size g ≤ 160 * (size * (size - 10)) := by
  have hplaces (P : Nat × Nat → Bool) : (linePlaces size).countP P ≤ size * (size - 10) :=
    List.countP_le_length.trans (by simp [linePlaces])
  have hkind (q : List Bool) (hq : q.length = 11) :
      ((gridLines size g).map (occurrences q)).sum ≤ size * (size - 10) + size * (size - 10) := by
    rw [sum_occurrences_gridLines hg hq]
    exact Nat.add_le_add (hplaces _) (hplaces _)
  have h1 := hkind finderLike1 rfl
  have h2 := hkind finderLike2 rfl
  unfold penaltyFinder
  omega

/-- N4 of a square of odd side: no proportion is more than 10 steps from a half. -/
theorem penaltyBalance_le {size : Nat} {g : Grid} (hodd : size % 2 = 1) (hg : g.isSquare size) :
    penaltyBalance size g ≤ 90 := by
  obtain ⟨hsteps, hcells⟩ := balanceStepsOfDarkProportion
  have harea : size * size % 2 = 1 := by rw [Nat.mul_mod, hodd]
  have hdark : (squareCells size).countP (fun p => g.cell p.1 p.2) ≤ size * size :=
    squareCells_length size ▸ List.countP_le_length
  obtain ⟨-, -, hk⟩ := hsteps _ _ harea hdark
  rw [hcells size g hg]
  exact Nat.mul_le_mul_left 10 hk

/-- Settles O36: the parts of the largest symbol, of side 177, bound those of every symbol. -/
theorem penaltyIsBounded : Obligations.PenaltyIsBounded := by
  intro v g h1 h40 hg
  obtain ⟨hlo, hhi⟩ := symbolSize_range ⟨h1, h40⟩
  have hodd : symbolSize v % 2 = 1 := by unfold symbolSize; omega
  have hn1 := (penaltyRuns_le hg).trans
    (Nat.mul_le_mul (Nat.mul_le_mul_left 2 hhi) (Nat.sub_le_sub_right hhi 2))
  have hn2 := (penaltyBlocks_le (by omega) hg).trans
    (Nat.mul_le_mul_left 3 (Nat.mul_le_mul (Nat.sub_le_sub_right hhi 1) (Nat.sub_le_sub_right hhi 1)))
  have hn3 := (penaltyFinder_le hg).trans
    (Nat.mul_le_mul_left 160 (Nat.mul_le_mul hhi (Nat.sub_le_sub_right hhi 10)))
  have hn4 := penaltyBalance_le hodd hg
  unfold penalty
  omega

/-! ## SCORE (R218) -/

theorem performScore_done {s : State} {g : Grid} (h : s.cfg.supported = true)
    (hg : readSquare s.modArr s.side = some g) : performScore s = .done (scored s s.side g) := by
  have hp : performScore s = withRead (readSquare s.modArr s.side) fun g => .done (scored s s.side g) :=
    withVersion_of_supported h _
  rw [hp, hg, withRead_some]

/-- Settles O37: a penalty below 5 000 000 fits the registers. -/
theorem scoreCompletes : Obligations.ScoreCompletes := by
  intro s g hv hg
  obtain ⟨h1, h40⟩ := supported_range hv
  obtain ⟨-, -, -, -, hbound⟩ := penaltyIsBounded _ g h1 h40 hg.1
  change penalty s.side g < 5000000 at hbound
  refine ⟨_, _, _, _, _, congrArg complete (performScore_done hv (readSquare_of_holdsGrid hg)), ?_⟩
  unfold penalty at hbound ⊢
  simp only [scored, State.setParts_part1, State.setParts_part2, State.setParts_part3, State.setParts_part4,
    State.setParts_ptotal, BitVec.toNat_add, BitVec.toNat_ofNat]
  omega

end Sys2Proof.Machine
end

section
/-! PROOFS (44_mask_selector.md R219, R220): the format and version cells read back, and WRFMT and WRVER. -/

namespace Sys2Proof.Machine

/-! ## Words written in two copies (R219, R220) -/

section
variable {n : Nat} {a b : Nat → Nat × Nat} {val : Nat → Bool} {ws : List (Nat × Bool)}
  (hws : ∀ x, x ∈ ws ↔ ∃ i, i < n ∧
    (x = (cellKey (a i).1 (a i).2, val i) ∨ x = (cellKey (b i).1 (b i).2, val i)))
  (hcols : ∀ i < n, (a i).2 < 177 ∧ (b i).2 < 177)
include hws hcols

/-- A write of the word goes to a copy of its bit. -/
theorem exists_copy_of_write {x : Nat × Bool} {r c : Nat} (hx : x ∈ ws) (hc : c < 177) (hkey : x.1 = cellKey r c) :
    ∃ i, i < n ∧ ((r, c) = a i ∨ (r, c) = b i) ∧ x.2 = val i := by
  obtain ⟨i, hi, rfl | rfl⟩ := (hws x).1 hx
  · obtain ⟨hr, hc⟩ := cellKey_inj (hcols i hi).1 hc hkey
    exact ⟨i, hi, .inl (Prod.ext hr.symm hc.symm), rfl⟩
  · obtain ⟨hr, hc⟩ := cellKey_inj (hcols i hi).2 hc hkey
    exact ⟨i, hi, .inr (Prod.ext hr.symm hc.symm), rfl⟩

/-- Where no two bits have a cell in common, a cell holds its bit. -/
theorem read_writeAll_copy (hunique : ∀ p i j, i < n → j < n → (p = a i ∨ p = b i) → (p = a j ∨ p = b j) → i = j)
    (m : Memory Bool) {i : Nat} (hi : i < n) {p : Nat × Nat} (hp : p = a i ∨ p = b i) :
    Memory.read (Memory.writeAll m ws) (cellKey p.1 p.2) = some (val i) := by
  have hmem : (cellKey p.1 p.2, val i) ∈ ws :=
    (hws _).2 ⟨i, hi, hp.imp (fun h => by rw [h]) (fun h => by rw [h])⟩
  have hc : p.2 < 177 := by rcases hp with rfl | rfl <;> simp [hcols i hi]
  refine Memory.read_writeAll_of_mem m hmem fun x hx hkey => ?_
  obtain ⟨j, hj, hcopy, hval⟩ := exists_copy_of_write hws hcols hx hc hkey
  rw [hval, hunique p j i hj hi hcopy hp]

theorem read_writeAll_no_copy (m : Memory Bool) {r c : Nat} (hc : c < 177)
    (h : ∀ i, i < n → (r, c) ≠ a i ∧ (r, c) ≠ b i) :
    Memory.read (Memory.writeAll m ws) (cellKey r c) = Memory.read m (cellKey r c) := by
  refine Memory.read_writeAll_of_not_mem m fun x hx hkey => ?_
  obtain ⟨i, hi, hcopy, -⟩ := exists_copy_of_write hws hcols hx hc hkey
  exact hcopy.elim (h i hi).1 (h i hi).2

end

/-! ## The format cells (R166, R219) -/

theorem eq_fmtCellA_cases {r c i : Nat} (h : (r, c) = fmtCellA i) :
    (c = 8 ∧ r = i ∧ i ≤ 5) ∨ (c = 8 ∧ r = i + 1 ∧ (i = 6 ∨ i = 7)) ∨ (r = 8 ∧ c = 7 ∧ i = 8) ∨
      (r = 8 ∧ c = 14 - i ∧ 9 ≤ i) := by
  unfold fmtCellA at h
  split_ifs at h <;> cases h <;> omega

theorem eq_fmtCellB_cases {size r c i : Nat} (h : (r, c) = fmtCellB size i) :
    (r = 8 ∧ c = size - 1 - i ∧ i ≤ 7) ∨ (c = 8 ∧ r = size - 15 + i ∧ 8 ≤ i) := by
  unfold fmtCellB at h
  split_ifs at h <;> cases h <;> omega

/-- A format cell holds one bit: neither copy has a cell twice, and the second lies past row or column 12. -/
theorem fmtCell_unique {size : Nat} (hs : 21 ≤ size) (p : Nat × Nat) (i j : Nat) (hi : i < 15) (hj : j < 15)
    (hpi : p = fmtCellA i ∨ p = fmtCellB size i) (hpj : p = fmtCellA j ∨ p = fmtCellB size j) : i = j := by
  have hcases (k : Nat) (hk : p = fmtCellA k ∨ p = fmtCellB size k) :=
    hk.imp (eq_fmtCellA_cases (r := p.1) (c := p.2)) (eq_fmtCellB_cases (r := p.1) (c := p.2))
  have hi' := hcases i hpi
  have hj' := hcases j hpj
  omega

theorem fmtCell_cols {size : Nat} (hs : 21 ≤ size) (hs' : size ≤ 177) :
    ∀ i < 15, (fmtCellA i).2 < 177 ∧ (fmtCellB size i).2 < 177 := fun _ hi =>
  ⟨(fmtCellA_lt hi).2.trans (by decide), (fmtCellB_lt hs hi).2.trans_le hs'⟩

theorem isFmtCell_eq_false_iff {size r c : Nat} :
    isFmtCell size r c = false ↔ ∀ i, i < 15 → (r, c) ≠ fmtCellA i ∧ (r, c) ≠ fmtCellB size i := by
  simp [isFmtCell]

theorem isVerCell_eq_false_iff {v r c : Nat} (h7 : 7 ≤ v) : isVerCell v r c = false ↔
    ∀ i, i < 18 → (r, c) ≠ verCellA (symbolSize v) i ∧ (r, c) ≠ verCellB (symbolSize v) i := by
  simp [isVerCell, h7]

section
variable {v : Nat} (hv : 1 ≤ v ∧ v ≤ 40)
include hv

theorem read_writeFormat_copy (e : EcLevel) (k : BitVec 3) (m : Memory Bool) {i : Nat} (hi : i < 15) {p : Nat × Nat}
    (hp : p = fmtCellA i ∨ p = fmtCellB (symbolSize v) i) :
    Memory.read (writeFormat v e k m) (cellKey p.1 p.2) = some ((fmtWord e k).getLsbD i) := by
  obtain ⟨hlo, hhi⟩ := symbolSize_range hv
  exact read_writeAll_copy (fun _ => mem_fmtWrites) (fmtCell_cols hlo hhi) (fmtCell_unique hlo) m hi hp

theorem read_writeFormat_other (e : EcLevel) (k : BitVec 3) (m : Memory Bool) {r c : Nat} (hc : c < 177)
    (h : isFmtCell (symbolSize v) r c = false) :
    Memory.read (writeFormat v e k m) (cellKey r c) = Memory.read m (cellKey r c) := by
  obtain ⟨hlo, hhi⟩ := symbolSize_range hv
  exact read_writeAll_no_copy (fun _ => mem_fmtWrites) (fmtCell_cols hlo hhi) m hc (isFmtCell_eq_false_iff.1 h)

end

/-- Settles O39: MOD reads through the writes of the format word. -/
theorem wrfmtCompletes : Obligations.WrfmtCompletes := by
  intro s k hv
  have hver := supported_range hv
  refine ⟨_, exec_of_done_setMod (performWrfmt_done k hv), fun i hi => ⟨?_, ?_⟩,
    fun r c hc h => read_writeFormat_other hver _ k _ hc (isFmtCell_eq_false_iff.2 h)⟩
  · exact read_writeFormat_copy hver _ k _ hi (p := fmtCellA i) (.inl rfl)
  · exact read_writeFormat_copy hver _ k _ hi (p := fmtCellB s.side i) (.inr rfl)

/-! ## The version cells (R168, R220) -/

theorem verCell_cols {size : Nat} (hs : 21 ≤ size) (hs' : size ≤ 177) :
    ∀ i < 18, (verCellA size i).2 < 177 ∧ (verCellB size i).2 < 177 := fun _ hi =>
  ⟨(verCellA_lt hs hi).2.trans_le hs', (verCellB_lt hs hi).2.trans_le hs'⟩

/-- A version cell holds one bit: the rows of the first block end before those of the second begin. -/
theorem verCell_unique {size : Nat} (hs : 21 ≤ size) {p : Nat × Nat} {i j : Nat} (hj : j < 18)
    (hpi : p = verCellA size i ∨ p = verCellB size i) (hpj : p = verCellA size j ∨ p = verCellB size j) : i = j := by
  obtain ⟨r, c⟩ := p
  simp only [verCellA, verCellB, Prod.mk.injEq] at hpi hpj
  omega

section
variable {v : Nat} (hv : 1 ≤ v ∧ v ≤ 40)
include hv

theorem read_writeVersion_copy (h7 : 7 ≤ v) (m : Memory Bool) {i : Nat} (hi : i < 18) {p : Nat × Nat}
    (hp : p = verCellA (symbolSize v) i ∨ p = verCellB (symbolSize v) i) :
    Memory.read (writeVersion v m) (cellKey p.1 p.2) = some ((verWord v).getLsbD i) := by
  obtain ⟨hlo, hhi⟩ := symbolSize_range hv
  rw [writeVersion, if_pos h7]
  exact read_writeAll_copy (fun _ => mem_verWrites) (verCell_cols hlo hhi) (fun _ _ _ _ => verCell_unique hlo)
    m hi hp

theorem read_writeVersion_other (m : Memory Bool) {r c : Nat} (hc : c < 177) (h : isVerCell v r c = false) :
    Memory.read (writeVersion v m) (cellKey r c) = Memory.read m (cellKey r c) := by
  obtain ⟨hlo, hhi⟩ := symbolSize_range hv
  unfold writeVersion
  split
  case isTrue h7 =>
    exact read_writeAll_no_copy (fun _ => mem_verWrites) (verCell_cols hlo hhi) m hc ((isVerCell_eq_false_iff h7).1 h)
  case isFalse => rfl

end

/-- Settles O40: MOD reads through the writes of the version word, which is written from version 7 on. -/
theorem wrverCompletes : Obligations.WrverCompletes := by
  intro s hv
  have hver := supported_range hv
  refine ⟨_, exec_of_done_setMod (performWrver_done hv), fun h6 => if_neg (by omega), fun h7 =>
    ⟨fun i hi => ⟨?_, ?_⟩, fun r c hc h => read_writeVersion_other hver _ hc ((isVerCell_eq_false_iff h7).2 h)⟩⟩
  · exact read_writeVersion_copy hver h7 _ hi (p := verCellA s.side i) (.inl rfl)
  · exact read_writeVersion_copy hver h7 _ hi (p := verCellB s.side i) (.inr rfl)

end Sys2Proof.Machine
end

section
/-! PROOFS (44_mask_selector.md R221, R222): the least mask of least penalty, and MASKSEL. -/

namespace Sys2Proof.Machine

/-! ## The least mask of least penalty (R222) -/

/-- The value BestMask looks for is an entry, and the least one. -/
theorem foldl_min_headD {p : List Nat} (h : p ≠ []) :
    p.foldl min (p.headD 0) ∈ p ∧ ∀ x ∈ p, p.foldl min (p.headD 0) ≤ x := by
  obtain ⟨a, l, rfl⟩ := List.exists_cons_of_ne_nil h
  rw [List.headD_cons, List.foldl_cons, min_self]
  exact List.min?_eq_some_iff.1 List.min?_cons'

/-- Settles O41: the index is that of the first entry equal to the minimum. -/
theorem bestMaskIsLeastMinimum : Obligations.BestMaskIsLeastMinimum := by
  intro p hp
  obtain ⟨hmem, hle⟩ := foldl_min_headD (p := p) (by rintro rfl; cases hp)
  have hlt : bestMask p < p.length := List.idxOf_lt_length_of_mem hmem
  have hbest : p.getD (bestMask p) 0 = p.foldl min (p.headD 0) := by
    rw [List.getD_eq_getElem _ _ hlt]
    exact List.getElem_idxOf hlt
  have hentry (m : Nat) (hm : m < 8) : p.foldl min (p.headD 0) ≤ p.getD m 0 := by
    rw [List.getD_eq_getElem _ _ (hp ▸ hm)]
    exact hle _ (List.getElem_mem _)
  refine ⟨hp ▸ hlt, fun m hm => hbest ▸ hentry m hm, fun m hm => ?_⟩
  have hne : p.getD m 0 ≠ p.foldl min (p.headD 0) := by
    rw [List.getD_eq_getElem _ _ (hm.trans hlt)]
    exact ne_of_beq_false (List.not_of_lt_findIdx hm)
  rw [hbest]
  exact lt_of_le_of_ne (hentry m (hm.trans (hp ▸ hlt))) hne.symm

/-! ## MASKSEL (R221) -/

theorem candidatePenalties_getD (size : Nat) (f g : Grid) (k : BitVec 3) :
    (candidatePenalties size f g).getD k.toNat 0 = penalty size (masked f g k) := by
  have hk := k.isLt
  simp [candidatePenalties, hk]

theorem penRegs_getElem? (p : List Nat) (k : BitVec 3) :
    (penRegs p)[k.toNat]? = some (BitVec.ofNat 32 (p.getD k.toNat 0)) := by
  have hk : ∀ n < 8, (penRegs p)[n]? = some (BitVec.ofNat 32 (p.getD n 0)) := by
    intro n hn
    interval_cases n <;> rfl
  exact hk _ k.isLt

theorem chosenMask_toNat (size : Nat) (f g : Grid) :
    (chosenMask size f g).toNat = bestMask (candidatePenalties size f g) := by
  obtain ⟨hlt, -⟩ := bestMaskIsLeastMinimum (candidatePenalties size f g) (by simp [candidatePenalties])
  rw [chosenMask, BitVec.toNat_ofNat, Nat.mod_eq_of_lt hlt]

/-- R222 for the candidates: the chosen mask has the least penalty, and every lower mask a greater one. -/
theorem penalty_chosenMask (size : Nat) (f g : Grid) (k : BitVec 3) :
    penalty size (masked f g (chosenMask size f g)) ≤ penalty size (masked f g k) ∧
    (k.toNat < (chosenMask size f g).toNat →
      penalty size (masked f g (chosenMask size f g)) < penalty size (masked f g k)) := by
  obtain ⟨-, hle, hlt⟩ := bestMaskIsLeastMinimum (candidatePenalties size f g) (by simp [candidatePenalties])
  rw [← candidatePenalties_getD, ← candidatePenalties_getD, chosenMask_toNat]
  exact ⟨hle _ k.isLt, hlt _⟩

theorem isFmtCell_lt {size r c : Nat} (hs : 21 ≤ size) (h : isFmtCell size r c = true) : r < size ∧ c < size := by
  rw [isFmtCell_iff hs] at h
  omega

theorem isVerCell_lt {v r c : Nat} (hv : 1 ≤ v ∧ v ≤ 40) (h : isVerCell v r c = true) :
    r < symbolSize v ∧ c < symbolSize v := by
  have hs := symbolSize_range hv
  simp only [isVerCell_eq hv, inVersionBlock, Bool.and_eq_true, Bool.or_eq_true, decide_eq_true_eq] at h
  omega

/-- The version blocks lie apart from row and column 8. -/
theorem isVerCell_eq_false_of_isFmtCell {v r c : Nat} (hv : 1 ≤ v ∧ v ≤ 40)
    (h : isFmtCell (symbolSize v) r c = true) : isVerCell v r c = false := by
  have hs := symbolSize_range hv
  have hsize : symbolSize v = 4 * v + 17 := rfl
  rw [isFmtCell_iff hs.1] at h
  rw [Bool.eq_false_iff, Ne, isVerCell_eq hv]
  simp only [inVersionBlock, Bool.and_eq_true, Bool.or_eq_true, decide_eq_true_eq]
  omega

theorem isFmtCell_of_copy {size i : Nat} (hi : i < 15) {p : Nat × Nat} (hp : p = fmtCellA i ∨ p = fmtCellB size i) :
    isFmtCell size p.1 p.2 = true := by
  simp only [isFmtCell, List.any_eq_true, List.mem_range, Bool.or_eq_true, beq_iff_eq]
  exact ⟨i, hi, hp⟩

section
variable {v : Nat} (hv : 1 ≤ v ∧ v ≤ 40) (e : EcLevel) (f g : Grid) (arr : Memory Bool)
include hv

/-- The version word is written after the format word and leaves it. -/
theorem read_selectedMod_fmt {i : Nat} (hi : i < 15) {p : Nat × Nat}
    (hp : p = fmtCellA i ∨ p = fmtCellB (symbolSize v) i) :
    Memory.read (selectedMod v e f g arr) (cellKey p.1 p.2) =
      some ((fmtWord e (chosenMask (symbolSize v) f g)).getLsbD i) := by
  obtain ⟨hlo, hhi⟩ := symbolSize_range hv
  have hfmt := isFmtCell_of_copy hi hp
  have hc := (isFmtCell_lt hlo hfmt).2.trans_le hhi
  rw [selectedMod, read_writeVersion_other hv _ hc (isVerCell_eq_false_of_isFmtCell hv hfmt)]
  exact read_writeFormat_copy hv e _ _ hi hp

/-- Elsewhere MOD reads as the chosen candidate in the square, and as before outside it. -/
theorem read_selectedMod_other {r c : Nat} (hc : c < 177) (hfmt : isFmtCell (symbolSize v) r c = false)
    (hver : isVerCell v r c = false)
    (hsq : (masked f g (chosenMask (symbolSize v) f g)).isSquare (symbolSize v)) :
    Memory.read (selectedMod v e f g arr) (cellKey r c) =
      if r < symbolSize v ∧ c < symbolSize v then some ((masked f g (chosenMask (symbolSize v) f g)).cell r c)
      else Memory.read arr (cellKey r c) := by
  rw [selectedMod, read_writeVersion_other hv _ hc hver, read_writeFormat_other hv e _ _ hc hfmt,
    read_writeSquare (symbolSize_range hv).2 hsq arr hc]

end

/-- What MASKSEL leaves, by its registers. -/
theorem exec_masksel_of_done {s : State} {pen : Vector Word 8} {arr : Memory Bool} {best : BitVec 3}
    (h : performMasksel s = .done (((s.setPen pen).setMod arr).setMaskid best)) :
    exec .masksel s = .next { s with
      modArr := arr, maskid := best, pen := pen, status := ⟨false, true, 0#3, s.status.drop⟩ } := by
  rw [exec_eq_complete, performInstr, h]
  rfl

/-- Settles O42: the registers are those of the eight candidates, and MOD reads through the version word, the format
word and the chosen candidate. -/
theorem maskselCompletes : Obligations.MaskselCompletes := by
  intro s g f hv hg hf
  have hver := supported_range hv
  have hside := (side_range hv).2
  have hsq := masked_isSquare hf.1 hg.1
  have hdone := performMasksel_done hv (readSquare_of_holdsGrid hg) (readSquare_of_holdsGrid hf)
  refine ⟨_, _, _, exec_masksel_of_done hdone,
    fun k => ⟨hsq k, fun r c hr hc => masked_cell_decide hf.1 hg.1 k hr hc⟩, fun k => ?_,
    fun k => (penalty_chosenMask s.side f g k).1, fun k => (penalty_chosenMask s.side f g k).2,
    fun i hi => ⟨?_, ?_⟩, fun h7 i hi => ⟨?_, ?_⟩, fun r c hr hc hfmt hvc => ?_, fun r c hc hout => ?_⟩
  · obtain ⟨-, -, -, -, hbound⟩ := penaltyIsBounded _ _ hver.1 hver.2 (hsq k)
    rw [penRegs_getElem?, candidatePenalties_getD, Option.map_some, BitVec.toNat_ofNat]
    exact congrArg some (Nat.mod_eq_of_lt (hbound.trans (by decide)))
  · exact read_selectedMod_fmt hver _ f g _ hi (p := fmtCellA i) (.inl rfl)
  · exact read_selectedMod_fmt hver _ f g _ hi (p := fmtCellB s.side i) (.inr rfl)
  · exact read_writeVersion_copy hver h7 _ hi (p := verCellA s.side i) (.inl rfl)
  · exact read_writeVersion_copy hver h7 _ hi (p := verCellB s.side i) (.inr rfl)
  · exact (read_selectedMod_other hver _ f g _ (hc.trans_le hside) hfmt hvc (hsq _)).trans
      ((if_pos ⟨hr, hc⟩).trans (congrArg some (masked_cell_decide hf.1 hg.1 _ hr hc)))
  · have hfmt : isFmtCell s.side r c = false :=
      Bool.eq_false_iff.2 fun h => hout (isFmtCell_lt (side_range hv).1 h)
    have hvc : isVerCell s.cfg.ver.toNat r c = false := Bool.eq_false_iff.2 fun h => hout (isVerCell_lt hver h)
    exact (read_selectedMod_other hver _ f g _ hc hfmt hvc (hsq _)).trans (if_neg hout)

end Sys2Proof.Machine
end

section
/-! PROOFS (60_exceptions.md R250 to R257): which commands end with an error, and that an error leaves the state as it
was before the command but for STATUS. -/

namespace Sys2Proof.Machine

/-! ## An unsupported version (R252) -/

/-- R38: versions 0 and from 41 on are not supported. -/
theorem supported_eq_false {c : Cfg} (h : c.ver.toNat = 0 ∨ 41 ≤ c.ver.toNat) : c.supported = false := by
  refine Bool.eq_false_iff.2 fun hs => ?_
  have hrange := supported_range hs
  omega

/-- Every command that needs a version is a version check and what follows it (R116). -/
theorem performInstr_of_unsupported {i : Instr} {s : State} (hi : needsVersion i = true)
    (hv : s.cfg.supported = false) : performInstr i s = .error s .unsupportedVersion := by
  cases i
  case nop | setcfg | clrstat => cases hi
  all_goals
    unfold performInstr
    exact withVersion_of_unsupported hv _

/-- Settles O14: the version check is the first thing a command does, and the control commands make none. -/
theorem unsupportedVersionRefused : Obligations.UnsupportedVersionRefused := by
  refine ⟨fun i s hi hver => ?_, fun i s hi => ?_⟩
  · rw [exec_eq_complete, performInstr_of_unsupported hi (supported_eq_false hver)]
    rfl
  · obtain ⟨hnop, hsetcfg, hclrstat⟩ := controlCommandsComplete s
    cases i
    case nop => exact ⟨_, hnop, rfl⟩
    case setcfg v e => exact ⟨_, hsetcfg v e, rfl⟩
    case clrstat => exact ⟨_, hclrstat, rfl⟩
    all_goals cases hi

/-! ## Precise errors (R257) -/

/-- If the result is an error, the state it leaves is `s`. -/
def CmdResult.ErrorKeeps (s : State) : CmdResult → Prop
  | .done _ => True
  | .error u _ => u = s
  | .fault _ => True

/-- A command that ends with a code other than 0 has raised an error. -/
theorem CmdResult.ErrorKeeps.ended {s t : State} {r : CmdResult} (hr : r.ErrorKeeps s) (h : complete r = .next t)
    (herr : t.status.err ≠ 0#3) : ∃ e : ErrCode, t = s.ended e.code := by
  obtain ⟨u, -, rfl⟩ | ⟨u, e, rfl, rfl⟩ := (complete_eq_next_iff r t).1 h
  · exact absurd rfl herr
  · exact ⟨e, congrArg (State.ended · e.code) hr⟩

/-- The version check raises its error before anything is written (R252). -/
theorem withVersion_errorKeeps {s : State} {body : Nat → EcLevel → CmdResult}
    (h : ∀ v e, (body v e).ErrorKeeps s) : (withVersion s body).ErrorKeeps s := by
  cases hv : s.cfg.supported with
  | false => rw [withVersion_of_unsupported hv]; rfl
  | true => rw [withVersion_of_supported hv]; exact h _ _

/-- A read writes nothing. -/
theorem withRead_errorKeeps {α : Type} {s : State} {x : Option α} {body : α → CmdResult}
    (h : ∀ a, (body a).ErrorKeeps s) : (withRead x body).ErrorKeeps s := by
  cases x with
  | none => trivial
  | some a => exact h a

/-- PLACE checks the capacity before it writes (R194). -/
theorem performPlace_errorKeeps (s : State) : (performPlace s).ErrorKeeps s := by
  refine withVersion_errorKeeps fun v _ => withRead_errorKeeps fun f => ?_
  split
  · rfl
  · exact withRead_errorKeeps fun _ => trivial

/-- The stages of GENERATE raise no error after the version check, although the later ones follow writes: the layout
has room for the codewords (R115, R171). -/
theorem performGenerate_errorKeeps (s : State) : (performGenerate s).ErrorKeeps s := by
  cases hv : s.cfg.supported with
  | false => rw [performGenerate_eq_unsupported hv]; rfl
  | true =>
    cases hspan : Memory.readSpan s.din 0 s.dataCount with
    | none => rw [performGenerate_of_unwritten hv hspan]; trivial
    | some data =>
      obtain ⟨hlen, hdata⟩ := holdsList_of_readSpan hspan
      obtain ⟨g, -, hdone⟩ := performGenerate_eq_generated hv hlen hdata
      rw [hdone]
      trivial

/-- Every command raises its errors before it writes. -/
theorem performInstr_errorKeeps (i : Instr) (s : State) : (performInstr i s).ErrorKeeps s := by
  cases i
  all_goals unfold performInstr
  case nop | setcfg | clrstat => trivial
  case layout | wrfmt | wrver => exact withVersion_errorKeeps fun _ _ => trivial
  case rsenc | score => exact withVersion_errorKeeps fun _ _ => withRead_errorKeeps fun _ => trivial
  case applymask | masksel =>
    exact withVersion_errorKeeps fun _ _ => withRead_errorKeeps fun _ => withRead_errorKeeps fun _ => trivial
  case place => exact performPlace_errorKeeps s
  case generate => exact performGenerate_errorKeeps s

/-- Settles O15: an illegal word performs nothing, and a command raises its errors before it writes. -/
theorem errorsArePrecise : Obligations.ErrorsArePrecise := by
  intro s t h herr
  cases hd : decode s.pendcmd with
  | error x =>
    rw [engineStep_of_illegal hd] at h
    cases h
    exact ⟨rfl, ErrCode.illegalCommand.code_le⟩
  | ok i =>
    rw [engineStep_of_decode hd, exec_eq_complete] at h
    obtain ⟨e, rfl⟩ := (performInstr_errorKeeps i s).ended h herr
    exact ⟨rfl, e.code_le⟩

end Sys2Proof.Machine
end

section
/-! PROOFS (70_reset_and_hazards.md R280 to R291): the reset input, the busy hazard, and that the result of a command
does not depend on how often the host polls. -/

namespace Sys2Proof.Machine

/-! ## The reset input (R280 to R284) -/

/-- Settles O59: the reset input leaves `State.reset` by its definition, and nothing there is written or in flight. -/
theorem resetMeetsInvariant : Obligations.ResetMeetsInvariant :=
  ⟨assertReset_inv State.reset, fun _ _ hi => step_of_reset hi⟩

/-- R28: each of PEN0 to PEN7 is 0 at reset. -/
theorem reset_pen_getElem? {k : Nat} (hk : k < 8) : State.reset.pen[k]? = some 0#32 := by
  have hzero : State.reset.pen = Vector.replicate 8 0#32 := rfl
  rw [hzero, Vector.getElem?_replicate, if_pos hk]

/-- R38: version 0 is not supported. -/
theorem reset_cfg_supported : State.reset.cfg.supported = false := supported_eq_false (.inl rfl)

/-- Settles O58: each register and memory is that of `State.reset`, whose version is not supported. -/
theorem resetLeavesIdleAndUnwritten : Obligations.ResetLeavesIdleAndUnwritten := by
  intro s rest hi
  obtain ⟨-, hreset⟩ := resetMeetsInvariant
  exact ⟨_, hreset s rest hi, rfl, rfl, rfl, fun _ => reset_pen_getElem?, rfl, rfl, rfl, rfl, rfl,
    fun _ => ⟨rfl, rfl, rfl, rfl⟩, info_of_unsupported reset_cfg_supported⟩

/-! ## The busy hazard (R286) -/

/-- R286 names the two accesses that are no hazard: a 32-bit read of STATUS and a 32-bit write of CMD. -/
theorem allowedWhileBusy_iff {a : HostAccess} : a.allowedWhileBusy = true ↔
    a = .read 0x0004#16 .four ∨ ∃ v, a = .write 0x0000#16 .four v := by
  cases a <;> simp [HostAccess.allowedWhileBusy]

/-- A read of STATUS is answered whether BUSY is 0 or 1 (R286). -/
theorem step_of_read_status {s : State} {rest : List HostEvent} (hi : s.inputs = readStatus :: rest) :
    step s = .next ((s.setInputs rest).setReply (.word s.status.word)) := by
  have hanswer : portRead s 0x0004#16 = some (.word s.status.word) := portRead_register (by decide) s
  rw [step_of_access hi]
  simp [hostAccess, HostAccess.allowedWhileBusy, legalAccess, hanswer]

theorem step_of_busyHazard {s : State} {a : HostAccess} {rest : List HostEvent} (hb : s.status.busy = true)
    (hi : s.inputs = .access a :: rest) (ha : a.allowedWhileBusy = false) : step s = .fault .busyHazard := by
  rw [step_of_access hi]
  simp [hostAccess, hb, ha]

/-- Settles O57: an access that is neither of the two is not allowed, illegal or not (log 6). -/
theorem busyHazardFaults : Obligations.BusyHazardFaults := by
  refine fun s a rest hb hi => ⟨?_, fun hread hwrite => step_of_busyHazard hb hi ?_⟩
  · rintro rfl
    exact step_of_read_status hi
  · refine Bool.eq_false_iff.2 fun ha => ?_
    obtain h | ⟨v, h⟩ := allowedWhileBusy_iff.1 ha
    · exact hread h
    · exact hwrite v h

/-! ## A command does not see the port's last answer -/

/-- `s` with another last answer of the port (log 4). -/
def State.withReply (s : State) (r : Option PortReply) : State := { s with reply := r }

/-- A result with another last answer in the state it leaves. -/
def CmdResult.withReply (x : CmdResult) (r : Option PortReply) : CmdResult :=
  match x with
  | .done s => .done (s.withReply r)
  | .error s e => .error (s.withReply r) e
  | .fault f => .fault f

/-- The command neither depends on the port's last answer nor changes it. -/
def IgnoresReply (f : State → CmdResult) : Prop := ∀ s r, f (s.withReply r) = (f s).withReply r

/-- The version check reads CFG only (R116). -/
theorem withVersion_withReply {s : State} {r : Option PortReply} {body body' : Nat → EcLevel → CmdResult}
    (h : ∀ v e, body' v e = (body v e).withReply r) :
    withVersion (s.withReply r) body' = (withVersion s body).withReply r := by
  cases hv : s.cfg.supported with
  | false => rw [withVersion_of_unsupported hv, withVersion_of_unsupported (s := s.withReply r) hv]; rfl
  | true =>
    rw [withVersion_of_supported hv, withVersion_of_supported (s := s.withReply r) hv]
    exact h _ _

theorem withRead_withReply {α : Type} {x : Option α} {r : Option PortReply} {body body' : α → CmdResult}
    (h : ∀ a, body' a = (body a).withReply r) : withRead x body' = (withRead x body).withReply r := by
  cases x with
  | none => rfl
  | some a => exact h a

theorem CmdResult.andThen_withReply {k : State → CmdResult} (hk : IgnoresReply k) (x : CmdResult)
    (r : Option PortReply) : (x.withReply r).andThen k = (x.andThen k).withReply r := by
  cases x with
  | done s => exact hk s r
  | error s e => rfl
  | fault f => rfl

theorem performRsenc_ignoresReply : IgnoresReply performRsenc := fun _ _ =>
  withVersion_withReply fun _ _ => withRead_withReply fun _ => rfl

theorem performLayout_ignoresReply : IgnoresReply performLayout := fun _ _ => withVersion_withReply fun _ _ => rfl

/-- The capacity check of PLACE reads FUN and CFG only (R194). -/
theorem performPlace_ignoresReply : IgnoresReply performPlace := by
  refine fun s r => withVersion_withReply fun v _ => withRead_withReply fun f => ?_
  split
  · rfl
  · exact withRead_withReply fun _ => rfl

theorem performMasksel_ignoresReply : IgnoresReply performMasksel := fun _ _ =>
  withVersion_withReply fun _ _ => withRead_withReply fun _ => withRead_withReply fun _ => rfl

/-- The four stages of GENERATE ignore the last answer, so GENERATE does (R115). -/
theorem performGenerate_ignoresReply : IgnoresReply performGenerate := by
  refine fun s r => withVersion_withReply fun _ _ => ?_
  rw [performRsenc_ignoresReply s r, CmdResult.andThen_withReply performLayout_ignoresReply,
    CmdResult.andThen_withReply performPlace_ignoresReply, CmdResult.andThen_withReply performMasksel_ignoresReply]

/-- No command has the port's last answer among its operands or its results. -/
theorem performInstr_ignoresReply (i : Instr) : IgnoresReply (performInstr i) := by
  intro s r
  cases i
  all_goals unfold performInstr
  case nop | setcfg | clrstat => rfl
  case rsenc => exact performRsenc_ignoresReply s r
  case layout => exact performLayout_ignoresReply s r
  case place => exact performPlace_ignoresReply s r
  case masksel => exact performMasksel_ignoresReply s r
  case generate => exact performGenerate_ignoresReply s r
  case wrfmt | wrver => exact withVersion_withReply fun _ _ => rfl
  case score => exact withVersion_withReply fun _ _ => withRead_withReply fun _ => rfl
  case applymask =>
    exact withVersion_withReply fun _ _ => withRead_withReply fun _ => withRead_withReply fun _ => rfl

/-- The end of a command sets STATUS only (R111). -/
theorem complete_withReply {x : CmdResult} {t : State} (r : Option PortReply) (h : complete x = .next t) :
    complete (x.withReply r) = .next (t.withReply r) := by
  obtain ⟨u, rfl, rfl⟩ | ⟨u, e, rfl, rfl⟩ := (complete_eq_next_iff x t).1 h <;> rfl

/-- The engine's step does the same whatever the port answered last. -/
theorem engineStep_withReply {s t : State} (r : Option PortReply) (h : engineStep s = .next t) :
    engineStep (s.withReply r) = .next (t.withReply r) := by
  cases hd : decode s.pendcmd with
  | ok i =>
    rw [engineStep_of_decode hd, exec_eq_complete] at h
    rw [engineStep_of_decode (s := s.withReply r) hd, exec_eq_complete, performInstr_ignoresReply i s r]
    exact complete_withReply r h
  | error x =>
    rw [engineStep_of_illegal hd] at h
    cases h
    exact engineStep_of_illegal (s := s.withReply r) hd

/-! ## Polling (R291) -/

/-- A run begins with one step. -/
theorem Reaches.of_step {s u t : State} {k : Nat} (h : step s = .next u) (hk : Reaches k u t) :
    Reaches (k + 1) s t := by
  have hcore : core.step s = .next u := h
  simp only [Reaches, Host.Core.run, hcore]
  exact hk

/-- Any number of polls and then the engine's turn leave what the engine's step leaves, but for the last answer. -/
theorem reaches_of_polls {n : Nat} {s t : State} (hb : s.status.busy = true)
    (hi : s.inputs = List.replicate n readStatus ++ [.engineTurn]) (ht : engineStep (s.setInputs []) = .next t) :
    ∃ r, Reaches (n + 1) s (t.withReply r) := by
  induction n generalizing s t with
  | zero =>
    have hstep : step s = .next t := by
      rw [step_of_engineTurn hi, engineTurn_of_busy (s := s.setInputs []) hb, ht]
    exact ⟨t.reply, .of_step hstep rfl⟩
  | succ n ih =>
    have hpoll := step_of_read_status (rest := List.replicate n readStatus ++ [.engineTurn]) hi
    have hturn := engineStep_withReply (some (.word s.status.word)) ht
    obtain ⟨r, hr⟩ := ih (s := (s.setInputs (List.replicate n readStatus ++ [.engineTurn])).setReply _) hb rfl hturn
    exact ⟨r, .of_step hpoll hr⟩

/-- Settles O11, by induction on the number of polls. -/
theorem pollingDoesNotChangeResult : Obligations.PollingDoesNotChangeResult := by
  intro n s t hb hi ht
  obtain ⟨r, hr⟩ := reaches_of_polls hb hi ht
  exact ⟨t.withReply r, hr, rfl⟩

end Sys2Proof.Machine
end
